-- ==== Sys2Proof/Word.lean ====
section
/-! DEFINITION. The word types of the block: bytes, 32-bit words and 18-bit host byte addresses. -/

namespace Sys2Proof

/-- A byte: a symbol (00_scope.md R5 `SYMW`) or a byte of a stream buffer. -/
abbrev Byte := BitVec 8

/-- A 32-bit value: a register, a frequency or a command word (10_state.md R22, 30_encoding.md R90). -/
abbrev Word := BitVec 32

/-- A host byte address of the block's port, 18 bits (20_memory.md R60). -/
abbrev Addr := BitVec 18

end Sys2Proof
end

