-- ==== Sys2Proof/Config.lean ====
section
/-! DEFINITION. What an instance of the block fixes: the constants and parameters of 00_scope.md R5, and the
free values that stand for what the spec leaves unspecified (93_implementation_defined.md 15 to 19). -/

namespace Sys2Proof

/-- `NSYM`, the number of symbols (R5, fixed). -/
abbrev NSYM : Nat := 256

/-- `NNODE`, the number of arena slots (R5, fixed; R148). -/
abbrev NNODE : Nat := 511

/-- `HDRBYTES`, the length of the header in bytes (R5, fixed; R242). -/
abbrev HDRBYTES : Nat := 1028

/-- `INT_ORDER`: byte order of a 32-bit integer on a stream (R66). -/
inductive IntOrder where
  | le
  | be
  deriving DecidableEq, Repr

/-- `BIT_ORDER`: position of a stream bit in its byte (R67). -/
inductive BitOrder where
  | msbFirst
  | lsbFirst
  deriving DecidableEq, Repr

/-- `FIRST_SLOT`: the child slot of the first-removed node of a merge (R146). -/
inductive FirstSlot where
  | left
  | right
  deriving DecidableEq, Repr

/-- `SINGLE_MODE`: what `BUILD` does with a one-symbol table (R147). -/
inductive SingleMode where
  | oneBit
  | zeroBit
  | reject
  deriving DecidableEq, Repr

/-- The parameters of an instance (R5). They never change while the block runs (R69, R294). -/
structure Config where
  ibufSize : Nat
  obufSize : Nat
  intOrder : IntOrder
  bitOrder : BitOrder
  firstSlot : FirstSlot
  singleMode : SingleMode
  deriving DecidableEq, Repr

/-- The defaults of R5, which the test vectors use (95_test_vectors.md). -/
def Config.default : Config :=
  { ibufSize := 4096, obufSize := 4096, intOrder := .le, bitOrder := .msbFirst,
    firstSlot := .left, singleMode := .oneBit }

/-- Free value: what draw number `n` of an unspecified host read returns (R64, R301; log 5).
It has no body, so no proof can depend on a value of it. -/
opaque Config.freeWord : Nat → Word

/-- Free value: what byte `k` of `IBUF` holds after reset number `gen` while nothing has written it
(R49 "unspecified (any value)"; log 4). -/
opaque Config.unwrittenIn : (gen k : Nat) → Byte

/-- Free value: the same for byte `k` of `OBUF` (R49; log 4). -/
opaque Config.unwrittenOut : (gen k : Nat) → Byte

end Sys2Proof
end

