-- ==== Sys2Proof/Syntax.lean ====
section
/-! DEFINITION. The commands of the block (one constructor per row of spec/opcode_table.json, 30_encoding.md R95),
the accesses of its host port (20_memory.md R60) and the operations of a host program (R98 to R106). -/

namespace Sys2Proof

/-- A command. The argument of a format S command is its symbol `SYM` (R91); a format N command has none (R92). -/
inductive Instr where
  | nop
  | clrf
  | setf (sym : Byte)
  | getf (sym : Byte)
  | count (sym : Byte)
  | sett
  | build
  | codelen (sym : Byte)
  | encode (sym : Byte)
  | decode
  | putbit
  | putbyte
  | putint
  | flush
  | oclr
  | getbit
  | getbyte
  | getint
  | irewind
  | wrhdr
  | rdhdr
  deriving DecidableEq, Repr

/-- The two command formats (R92). -/
inductive Format where
  | n
  | s
  deriving DecidableEq, Repr

/-- The widths of a host access: 8 or 32 bits (R60). -/
inductive Width where
  | w8
  | w32
  deriving DecidableEq, Repr

/-- One operation of a host program: a transaction of the port, a pseudo-instruction that reads the block
before it goes on, or the loop such a pseudo-instruction leaves (log 11). The straight-line pseudo-instructions
(lines, `COUNTS`, `ENCODES`, `COMPRESS`, `LOADIN`) are lists of these (Machine/HostProgram.lean). -/
inductive HostOp where
  /-- A read transaction. -/
  | read (w : Width) (a : Addr)
  /-- A write transaction; an 8-bit write carries its byte in bits 7:0 of `d`. -/
  | write (w : Width) (a : Addr) (d : Word)
  /-- `WAIT` (R99). -/
  | wait
  /-- `CHECK` (R100). -/
  | check
  /-- `READOUT` (R106), before its read of `OLEN`. -/
  | readout
  /-- The reads of `READOUT` still to make: `n` bytes from output index `k`. -/
  | readBytes (k n : Nat)
  /-- The part of `DECOMPRESS` (R104) after the header is read: read `TOTAL`, then build and decode. -/
  | decodeTotal
  /-- The `DECODE`s of `DECOMPRESS` still to issue. -/
  | decodeLoop (n : Nat)
  deriving DecidableEq, Repr

/-- Which agent moves next (log 3): the engine (R260, R291), the host, or the platform's reset input (R290). -/
inductive Turn where
  | engine
  | host
  | assertReset
  | releaseReset
  deriving DecidableEq, Repr

end Sys2Proof
end

