-- ==== Sys2Proof/WellFormed.lean ====
section
/-! DEFINITION. Well-formedness: of an instance's parameters (00_scope.md R5), of a host access (20_memory.md R62)
and of a command (30_encoding.md R91). -/

namespace Sys2Proof

/-- The ranges of R5: each buffer has 1028 to 65536 bytes. -/
def Config.wf (c : Config) : Bool :=
  decide (1028 ≤ c.ibufSize) && decide (c.ibufSize ≤ 65536) &&
    decide (1028 ≤ c.obufSize) && decide (c.obufSize ≤ 65536)

/-- An access R62 admits: 32 bits wide at a multiple of 4, or 8 bits wide outside the register block
(`0x00000` to `0x0FFFF`). -/
def admitted (w : Width) (a : Addr) : Bool :=
  match w with
  | .w32 => a.toNat % 4 == 0
  | .w8 => decide (0x10000 ≤ a.toNat)

/-- A host operation all of whose own accesses R62 admits. -/
def HostOp.wf : HostOp → Bool
  | .read w a => admitted w a
  | .write w a _ => admitted w a
  | .wait => true
  | .check => true
  | .readout => true
  | .readBytes _ _ => true
  | .decodeTotal => true
  | .decodeLoop _ => true

/-- A well-formed command. Every symbol is legal (R91: "Every value 0 to 255 is a legal symbol operand"), and
`SYM` is an 8-bit value by its type, so every term of `Instr` is well formed; what R96 calls illegal is a word,
which the decoder refuses. -/
def Instr.wf : Instr → Bool
  | .nop => true
  | .clrf => true
  | .setf s => decide (s.toNat < NSYM)
  | .getf s => decide (s.toNat < NSYM)
  | .count s => decide (s.toNat < NSYM)
  | .sett => true
  | .build => true
  | .codelen s => decide (s.toNat < NSYM)
  | .encode s => decide (s.toNat < NSYM)
  | .decode => true
  | .putbit => true
  | .putbyte => true
  | .putint => true
  | .flush => true
  | .oclr => true
  | .getbit => true
  | .getbyte => true
  | .getint => true
  | .irewind => true
  | .wrhdr => true
  | .rdhdr => true

end Sys2Proof
end

