-- ==== Sys2Proof/Decode.lean ====
section
/-! DEFINITION. The decoder of command words (30_encoding.md R90 to R97), total on all 2^32 words and rejecting by
name, and after it the encoder, written from the same opcode map (R95). -/

namespace Sys2Proof

/-- Why a word is illegal (R96). -/
inductive Reject where
  /-- `RES != 0`. -/
  | reservedBits
  /-- `OPC` is not in the opcode map. -/
  | unknownOpcode
  /-- A format N opcode with `SYM != 0`. -/
  | symbolInFormatN
  deriving DecidableEq, Repr

/-- `OPC`, bits 7:0 of a command word (R90). -/
def opcField (w : Word) : Byte := w.extractLsb' 0 8

/-- `SYM`, bits 15:8 (R90). -/
def symField (w : Word) : Byte := w.extractLsb' 8 8

/-- `RES`, bits 31:16 (R90). -/
def resField (w : Word) : BitVec 16 := w.extractLsb' 16 16

/-- The opcode map of R95: the format of an opcode and the command it makes of a symbol field. -/
def opcodeMap (opc : Byte) : Option (Format × (Byte → Instr)) :=
  match opc.toNat with
  | 0x00 => some (.n, fun _ => .nop)
  | 0x01 => some (.n, fun _ => .clrf)
  | 0x02 => some (.s, .setf)
  | 0x03 => some (.s, .getf)
  | 0x04 => some (.s, .count)
  | 0x05 => some (.n, fun _ => .sett)
  | 0x10 => some (.n, fun _ => .build)
  | 0x11 => some (.s, .codelen)
  | 0x12 => some (.s, .encode)
  | 0x13 => some (.n, fun _ => .decode)
  | 0x20 => some (.n, fun _ => .putbit)
  | 0x21 => some (.n, fun _ => .putbyte)
  | 0x22 => some (.n, fun _ => .putint)
  | 0x23 => some (.n, fun _ => .flush)
  | 0x24 => some (.n, fun _ => .oclr)
  | 0x28 => some (.n, fun _ => .getbit)
  | 0x29 => some (.n, fun _ => .getbyte)
  | 0x2A => some (.n, fun _ => .getint)
  | 0x2B => some (.n, fun _ => .irewind)
  | 0x30 => some (.n, fun _ => .wrhdr)
  | 0x31 => some (.n, fun _ => .rdhdr)
  | _ => none

/-- `Decode` of R97. -/
def decode (w : Word) : Except Reject Instr :=
  if resField w ≠ 0 then .error .reservedBits
  else
    match opcodeMap (opcField w) with
    | none => .error .unknownOpcode
    | some (.n, make) => if symField w ≠ 0 then .error .symbolInFormatN else .ok (make 0)
    | some (.s, make) => .ok (make (symField w))

/-- The opcode of a command (R95). -/
def Instr.opcode : Instr → Byte
  | .nop => 0x00
  | .clrf => 0x01
  | .setf _ => 0x02
  | .getf _ => 0x03
  | .count _ => 0x04
  | .sett => 0x05
  | .build => 0x10
  | .codelen _ => 0x11
  | .encode _ => 0x12
  | .decode => 0x13
  | .putbit => 0x20
  | .putbyte => 0x21
  | .putint => 0x22
  | .flush => 0x23
  | .oclr => 0x24
  | .getbit => 0x28
  | .getbyte => 0x29
  | .getint => 0x2A
  | .irewind => 0x2B
  | .wrhdr => 0x30
  | .rdhdr => 0x31

/-- The symbol operand of a command: that of a format S command, 0 for format N (R90, R92). -/
def Instr.symbol : Instr → Byte
  | .setf s => s
  | .getf s => s
  | .count s => s
  | .codelen s => s
  | .encode s => s
  | .nop => 0
  | .clrf => 0
  | .sett => 0
  | .build => 0
  | .decode => 0
  | .putbit => 0
  | .putbyte => 0
  | .putint => 0
  | .flush => 0
  | .oclr => 0
  | .getbit => 0
  | .getbyte => 0
  | .getint => 0
  | .irewind => 0
  | .wrhdr => 0
  | .rdhdr => 0

/-- The format of a command (R95). -/
def Instr.format : Instr → Format
  | .setf _ => .s
  | .getf _ => .s
  | .count _ => .s
  | .codelen _ => .s
  | .encode _ => .s
  | .nop => .n
  | .clrf => .n
  | .sett => .n
  | .build => .n
  | .decode => .n
  | .putbit => .n
  | .putbyte => .n
  | .putint => .n
  | .flush => .n
  | .oclr => .n
  | .getbit => .n
  | .getbyte => .n
  | .getint => .n
  | .irewind => .n
  | .wrhdr => .n
  | .rdhdr => .n

/-- The command word `{RES = 0, SYM, OPC}` of a command (R90). -/
def encode (i : Instr) : Word := (0#16 ++ i.symbol ++ i.opcode : BitVec (16 + 8 + 8))

/-- The command the decoder reads from a table row's word of `nbits` bits, the bits above them zero.
A command is one 32-bit word (R94), so a longer row is none. -/
def decodeTableWord (nbits w : Nat) : Option Instr :=
  if nbits ≤ 32 then
    match decode (BitVec.ofNat 32 (w % 2 ^ nbits)) with
    | .ok i => some i
    | .error _ => none
  else none

end Sys2Proof
end

