-- ==== Sys2Proof/Machine/State.lean ====
section
/-! DEFINITION. The state of the machine: the block's architectural state (10_state.md R20 to R49), the host and
the platform around it (00_scope.md R7), the reasons a step can stop, and the state right after reset. -/

namespace Sys2Proof.Machine

/-- The error codes of 60_exceptions.md R261 by name; "Every other code value is never written". -/
inductive ErrCode where
  | ok
  | illegalCmd
  | badArg
  | noTree
  | unknownSymbol
  | emptyAlphabet
  | singleSymbol
  | unaligned
  | outFull
  | truncated
  | invalidCode
  | overflow
  deriving DecidableEq, Repr

/-- A slot index of the node arena (R40: `NODE[0..510]`). -/
abbrev Slot := Fin NNODE

/-- The kind of a node with the fields that are meaningful for that kind (R40; log 9). -/
inductive NodeBody where
  /-- `LEAF`, with its symbol. -/
  | leaf (sym : Byte)
  /-- `INTERNAL`, with its child slots. -/
  | internal (left right : Slot)
  /-- `DUMMY`, the childless node of a one-symbol tree (R147). -/
  | dummy
  deriving DecidableEq, Repr

/-- A slot of the arena (R40). `count` is an exact natural (R151); `parent = none` is `NIL`. -/
structure Node where
  body : NodeBody
  count : Nat
  parent : Option Slot
  deriving DecidableEq, Repr

/-- The node arena `NODE[0..510]` (R40). -/
abbrev Arena := Vector Node NNODE

/-- The frequency table `FREQ[0..255]` (R39). -/
abbrev FreqTable := Vector Word NSYM

/-- The leaf index `LEAFIDX[0..255]`; `none` is `NIL` (R42). -/
abbrev LeafIndex := Vector (Option Slot) NSYM

/-- The bytes of a buffer that have been written since reset: pairs (index, byte), indices strictly rising
(log 4). A byte that is not listed has never been written and holds an unspecified value (R49). -/
abbrev Memory := List Host.Cell

/-- Where the block stands with respect to its reset input (70_reset_and_hazards.md R290, R291). -/
inductive Phase where
  /-- Reset is asserted. -/
  | inReset
  /-- The initialisation period after reset is released. -/
  | initialising
  /-- The block runs. -/
  | running
  deriving DecidableEq, Repr

/-- The state. First the block's, then that of the host and the platform, then the model's own counters. -/
structure State where
  /-- The instance's parameters (R5). -/
  cfg : Config
  phase : Phase
  /-- `STATUS.BUSY` (R26). -/
  busy : Bool
  /-- The pending command latch (R23). -/
  pending : Option Word
  /-- `STATUS.ERRCODE` (R27). -/
  errcode : ErrCode
  /-- `STATUS.TREE_VALID` (R28). -/
  treeValid : Bool
  /-- `STATUS.LOST` (R29). -/
  lost : Bool
  /-- `ARG` (R24). -/
  arg : Word
  /-- `RESULT` (R30). -/
  result : Word
  /-- `TOTAL` (R32). -/
  total : Word
  /-- `ILEN` (R33). -/
  ilen : Word
  /-- `IPOS` (R34). -/
  ipos : Word
  /-- `OLEN` (R35). -/
  olen : Word
  /-- `OBITS.ONBITS` (R36). -/
  onbits : BitVec 3
  /-- `OBITS.OACC` (R36). -/
  oacc : Byte
  /-- `FREQ` (R39). -/
  freq : FreqTable
  /-- `NODE` (R40). -/
  nodes : Arena
  /-- `ROOT` (R41). -/
  root : Slot
  /-- `NLEAF` (R41). -/
  nleaf : BitVec 9
  /-- `LEAFIDX` (R42). -/
  leafIdx : LeafIndex
  /-- `IBUF` (R43). -/
  ibuf : Memory
  /-- `OBUF` (R44). -/
  obuf : Memory
  /-- The host program still to run (R21). -/
  host : List HostOp
  /-- What the host's read transactions returned, newest first (log 11). -/
  reads : List Word
  /-- The code with which a `CHECK` stopped the host program, if one did (R100). -/
  hostStop : Option Byte
  /-- The order in which the agents move; when it is used up the engine goes first (R74, R75; log 3). -/
  sched : List Turn
  /-- The model's own: how many read transactions have been made, the argument of `Config.freeWord` (log 12). -/
  draws : Nat
  /-- The model's own: how many resets there have been, the argument of `Config.unwrittenIn` and
  `Config.unwrittenOut` (log 12). -/
  gen : Nat
  deriving DecidableEq, Repr

/-- A reason the machine stops with a fault. -/
inductive Fault where
  /-- Raised by `CODELEN` and `ENCODE` when the walk from a leaf by parent references does not end at a root: the
  arena is no tree. R48 rules such an arena out, and no run reaches one. Safe: the model stops (log 8). -/
  | brokenTree
  deriving DecidableEq, Repr

/-- A reason a step is refused. -/
inductive Refusal where
  /-- Raised by an arm of `exec` for a command without a meaning; no arm raises it now. Safe. -/
  | notModelled (mnemonic : String)
  /-- Raised by a host access that R62 does not admit: "a model refuses the access". Safe. -/
  | notAdmitted
  /-- Raised by a host access while reset is asserted (R290): "a model refuses them"; and, by the model's choice, by
  an operation of the host program that makes no access (log 7). Safe. -/
  | accessDuringReset
  deriving DecidableEq, Repr

/-- The outcome of a step of this machine. -/
abbrev Out := Host.Outcome State Fault Refusal

/-- The arena slot value the model names for a slot no `BUILD` has written (R49 "unspecified; unobservable while
`TREE_VALID = 0`"; log 6, DESIGN CHOICE). -/
def Node.initial : Node := { body := .dummy, count := 0, parent := none }

/-- The state of an instance after reset, as R49 tabulates it (log 2). -/
def State.resetWith (cfg : Config) : State :=
  { cfg := cfg
    phase := .running
    busy := false
    pending := none
    errcode := .ok
    treeValid := false
    lost := false
    arg := 0
    result := 0
    total := 0
    ilen := 0
    ipos := 0
    olen := 0
    onbits := 0
    oacc := 0
    freq := Vector.replicate NSYM 0
    nodes := Vector.replicate NNODE Node.initial
    root := 0
    nleaf := 0
    leafIdx := Vector.replicate NSYM none
    ibuf := []
    obuf := []
    host := []
    reads := []
    hostStop := none
    sched := []
    draws := 0
    gen := 0 }

/-- The machine right after reset: the instance with the defaults of R5 (log 1), in the state of R49. -/
def State.reset : State := State.resetWith Config.default

end Sys2Proof.Machine
end

