-- ==== Sys2Proof/Machine/Flags.lean ====
section
/-! DEFINITION. The status fields and the registers that are views of other state: `STATUS` (10_state.md R25 to R29),
`OBITS` (R36), `CONFIG` (R31), `IBUFSZ` and `OBUFSZ` (R37), and the error codes' numbers (60_exceptions.md R261). -/

namespace Sys2Proof.Machine

/-- The number of an error code (R261). -/
def ErrCode.code : ErrCode → Byte
  | .ok => 0x00
  | .illegalCmd => 0x01
  | .badArg => 0x02
  | .noTree => 0x03
  | .unknownSymbol => 0x04
  | .emptyAlphabet => 0x05
  | .singleSymbol => 0x06
  | .unaligned => 0x07
  | .outFull => 0x08
  | .truncated => 0x09
  | .invalidCode => 0x0A
  | .overflow => 0x0B

/-- `STATUS.ERR`, "always equal to `(ERRCODE != 0)`" (R25, R27). -/
def errFlag (s : State) : Bool := s.errcode.code != 0

/-- One bit as a bit vector. -/
def bit (b : Bool) : BitVec 1 := BitVec.ofBool b

/-- `STATUS` as a word (R25): `{0, ERRCODE, 0, LOST, 0, TREE_VALID, ERR, BUSY}`. -/
def statusWord (s : State) : Word :=
  (0#16 ++ s.errcode.code ++ 0#3 ++ bit s.lost ++ 0#1 ++ bit s.treeValid ++ bit (errFlag s) ++ bit s.busy :
    BitVec (16 + 8 + 3 + 1 + 1 + 1 + 1 + 1))

/-- `OBITS` as a word (R36): `OACC` in bits 15:8, `ONBITS` in bits 2:0. -/
def obitsWord (s : State) : Word := (0#16 ++ s.oacc ++ 0#5 ++ s.onbits : BitVec (16 + 8 + 5 + 3))

/-- Bit 0 of `CONFIG` (R31). -/
def IntOrder.bitOf : IntOrder → Bool
  | .le => false
  | .be => true

/-- Bit 1 of `CONFIG` (R31). -/
def BitOrder.bitOf : BitOrder → Bool
  | .msbFirst => false
  | .lsbFirst => true

/-- Bit 2 of `CONFIG` (R31). -/
def FirstSlot.bitOf : FirstSlot → Bool
  | .left => false
  | .right => true

/-- Bits 5:4 of `CONFIG` (R31). -/
def SingleMode.bitsOf : SingleMode → BitVec 2
  | .oneBit => 0
  | .zeroBit => 1
  | .reject => 2

/-- `CONFIG` as a word (R31). -/
def configWord (c : Config) : Word :=
  (0#26 ++ SingleMode.bitsOf c.singleMode ++ 0#1 ++ bit (FirstSlot.bitOf c.firstSlot) ++
    bit (BitOrder.bitOf c.bitOrder) ++ bit (IntOrder.bitOf c.intOrder) : BitVec (26 + 2 + 1 + 1 + 1 + 1))

/-- `IBUFSZ` (R37). -/
def ibufszWord (c : Config) : Word := BitVec.ofNat 32 c.ibufSize

/-- `OBUFSZ` (R37). -/
def obufszWord (c : Config) : Word := BitVec.ofNat 32 c.obufSize

/-- `STATUS.TREE_VALID <- 0`, when the frequency table changes (R28). -/
def invalidateTree (s : State) : State := { s with treeValid := false }

/-- A `STATUS` write of `d` while `BUSY = 0`: bit 4 set clears `LOST`, all other bits are ignored (R25). -/
def writeStatus (d : Word) (s : State) : State := if d.getLsbD 4 then { s with lost := false } else s

end Sys2Proof.Machine
end

