-- ==== Sys2Proof/Machine/Operands.lean ====
section
/-! DEFINITION. The operand forms: the symbol and `ARG` operands of a command (30_encoding.md R91, R93), the tables
they index, and the byte order and bit order of the streams (20_memory.md R66, R67). -/

namespace Sys2Proof.Machine

/-- `FREQ[s]` of a table (R39). -/
def freqAt (freq : FreqTable) (sym : Byte) : Word := freq[sym.toNat]'sym.isLt

/-- `FREQ[s] <- v` (R10). -/
def setFreqAt (freq : FreqTable) (sym : Byte) (v : Word) : FreqTable := freq.set sym.toNat v sym.isLt

/-- `LEAFIDX[s]` (R42). -/
def leafAt (idx : LeafIndex) (sym : Byte) : Option Slot := idx[sym.toNat]'sym.isLt

/-- `NODE[i]` (R40). -/
def nodeAt (ar : Arena) (i : Slot) : Node := ar[i.val]'i.isLt

/-- `NODE[i] <- n` (R10). -/
def setNodeAt (ar : Arena) (i : Slot) (n : Node) : Arena := ar.set i.val n i.isLt

/-- The bit operand of `PUTBIT`: `ARG` when it is 0 or 1 (R93). -/
def bitOperand (s : State) : Option Bool := if s.arg.toNat ≤ 1 then some (s.arg.getLsbD 0) else none

/-- The byte operand of `PUTBYTE`: `ARG[7:0]` when `ARG` is 0 to 255 (R93). -/
def byteOperand (s : State) : Option Byte := if s.arg.toNat ≤ 0xFF then some (s.arg.extractLsb' 0 8) else none

/-- The 32-bit operand of `SETF`, `SETT` and `PUTINT`: `ARG`, any value (R93). -/
def wordOperand (s : State) : Word := s.arg

/-- `IntToBytes` (R66): the four stream bytes of an integer, in stream order. -/
def intToBytes (o : IntOrder) (v : Word) : List Byte :=
  match o with
  | .le => [v.extractLsb' 0 8, v.extractLsb' 8 8, v.extractLsb' 16 8, v.extractLsb' 24 8]
  | .be => [v.extractLsb' 24 8, v.extractLsb' 16 8, v.extractLsb' 8 8, v.extractLsb' 0 8]

/-- The word with the given bytes, the most significant first. -/
def wordOfBytes (b3 b2 b1 b0 : Byte) : Word := (b3 ++ b2 ++ b1 ++ b0 : BitVec (8 + 8 + 8 + 8))

/-- `BytesToInt` (R66); `b0` is the first byte of the stream. -/
def bytesToInt (o : IntOrder) (b0 b1 b2 b3 : Byte) : Word :=
  match o with
  | .le => wordOfBytes b3 b2 b1 b0
  | .be => wordOfBytes b0 b1 b2 b3

/-- `BitPos` (R67): the position in its byte of the `k`-th bit, `k` in 0 to 7. -/
def bitPos (o : BitOrder) (k : Nat) : Nat :=
  match o with
  | .msbFirst => 7 - k
  | .lsbFirst => k

/-- `v[i] <- b` on a byte (R8, R10). -/
def setBitAt (v : Byte) (i : Nat) (b : Bool) : Byte :=
  if b then v ||| (1#8 <<< i) else v &&& ~~~(1#8 <<< i)

end Sys2Proof.Machine
end

