-- ==== Sys2Proof/Machine/Ops.lean ====
section
/-! DEFINITION. The shared operations: how a command ends, with success or with an error (60_exceptions.md R260, R262),
the stream buffers (10_state.md R43, R44), the bit writer (44_bitstream.md R200 to R202) and the bit reader (R209). -/

namespace Sys2Proof.Machine

/-! ## The end of a command

A failing command is the block's one exception: `raiseError`. It "saves no state, changes no mode, transfers no
control and uses no vector" (R266), and there is no return from it: "The command after a failed one executes
normally, whatever `ERRCODE` holds" (R267). -/

/-- The writes the execution step makes around a body (R260): `ERRCODE`, the pending latch and `BUSY`. -/
def finish (e : ErrCode) (s : State) : State := { s with errcode := e, pending := none, busy := false }

/-- The end of a successful command: the body's writes are committed and `ERRCODE` is 0 (R260). -/
def complete (s : State) : Out := .next (finish .ok s)

/-- `raise Error(code)` of a command begun in `s`: every write of its body is discarded (R11, R260). -/
def raiseError (e : ErrCode) (s : State) : Out := .next (finish e s)

/-- `assert-or-raise c, code` of a command begun in `s`, going on with `body` (R10). -/
def assertOrRaise (c : Prop) [Decidable c] (e : ErrCode) (s : State) (body : Out) : Out :=
  if c then body else raiseError e s

/-- `RESULT <- v` (R30). -/
def setResult (v : Word) (s : State) : State := { s with result := v }

/-! ## The stream buffers -/

/-- The byte written last at index `k`, if any has been written (log 4). -/
def Memory.read? : Memory → Nat → Option Byte
  | [], _ => none
  | (a, v) :: m, k => if a = k then some v else Memory.read? m k

/-- `MemWrite(buffer, k, 1, v)` (R10), keeping the indices strictly rising. -/
def Memory.write : Memory → Nat → Byte → Memory
  | [], k, v => [(k, v)]
  | (a, b) :: m, k, v =>
    if k < a then (k, v) :: (a, b) :: m
    else if k = a then (k, v) :: m
    else (a, b) :: Memory.write m k v

/-- The canonical form of a buffer: indices strictly rising. An index that is not listed reads as no written byte,
so no entry equals what an unlisted index reads as (log 4). -/
abbrev Memory.wf (m : Memory) : Prop := m.Pairwise (fun x y => x.1 < y.1)

/-- `MemRead(IBUF, k, 1)` (R10); a byte never written since reset is unspecified (R49; log 4). -/
def inByte (s : State) (k : Nat) : Byte :=
  match Memory.read? s.ibuf k with
  | some b => b
  | none => Config.unwrittenIn s.gen k

/-- The byte `OBUF[k]` (R44); a byte never written since reset is unspecified (R49; log 4). -/
def outByte (s : State) (k : Nat) : Byte :=
  match Memory.read? s.obuf k with
  | some b => b
  | none => Config.unwrittenOut s.gen k

/-! ## The writer -/

/-- `MemWrite(OBUF, OLEN, 1, v)` and `OLEN <- OLEN + 1`: a completed byte enters `OBUF` (R201, R202, R207).
This is `EmitByte` (R202). -/
def emitByte (v : Byte) (s : State) : State :=
  { s with obuf := Memory.write s.obuf s.olen.toNat v, olen := BitVec.ofNat 32 (s.olen.toNat + 1) }

/-- `EmitByte` of each byte in order. -/
def emitBytes (bs : List Byte) (s : State) : State := bs.foldl (fun t b => emitByte b t) s

/-- `OACC <- v` and `ONBITS <- n` (R201). -/
def setPartial (v : Byte) (n : Nat) (s : State) : State := { s with oacc := v, onbits := BitVec.ofNat 3 n }

/-- `OACC <- 0` and `ONBITS <- 0` (R201, R207). -/
def clearPartial (s : State) : State := setPartial 0 0 s

/-- The partial byte with one more bit, at its place (R200, R201). -/
def accWith (b : Bool) (s : State) : Byte := setBitAt s.oacc (bitPos s.cfg.bitOrder s.onbits.toNat) b

/-- `EmitBit` (R201). -/
def emitBit (b : Bool) (s : State) : State :=
  if s.onbits.toNat + 1 = 8 then clearPartial (emitByte (accWith b s) s)
  else setPartial (accWith b s) (s.onbits.toNat + 1) s

/-- `EmitBit` of each bit in order. -/
def emitBits (bs : List Bool) (s : State) : State := bs.foldl (fun t b => emitBit b t) s

/-- `OLEN + n <= OBUF_SIZE`: `n` more bytes fit (R203 to R205, R240). -/
abbrev bytesFit (n : Nat) (s : State) : Prop := s.olen.toNat + n ≤ s.cfg.obufSize

/-- The bytes that `d` more bits would complete fit: `OLEN + (ONBITS + d) div 8 <= OBUF_SIZE` (R172, R203). -/
abbrev bitsFit (d : Nat) (s : State) : Prop := bytesFit ((s.onbits.toNat + d) / 8) s

/-- The writer's byte-aligned condition `ONBITS = 0` (R36, R68). -/
abbrev writerAligned (s : State) : Prop := s.onbits = 0

/-! ## The reader -/

/-- `ReadBitAt` (R209). -/
def readBitAt (s : State) (p : Nat) : Bool := (inByte s (p / 8)).getLsbD (bitPos s.cfg.bitOrder (p % 8))

/-- `ReadByteAt` (R209). -/
def readByteAt (s : State) (j : Nat) : Byte := inByte s j

/-- The integer at byte `j` of the input, in `INT_ORDER` (R214, R241). -/
def readIntAt (s : State) (j : Nat) : Word :=
  bytesToInt s.cfg.intOrder (readByteAt s j) (readByteAt s (j + 1)) (readByteAt s (j + 2)) (readByteAt s (j + 3))

/-- `IPOS <- p` (R34). -/
def setIpos (p : Nat) (s : State) : State := { s with ipos := BitVec.ofNat 32 p }

/-- The reader's byte-aligned condition `IPOS mod 8 = 0` (R34, R68). -/
abbrev readerAligned (s : State) : Prop := s.ipos.toNat % 8 = 0

/-- The byte index of the reader, `IPOS div 8`. -/
def inIndex (s : State) : Nat := s.ipos.toNat / 8

/-- `n` bytes remain from the reader's byte on: `IPOS div 8 + n <= ILEN` (R213, R214, R241). -/
abbrev bytesRemain (n : Nat) (s : State) : Prop := inIndex s + n ≤ s.ilen.toNat

end Sys2Proof.Machine
end

