-- ==== Sys2Proof/Machine/Bitstream.lean ====
section
/-! DEFINITION. The commands of the bit writer and the bit reader (44_bitstream.md R203 to R215). -/

namespace Sys2Proof.Machine

/-- `PUTBIT` (R203). -/
def execPutbit (s : State) : Out :=
  match bitOperand s with
  | none => raiseError .badArg s
  | some b => assertOrRaise (bitsFit 1 s) .outFull s <| complete (emitBit b s)

/-- `PUTBYTE` (R204); `BIT_ORDER` does not apply. -/
def execPutbyte (s : State) : Out :=
  match byteOperand s with
  | none => raiseError .badArg s
  | some v =>
    assertOrRaise (writerAligned s) .unaligned s <|
    assertOrRaise (bytesFit 1 s) .outFull s <|
    complete (emitByte v s)

/-- `PUTINT` (R205). -/
def execPutint (s : State) : Out :=
  assertOrRaise (writerAligned s) .unaligned s <|
  assertOrRaise (bytesFit 4 s) .outFull s <|
  complete (emitBytes (intToBytes s.cfg.intOrder (wordOperand s)) s)

/-- `FLUSH` (R207): a pending partial byte is stored, its unwritten positions 0; an empty one leaves nothing to do. -/
def execFlush (s : State) : Out :=
  if writerAligned s then complete s
  else assertOrRaise (bytesFit 1 s) .outFull s <| complete (clearPartial (emitByte s.oacc s))

/-- `OCLR` (R208): `OLEN <- 0`; the partial byte is kept. -/
def execOclr (s : State) : Out := complete { s with olen := 0 }

/-- `GETBIT` (R210). -/
def execGetbit (s : State) : Out :=
  assertOrRaise (s.ipos.toNat < 8 * s.ilen.toNat) .truncated s <|
  complete (setResult ((bit (readBitAt s s.ipos.toNat)).setWidth 32) (setIpos (s.ipos.toNat + 1) s))

/-- `GETBYTE` (R213); `BIT_ORDER` does not apply. -/
def execGetbyte (s : State) : Out :=
  assertOrRaise (readerAligned s) .unaligned s <|
  assertOrRaise (bytesRemain 1 s) .truncated s <|
  complete (setResult ((readByteAt s (inIndex s)).setWidth 32) (setIpos (s.ipos.toNat + 8) s))

/-- `GETINT` (R214). -/
def execGetint (s : State) : Out :=
  assertOrRaise (readerAligned s) .unaligned s <|
  assertOrRaise (bytesRemain 4 s) .truncated s <|
  complete (setResult (readIntAt s (inIndex s)) (setIpos (s.ipos.toNat + 32) s))

/-- `IREWIND` (R215). -/
def execIrewind (s : State) : Out := complete (setIpos 0 s)

end Sys2Proof.Machine
end

