-- ==== Sys2Proof/Machine/Build.lean ====
section
/-! DEFINITION. The priority ordering and the tree build (42_tree_build.md R140 to R152). -/

namespace Sys2Proof.Machine

/-- Slot number `k`; every number the build uses is below 511 (R148). -/
def slotOf (k : Nat) : Slot := Fin.ofNat NNODE k

/-- The 256 symbols in ascending order. -/
def allSymbols : List Byte := (List.range NSYM).map (BitVec.ofNat 8)

/-- The symbols with nonzero frequency, ascending (R144); their number is `n`. -/
def alphabet (freq : FreqTable) : List Byte := allSymbols.filter (fun sym => freqAt freq sym != 0)

/-- `key(i) < key(j)` (R142): the pair (count, index), compared lexicographically. -/
def keyLt (ar : Arena) (i j : Slot) : Bool :=
  decide ((nodeAt ar i).count < (nodeAt ar j).count) ||
    (decide ((nodeAt ar i).count = (nodeAt ar j).count) && decide (i.val < j.val))

/-- `PickMin` (R143): the member of `live` with the smallest key; `none` only for the empty set. -/
def pickMin (ar : Arena) : List Slot → Option Slot
  | [] => none
  | i :: rest =>
    match pickMin ar rest with
    | none => some i
    | some j => if keyLt ar i j then some i else some j

/-- `NODE[i].parent <- m` (R146). -/
def setParent (ar : Arena) (i m : Slot) : Arena := setNodeAt ar i { nodeAt ar i with parent := some m }

/-- The child slots of a merge, `a` removed first and `b` second (R146). -/
def mergeBody (fs : FirstSlot) (a b : Slot) : NodeBody :=
  match fs with
  | .left => .internal a b
  | .right => .internal b a

/-- The new node of a merge in slot `m`, and the parent references of its children (R146). -/
def joinNodes (fs : FirstSlot) (ar : Arena) (a b m : Slot) : Arena :=
  setParent
    (setParent
      (setNodeAt ar m
        { body := mergeBody fs a b, count := (nodeAt ar a).count + (nodeAt ar b).count, parent := none }) a m)
    b m

/-- One merge step into slot `m` (R146): the arena and the live set after it. With fewer than two live nodes there is
nothing to merge, which does not happen in `BUILD`. -/
def mergeOnce (fs : FirstSlot) (m : Slot) (ar : Arena) (live : List Slot) : Arena × List Slot :=
  match pickMin ar live with
  | none => (ar, live)
  | some a =>
    match pickMin ar (live.erase a) with
    | none => (ar, live)
    | some b => (joinNodes fs ar a b m, (live.erase a).erase b ++ [m])

/-- The merge loop of R150: `k` merges, the next new node in slot `m` (R145). -/
def mergeLoop (fs : FirstSlot) : (k m : Nat) → Arena → List Slot → Arena
  | 0, _, ar, _ => ar
  | k + 1, m, ar, live =>
    mergeLoop fs k (m + 1) (mergeOnce fs (slotOf m) ar live).1 (mergeOnce fs (slotOf m) ar live).2

/-- The leaf of a symbol (R144). -/
def leafNode (freq : FreqTable) (sym : Byte) : Node :=
  { body := .leaf sym, count := (freqAt freq sym).toNat, parent := none }

/-- The leaves of `syms` in the slots from `k` on (R144). -/
def placeLeaves (freq : FreqTable) : List Byte → (k : Nat) → Arena → Arena
  | [], _, ar => ar
  | sym :: syms, k, ar => placeLeaves freq syms (k + 1) (setNodeAt ar (slotOf k) (leafNode freq sym))

/-- `LEAFIDX` for the leaves of `syms` in the slots from `k` on (R144). -/
def placeIndex : List Byte → (k : Nat) → LeafIndex → LeafIndex
  | [], _, idx => idx
  | sym :: syms, k, idx => placeIndex syms (k + 1) (idx.set sym.toNat (some (slotOf k)) sym.isLt)

/-- The `ONE_BIT` tree over the leaf in slot 0 (R147). -/
def singleTree (ar : Arena) : Arena :=
  setParent
    (setNodeAt (setNodeAt ar (slotOf 1) { body := .dummy, count := 0, parent := some (slotOf 2) }) (slotOf 2)
      { body := .internal (slotOf 0) (slotOf 1), count := (nodeAt ar (slotOf 0)).count, parent := none })
    (slotOf 0) (slotOf 2)

/-- The arena after `BUILD` of an alphabet of `n` leaves already placed (R147, R150). -/
def joinLeaves (cfg : Config) (n : Nat) (ar : Arena) : Arena :=
  if n = 1 then
    match cfg.singleMode with
    | .oneBit => singleTree ar
    | .zeroBit => ar
    | .reject => ar
  else mergeLoop cfg.firstSlot (n - 1) n ar ((List.range n).map slotOf)

/-- `ROOT` after `BUILD` of `n` leaves (R147, R150). -/
def rootOf (cfg : Config) (n : Nat) : Slot :=
  if n = 1 then
    match cfg.singleMode with
    | .oneBit => slotOf 2
    | .zeroBit => slotOf 0
    | .reject => slotOf 0
  else slotOf (2 * n - 2)

/-- The writes of a successful `BUILD` (R150). Slots it does not write keep what they held. -/
def buildTree (s : State) : State :=
  { s with
    nodes := joinLeaves s.cfg (alphabet s.freq).length (placeLeaves s.freq (alphabet s.freq) 0 s.nodes)
    leafIdx := placeIndex (alphabet s.freq) 0 (Vector.replicate NSYM none)
    root := rootOf s.cfg (alphabet s.freq).length
    nleaf := BitVec.ofNat 9 (alphabet s.freq).length
    treeValid := true
    result := BitVec.ofNat 32 (alphabet s.freq).length }

/-- `BUILD` (R150). -/
def execBuild (s : State) : Out :=
  assertOrRaise (1 ≤ (alphabet s.freq).length) .emptyAlphabet s <|
  assertOrRaise (¬((alphabet s.freq).length = 1 ∧ s.cfg.singleMode = .reject)) .singleSymbol s <|
  complete (buildTree s)

end Sys2Proof.Machine
end

