-- ==== Sys2Proof/Machine/Codec.lean ====
section
/-! DEFINITION. The symbol encoder and the tree-walking decoder (43_encode_decode.md R170 to R173). -/

namespace Sys2Proof.Machine

/-- The walk of `PathOf` (R170) from slot `i` by parent references, with at most `fuel` edges, putting the bit of each
edge before the bits already found, so that the result is in root-to-leaf order. `none` when the arena is no tree:
a parent that is not internal, or no root within `fuel` edges (log 8). -/
def pathUp (ar : Arena) : (fuel : Nat) → Slot → List Bool → Option (List Bool)
  | 0, _, _ => none
  | fuel + 1, i, path =>
    match (nodeAt ar i).parent with
    | none => some path
    | some p =>
      match (nodeAt ar p).body with
      | .internal left _ => pathUp ar fuel p (decide (left ≠ i) :: path)
      | .leaf _ => none
      | .dummy => none

/-- `PathOf` of the leaf in slot `i` (R170). -/
def pathOf (s : State) (i : Slot) : Option (List Bool) := pathUp s.nodes NNODE i []

/-- The common front of `CODELEN` and `ENCODE` (R171, R172): a held tree, a leaf for the symbol, and its path. -/
def withPath (sym : Byte) (s : State) (body : List Bool → Out) : Out :=
  assertOrRaise (s.treeValid = true) .noTree s <|
  match leafAt s.leafIdx sym with
  | none => raiseError .unknownSymbol s
  | some i =>
    match pathOf s i with
    | none => .fault .brokenTree
    | some path => body path

/-- `CODELEN` (R171): `RESULT <-` the code length. -/
def execCodelen (sym : Byte) (s : State) : Out :=
  withPath sym s fun path => complete (setResult (BitVec.ofNat 32 path.length) s)

/-- `ENCODE` (R172): the code goes to the bit writer, its length to `RESULT`. -/
def execEncode (sym : Byte) (s : State) : Out :=
  withPath sym s fun path =>
    assertOrRaise (bitsFit path.length s) .outFull s <|
    complete (setResult (BitVec.ofNat 32 path.length) (emitBits path s))

/-- The walk of `DECODE` (R173) from slot `i` and bit position `p`, with `rem` input bits left:
the slot it ends in and the bit position after it, or `none` when the input ends first. -/
def walkDown (s : State) : (rem : Nat) → (p : Nat) → Slot → Option (Slot × Nat)
  | rem, p, i =>
    match (nodeAt s.nodes i).body with
    | .leaf _ => some (i, p)
    | .dummy => some (i, p)
    | .internal left right =>
      match rem with
      | 0 => none
      | rem + 1 => walkDown s rem (p + 1) (if readBitAt s p then right else left)

/-- `DECODE` (R173). -/
def execDecode (s : State) : Out :=
  assertOrRaise (s.treeValid = true) .noTree s <|
  match walkDown s (8 * s.ilen.toNat - s.ipos.toNat) s.ipos.toNat s.root with
  | none => raiseError .truncated s
  | some (i, p) =>
    match (nodeAt s.nodes i).body with
    | .leaf sym => complete (setResult (sym.setWidth 32) (setIpos p s))
    | .dummy => raiseError .invalidCode s
    | .internal _ _ => raiseError .invalidCode s

end Sys2Proof.Machine
end

