-- ==== Sys2Proof/Machine/Frequency.lean ====
section
/-! DEFINITION. The frequency table commands (41_frequency.md R120 to R125). -/

namespace Sys2Proof.Machine

/-- `NOP` (R120): its whole effect is `ERRCODE <- 0`. -/
def execNop (s : State) : Out := complete s

/-- `CLRF` (R121). -/
def execClrf (s : State) : Out :=
  complete (invalidateTree { s with freq := Vector.replicate NSYM 0, total := 0 })

/-- `SETF` (R122): `FREQ[s] <- ARG`. -/
def execSetf (sym : Byte) (s : State) : Out :=
  complete (invalidateTree { s with freq := setFreqAt s.freq sym (wordOperand s) })

/-- `GETF` (R123): `RESULT <- FREQ[s]`. -/
def execGetf (sym : Byte) (s : State) : Out := complete (setResult (freqAt s.freq sym) s)

/-- `COUNT` (R124): no counter ever wraps; at `2^32 - 1` the command fails. -/
def execCount (sym : Byte) (s : State) : Out :=
  assertOrRaise ((freqAt s.freq sym).toNat < 0xFFFFFFFF) .overflow s <|
  assertOrRaise (s.total.toNat < 0xFFFFFFFF) .overflow s <|
  complete (invalidateTree
    { s with
      freq := setFreqAt s.freq sym (BitVec.ofNat 32 ((freqAt s.freq sym).toNat + 1))
      total := BitVec.ofNat 32 (s.total.toNat + 1) })

/-- `SETT` (R125): `TOTAL <- ARG`; the tree does not depend on it. -/
def execSett (s : State) : Out := complete { s with total := wordOperand s }

end Sys2Proof.Machine
end

