-- ==== Sys2Proof/Machine/Header.lean ====
section
/-! DEFINITION. The header commands (45_header.md R240 to R242). -/

namespace Sys2Proof.Machine

/-- The 1028 header bytes of `TOTAL` and `FREQ` (R240, R242). -/
def headerBytes (s : State) : List Byte :=
  intToBytes s.cfg.intOrder s.total ++
    allSymbols.flatMap (fun sym => intToBytes s.cfg.intOrder (freqAt s.freq sym))

/-- `WRHDR` (R240). -/
def execWrhdr (s : State) : Out :=
  assertOrRaise (writerAligned s) .unaligned s <|
  assertOrRaise (bytesFit HDRBYTES s) .outFull s <|
  complete (emitBytes (headerBytes s) s)

/-- The frequency table in the header that starts at input byte `j` (R241): `FREQ[s]` at `j + 4 + 4*s`. -/
def headerFreq (s : State) (j : Nat) : FreqTable := Vector.ofFn (fun k : Fin NSYM => readIntAt s (j + 4 + 4 * k.val))

/-- `RDHDR` (R241); the values are taken as given. -/
def execRdhdr (s : State) : Out :=
  assertOrRaise (readerAligned s) .unaligned s <|
  assertOrRaise (bytesRemain HDRBYTES s) .truncated s <|
  complete (invalidateTree (setIpos (s.ipos.toNat + 8 * HDRBYTES)
    { s with total := readIntAt s (inIndex s), freq := headerFreq s (inIndex s) }))

end Sys2Proof.Machine
end

