-- ==== Sys2Proof/Machine/Dispatch.lean ====
section
/-! DEFINITION. The meaning of each command: one arm per constructor of Instr (30_encoding.md R95). -/

namespace Sys2Proof.Machine

def exec (i : Instr) (s : State) : Host.Outcome State Fault Refusal :=
  match i with
  -- 41_frequency.md
  | .nop => Sys2Proof.Machine.execNop s
  | .clrf => Sys2Proof.Machine.execClrf s
  | .setf sym => Sys2Proof.Machine.execSetf sym s
  | .getf sym => Sys2Proof.Machine.execGetf sym s
  | .count sym => Sys2Proof.Machine.execCount sym s
  | .sett => Sys2Proof.Machine.execSett s
  -- 42_tree_build.md
  | .build => Sys2Proof.Machine.execBuild s
  -- 43_encode_decode.md
  | .codelen sym => Sys2Proof.Machine.execCodelen sym s
  | .encode sym => Sys2Proof.Machine.execEncode sym s
  | .decode => Sys2Proof.Machine.execDecode s
  -- 44_bitstream.md
  | .putbit => Sys2Proof.Machine.execPutbit s
  | .putbyte => Sys2Proof.Machine.execPutbyte s
  | .putint => Sys2Proof.Machine.execPutint s
  | .flush => Sys2Proof.Machine.execFlush s
  | .oclr => Sys2Proof.Machine.execOclr s
  | .getbit => Sys2Proof.Machine.execGetbit s
  | .getbyte => Sys2Proof.Machine.execGetbyte s
  | .getint => Sys2Proof.Machine.execGetint s
  | .irewind => Sys2Proof.Machine.execIrewind s
  -- 45_header.md
  | .wrhdr => Sys2Proof.Machine.execWrhdr s
  | .rdhdr => Sys2Proof.Machine.execRdhdr s

end Sys2Proof.Machine
end

