-- ==== Sys2Proof/Machine/HostPort.lean ====
section
/-! DEFINITION. The host port: the register map (10_state.md R22 to R38), the windows (20_memory.md R61 to R65), the
`BUSY` hazards (R29, R301) and the reset input (70_reset_and_hazards.md R290, R291). -/

namespace Sys2Proof.Machine

/-- The four regions of the host address space (R61), with the offset inside the region. -/
inductive Region where
  | registers (offset : Nat)
  | inputWindow (k : Nat)
  | outputWindow (k : Nat)
  | reserved
  deriving DecidableEq, Repr

/-- The region of an address (R61). -/
def regionOf (a : Addr) : Region :=
  if a.toNat < 0x10000 then .registers a.toNat
  else if a.toNat < 0x20000 then .inputWindow (a.toNat - 0x10000)
  else if a.toNat < 0x30000 then .outputWindow (a.toNat - 0x20000)
  else .reserved

/-- The value of the register at an offset (R22); reserved offsets read 0 (R38). -/
def readRegister (offset : Nat) (s : State) : Word :=
  match offset with
  | 0x000 => 0
  | 0x004 => s.arg
  | 0x008 => statusWord s
  | 0x00C => s.result
  | 0x010 => s.total
  | 0x014 => s.ilen
  | 0x018 => s.ipos
  | 0x01C => s.olen
  | 0x020 => obitsWord s
  | 0x024 => configWord s.cfg
  | 0x028 => ibufszWord s.cfg
  | 0x02C => obufszWord s.cfg
  | _ => 0

/-- Byte `lane` of a word, lane 0 in bits 7:0 (R65). -/
def laneOf (w : Word) (lane : Nat) : Byte := w.extractLsb' (8 * lane) 8

/-- The word an unspecified read returns in state `s`: a free value (R64, R301; log 5). -/
def unspecifiedWord (s : State) : Word := Config.freeWord s.draws

/-- The byte the input window shows at index `k` (R63). -/
def inputWindowByte (s : State) (k : Nat) : Byte := if k < s.cfg.ibufSize then inByte s k else 0

/-- The byte the output window shows at index `k`, in data lane `lane` (R64). -/
def outputWindowByte (s : State) (k lane : Nat) : Byte :=
  if k < s.olen.toNat then outByte s k
  else if k < s.cfg.obufSize then laneOf (unspecifiedWord s) lane
  else 0

/-- The data of a window read: one byte zero-extended, or four bytes with byte `4j` in bits 7:0 (R65). -/
def windowData (w : Width) (byteOf : (k lane : Nat) → Byte) (k : Nat) : Word :=
  match w with
  | .w8 => (byteOf k 0).setWidth 32
  | .w32 => wordOfBytes (byteOf (k + 3) 3) (byteOf (k + 2) 2) (byteOf (k + 1) 1) (byteOf k 0)

/-- An unspecified value of the width of the access (log 5). -/
def unspecifiedData (w : Width) (s : State) : Word := windowData w (fun _ lane => laneOf (unspecifiedWord s) lane) 0

/-- The data of an admitted read while the block is not busy. -/
def readIdle (w : Width) (a : Addr) (s : State) : Word :=
  match regionOf a with
  | .registers offset => readRegister offset s
  | .inputWindow k => windowData w (fun k _ => inputWindowByte s k) k
  | .outputWindow k => windowData w (outputWindowByte s) k
  | .reserved => 0

/-- The address of `STATUS` (R22). -/
def statusAddr : Addr := 0x008

/-- The data of an admitted read: "A `STATUS` read is always valid", and any other read while `BUSY = 1` returns an
unspecified value (R71, R301). -/
def readPort (w : Width) (a : Addr) (s : State) : Word :=
  if s.busy = true ∧ a ≠ statusAddr then unspecifiedData w s else readIdle w a s

/-- An accepted `CMD` write latches the command and sets `BUSY` (R23). -/
def latchCommand (d : Word) (s : State) : State := { s with pending := some d, busy := true }

/-- An `ILEN` write: ignored above `IBUF_SIZE`, else it also clears `IPOS` (R33). -/
def writeIlen (d : Word) (s : State) : State :=
  if d.toNat ≤ s.cfg.ibufSize then { s with ilen := d, ipos := 0 } else s

/-- An `IPOS` write: ignored above `8 * ILEN` (R34). -/
def writeIpos (d : Word) (s : State) : State := if d.toNat ≤ 8 * s.ilen.toNat then { s with ipos := d } else s

/-- A register write while `BUSY = 0` (R22 to R25, R33, R34, R38). -/
def writeRegister (offset : Nat) (d : Word) (s : State) : State :=
  match offset with
  | 0x000 => latchCommand d s
  | 0x004 => { s with arg := d }
  | 0x008 => writeStatus d s
  | 0x014 => writeIlen d s
  | 0x018 => writeIpos d s
  | _ => s

/-- A byte write into the input window while `BUSY = 0` (R63). -/
def writeInputByte (k : Nat) (v : Byte) (s : State) : State :=
  if k < s.cfg.ibufSize then { s with ibuf := Memory.write s.ibuf k v } else s

/-- A write into the input window: one byte, or the four lanes of a word (R63, R65). -/
def writeInputWindow (w : Width) (k : Nat) (d : Word) (s : State) : State :=
  match w with
  | .w8 => writeInputByte k (laneOf d 0) s
  | .w32 =>
    writeInputByte (k + 3) (laneOf d 3)
      (writeInputByte (k + 2) (laneOf d 2) (writeInputByte (k + 1) (laneOf d 1) (writeInputByte k (laneOf d 0) s)))

/-- An admitted write while the block is not busy. -/
def writeIdle (w : Width) (a : Addr) (d : Word) (s : State) : State :=
  match regionOf a with
  | .registers offset => writeRegister offset d s
  | .inputWindow k => writeInputWindow w k d s
  | .outputWindow _ => s
  | .reserved => s

/-- An admitted write: while `BUSY = 1` it only sets `LOST` (R29). -/
def writePort (w : Width) (a : Addr) (d : Word) (s : State) : State :=
  if s.busy = true then { s with lost := true } else writeIdle w a d s

/-! ## Reset -/

/-- Reset is asserted (R290): the block's state is forced to its reset values and a pending command is abandoned.
Parameters (R294), the host and the platform stay. The contents of the buffers are unspecified anew (log 4, 10). -/
def assertReset (s : State) : State :=
  { State.resetWith s.cfg with
    phase := .inReset
    busy := true
    host := s.host
    reads := s.reads
    hostStop := s.hostStop
    sched := s.sched
    draws := s.draws
    gen := s.gen + 1 }

/-- Reset is released: the initialisation period begins, `BUSY` reading 1 (R291). -/
def releaseReset (s : State) : State :=
  match s.phase with
  | .inReset => { s with phase := .initialising, busy := true }
  | .initialising => s
  | .running => s

/-- The initialisation period ends and `BUSY` reads 0 (R291). -/
def endInitialisation (s : State) : State := { s with phase := .running, busy := false }

end Sys2Proof.Machine
end

