-- ==== Sys2Proof/Machine/HostProgram.lean ====
section
/-! DEFINITION. The host agent: host programs and pseudo-instructions (30_encoding.md R98 to R106), and one step of the
host (log 11). -/

namespace Sys2Proof.Machine

/-! ## Straight-line host programs -/

/-- A line `MNEMONIC sym, arg` (R98): the `ARG` write if an argument is given, the `CMD` write, `WAIT`. -/
def line (i : Instr) (arg : Option Word) : List HostOp :=
  (match arg with
    | some v => [.write .w32 0x004 v]
    | none => []) ++ [.write .w32 0x000 (encode i), .wait]

/-- `COUNTS "text"` (R101). -/
def counts (text : List Byte) : List HostOp := text.flatMap (fun c => line (.count c) none ++ [.check])

/-- `ENCODES "text"` (R102). -/
def encodes (text : List Byte) : List HostOp := text.flatMap (fun c => line (.encode c) none ++ [.check])

/-- `COMPRESS "text"` (R103). -/
def compress (text : List Byte) : List HostOp :=
  line .clrf none ++ counts text ++ line .build none ++ [.check] ++ line .wrhdr none ++ [.check] ++
    encodes text ++ line .flush none ++ [.check]

/-- `DECOMPRESS` (R104): the header, then what depends on `TOTAL`. -/
def decompress : List HostOp := line .rdhdr none ++ [.check, .decodeTotal]

/-- The byte writes of `LOADIN` into the input window from index `k` on (R105). -/
def loadBytes : List Byte → (k : Nat) → List HostOp
  | [], _ => []
  | b :: bs, k => .write .w8 (BitVec.ofNat 18 (0x10000 + k)) (b.setWidth 32) :: loadBytes bs (k + 1)

/-- `LOADIN bytes` (R105). -/
def loadIn (bytes : List Byte) : List HostOp :=
  loadBytes bytes 0 ++ [.write .w32 0x014 (BitVec.ofNat 32 bytes.length)]

/-- `READOUT` (R106). -/
def readOut : List HostOp := [.readout]

/-! ## A step of the host -/

/-- What a read transaction leaves: its data recorded and one draw used (R71, R72; log 5). -/
def recordRead (v : Word) (s : State) : State := { s with reads := v :: s.reads, draws := s.draws + 1 }

/-- A read the host program uses itself: its data is not recorded, one draw is used. -/
def useRead (s : State) : State := { s with draws := s.draws + 1 }

/-- A read transaction (R60); one R62 does not admit is refused. -/
def hostRead (w : Width) (a : Addr) (s : State) : Out :=
  if admitted w a then .next (recordRead (readPort w a s) s) else .refused .notAdmitted

/-- A write transaction (R60); one R62 does not admit is refused. -/
def hostWrite (w : Width) (a : Addr) (d : Word) (s : State) : Out :=
  if admitted w a then .next (writePort w a d s) else .refused .notAdmitted

/-- Put operations before the rest of the host program. -/
def pushHost (ops : List HostOp) (s : State) : State := { s with host := ops ++ s.host }

/-- `CHECK` (R100) on a `STATUS` value: with a nonzero `ERRCODE` the host program stops with that code. -/
def hostCheck (status : Word) (s : State) : State :=
  if status.extractLsb' 8 8 = 0 then s else { s with host := [], hostStop := some (status.extractLsb' 8 8) }

/-- One operation of the host program, already removed from it. -/
def hostOp (op : HostOp) (s : State) : Out :=
  match op with
  | .read w a => hostRead w a s
  | .write w a d => hostWrite w a d s
  | .wait => .next (if (readPort .w32 statusAddr s).getLsbD 0 then pushHost [.wait] s else s)
  | .check => .next (hostCheck (readPort .w32 statusAddr s) s)
  | .readout => .next (pushHost [.readBytes 0 (readPort .w32 0x01C s).toNat] (useRead s))
  | .readBytes _ 0 => .next s
  | .readBytes k (n + 1) => hostRead .w8 (BitVec.ofNat 18 (0x20000 + k)) (pushHost [.readBytes (k + 1) n] s)
  | .decodeTotal =>
    .next (if readPort .w32 0x010 s = 0 then useRead s
      else pushHost (line .build none ++ [.check, .decodeLoop (readPort .w32 0x010 s).toNat]) (useRead s))
  | .decodeLoop 0 => .next s
  | .decodeLoop (n + 1) =>
    .next (pushHost (line .decode none ++ [.check, .read .w32 0x00C, .decodeLoop n]) s)

/-- The host's move: its next operation, if it has one. While reset is asserted it is refused. For an operation that
accesses the port that is R290's; the spec does not speak of an operation that makes no access (`readBytes k 0`,
`decodeLoop n`), and that it is refused with the others is DESIGN CHOICE (log 7). Safe. -/
def hostStep (s : State) : Out :=
  match s.host with
  | [] => .next s
  | op :: rest => if s.phase = .inReset then .refused .accessDuringReset else hostOp op { s with host := rest }

end Sys2Proof.Machine
end

