-- ==== Sys2Proof/Machine/Engine.lean ====
section
/-! DEFINITION. The engine's execution step (60_exceptions.md R260) and the order in which the agents move
(20_memory.md R74, R75; log 3). -/

namespace Sys2Proof.Machine

/-- `Execute(w)` (R260): an illegal word is `raise Error(ILLEGAL_CMD)` (R96), a legal one runs its command. -/
def execute (w : Word) (s : State) : Out :=
  match decode w with
  | .ok i => exec i s
  | .error _ => raiseError .illegalCmd s

/-- The block's own move: the end of the initialisation period (R291), or the execution step, enabled exactly when
`BUSY = 1` with a pending command (R260); else nothing. -/
def engineStep (s : State) : Out :=
  match s.phase with
  | .inReset => .next s
  | .initialising => .next (endInitialisation s)
  | .running =>
    match s.busy, s.pending with
    | true, some w => execute w s
    | true, none => .next s
    | false, _ => .next s

/-- The block has a move of its own: R260's condition, or the initialisation period. -/
def engineReady (s : State) : Bool :=
  match s.phase with
  | .inReset => false
  | .initialising => true
  | .running => s.busy && s.pending.isSome

/-- The move of one turn. -/
def takeTurn (t : Turn) (s : State) : Out :=
  match t with
  | .engine => engineStep s
  | .host => hostStep s
  | .assertReset => .next (assertReset s)
  | .releaseReset => .next (releaseReset s)

/-- The next move: the first turn of the schedule; with none left the engine goes whenever it can, else the host, and
with nothing to do the machine idles (R75, R274). -/
def nextMove (s : State) : Out :=
  match s.sched with
  | t :: rest => takeTurn t { s with sched := rest }
  | [] => if engineReady s then engineStep s else hostStep s

/-- The state in which the word `w` is the accepted command the engine executes next (R23; log 2). -/
def placeCommand (w : Word) (s : State) : State := latchCommand w { s with phase := .running, sched := [] }

end Sys2Proof.Machine
end

