-- ==== Sys2Proof/Machine/Step.lean ====
section
/-! DEFINITION. One step of the machine, and how a command word is placed so that the very next step runs it. -/

namespace Sys2Proof.Machine

/-- One step: one move of one agent (00_scope.md R7, 20_memory.md R74). -/
def step (s : State) : Host.Outcome State Fault Refusal := nextMove s

/-- The block fetches nothing (10_state.md R21): a command comes from an accepted `CMD` write (R23), for which this
stands (log 2). -/
def State.withFetchWord (s : State) (nbits w : Nat) : State := placeCommand (BitVec.ofNat 32 (w % 2 ^ nbits)) s

end Sys2Proof.Machine
end

