-- ==== Sys2Proof/Safety.lean ====
section
/-! DEFINITION. What claims are stated in: how a command ends, the streams as bit strings (44_bitstream.md R200, R209),
the codes of a held tree (42_tree_build.md R153), the invariants (10_state.md R47, R48) and what a safe run is. -/

namespace Sys2Proof.Safety

open Sys2Proof.Machine

/-! ## The end of a command -/

/-- State `s` with the writes of the execution step around a body (60_exceptions.md R260). -/
def ended (e : ErrCode) (s : State) : State := { s with errcode := e, pending := none, busy := false }

/-- Command `i` begun in `s` fails with code `e`: `ERRCODE` and the end of the command are all that changes (R11, R262). -/
def Fails (i : Instr) (s : State) (e : ErrCode) : Prop := exec i s = .next (ended e s)

/-- Command `i` begun in `s` succeeds, its body's writes giving `t` (R260). -/
def Succeeds (i : Instr) (s t : State) : Prop := exec i s = .next (ended .ok t)

/-! ## Classes of commands the prose names -/

/-- The format N opcodes of R95. -/
def formatNOpcodes : List Byte :=
  [0x00, 0x01, 0x05, 0x10, 0x13, 0x20, 0x21, 0x22, 0x23, 0x24, 0x28, 0x29, 0x2A, 0x2B, 0x30, 0x31]

/-- The format S opcodes of R95. -/
def formatSOpcodes : List Byte := [0x02, 0x03, 0x04, 0x11, 0x12]

/-- The commands that write `RESULT` when they succeed (10_state.md R30). -/
def writesResult : Instr → Bool
  | .getf _ => true
  | .build => true
  | .codelen _ => true
  | .encode _ => true
  | .decode => true
  | .getbit => true
  | .getbyte => true
  | .getint => true
  | _ => false

/-- The commands that change the frequency table when they succeed (10_state.md R28). -/
def changesTable : Instr → Bool
  | .clrf => true
  | .setf _ => true
  | .count _ => true
  | .rdhdr => true
  | _ => false

/-- The commands that need a held tree (10_state.md R28). -/
def needsTree : Instr → Bool
  | .codelen _ => true
  | .encode _ => true
  | .decode => true
  | _ => false

/-! ## The streams -/

/-- The bits of a stream byte, first bit first (20_memory.md R67). -/
def byteBits (o : BitOrder) (v : Byte) : List Bool := (List.range 8).map (fun k => v.getLsbD (bitPos o k))

/-- The completed output bytes, in order (10_state.md R35). -/
def outBytes (s : State) : List Byte := (List.range s.olen.toNat).map (outByte s)

/-- The stream written so far (44_bitstream.md R200). -/
def writerBits (s : State) : List Bool :=
  (outBytes s).flatMap (byteBits s.cfg.bitOrder) ++
    (List.range s.onbits.toNat).map (fun k => s.oacc.getLsbD (bitPos s.cfg.bitOrder k))

/-- The `n` input bits from stream bit number `p` on (R209). -/
def inputBits (s : State) (p n : Nat) : List Bool := (List.range n).map (fun k => readBitAt s (p + k))

/-- How many bytes command `i` completes in `OBUF` when it succeeds in `s` (R172, R203 to R207, R240). -/
def storedBytes (i : Instr) (s : State) : Nat :=
  match i with
  | .putbit => (s.onbits.toNat + 1) / 8
  | .putbyte => 1
  | .putint => 4
  | .flush => if s.onbits = 0 then 0 else 1
  | .encode sym =>
    match leafAt s.leafIdx sym with
    | none => 0
    | some i =>
      match pathOf s i with
      | none => 0
      | some path => (s.onbits.toNat + path.length) / 8
  | .wrhdr => HDRBYTES
  | _ => 0

/-! ## The held tree -/

/-- `Code(i)` of R153: the bits along the path from `ROOT` to slot `i`, 0 for a left edge and 1 for a right edge. -/
inductive CodeOf (s : State) : Slot → List Bool → Prop where
  | root : CodeOf s s.root []
  | left {p l r : Slot} {c : List Bool} : CodeOf s p c → (nodeAt s.nodes p).body = .internal l r →
      CodeOf s l (c ++ [false])
  | right {p l r : Slot} {c : List Bool} : CodeOf s p c → (nodeAt s.nodes p).body = .internal l r →
      CodeOf s r (c ++ [true])

/-- `key(i) < key(j)` of R142: the smaller count, and at equal counts the smaller index. -/
def KeyBefore (ar : Arena) (i j : Slot) : Prop :=
  (nodeAt ar i).count < (nodeAt ar j).count ∨ ((nodeAt ar i).count = (nodeAt ar j).count ∧ i < j)

/-- Slot `j` is live when the merge that makes slot `m` begins (R146, R150): it is older than `m` and no slot older than
`m` has it as a child. -/
def LiveAt (ar : Arena) (m j : Slot) : Prop :=
  j < m ∧ ∀ p l r, p < m → (nodeAt ar p).body = .internal l r → j ≠ l ∧ j ≠ r

/-- The tree invariants of R48, with the arena layout of R144, R145 and R147. The held slots are those up to `ROOT`,
the last slot a `BUILD` writes. -/
structure HeldTree (s : State) : Prop where
  /-- A leaf has the frequency of its symbol, which is not 0, and is the one leaf of that symbol. -/
  leaf : ∀ i sym, i ≤ s.root → (nodeAt s.nodes i).body = .leaf sym →
    (nodeAt s.nodes i).count = (freqAt s.freq sym).toNat ∧ freqAt s.freq sym ≠ 0 ∧
      leafAt s.leafIdx sym = some i ∧ i.val < s.nleaf.toNat
  /-- Every symbol with nonzero frequency has a leaf. -/
  hasLeaf : ∀ sym, freqAt s.freq sym ≠ 0 →
    ∃ i, leafAt s.leafIdx sym = some i ∧ i ≤ s.root ∧ (nodeAt s.nodes i).body = .leaf sym
  /-- No other symbol has one. -/
  noLeaf : ∀ sym, freqAt s.freq sym = 0 → leafAt s.leafIdx sym = none
  /-- An internal node has two distinct children that name it as parent, older than it, and the sum of their counts. -/
  internal : ∀ m l r, m ≤ s.root → (nodeAt s.nodes m).body = .internal l r →
    l < m ∧ r < m ∧ l ≠ r ∧ (nodeAt s.nodes l).parent = some m ∧ (nodeAt s.nodes r).parent = some m ∧
      (nodeAt s.nodes m).count = (nodeAt s.nodes l).count + (nodeAt s.nodes r).count ∧ s.nleaf.toNat ≤ m.val
  /-- A parent reference names an internal node that has the slot as a child. -/
  parent : ∀ i p, i ≤ s.root → (nodeAt s.nodes i).parent = some p →
    p ≤ s.root ∧ ∃ l r, (nodeAt s.nodes p).body = .internal l r ∧ (i = l ∨ i = r)
  /-- The root is the one held slot without a parent. -/
  top : ∀ i, i ≤ s.root → ((nodeAt s.nodes i).parent = none ↔ i = s.root)
  /-- A dummy stands only in the one-symbol tree of `ONE_BIT` mode, with count 0. -/
  dummy : ∀ i, i ≤ s.root → (nodeAt s.nodes i).body = .dummy →
    (nodeAt s.nodes i).count = 0 ∧ s.cfg.singleMode = .oneBit ∧ s.nleaf = 1
  /-- `NLEAF` is the number of symbols with nonzero frequency, and `ROOT` the slot R147 or R150 gives. -/
  size : s.nleaf.toNat = (alphabet s.freq).length ∧ 1 ≤ (alphabet s.freq).length ∧
    s.root = rootOf s.cfg (alphabet s.freq).length

/-! ## The invariants -/

/-- R47, with the parameter ranges of R5. `ONBITS <= 7` holds by its type. -/
structure StreamInv (s : State) : Prop where
  cfg : s.cfg.wf = true
  ilen : s.ilen.toNat ≤ s.cfg.ibufSize
  ipos : s.ipos.toNat ≤ 8 * s.ilen.toNat
  olen : s.olen.toNat ≤ s.cfg.obufSize
  /-- Bit positions of `OACC` not yet written hold 0. -/
  oacc : ∀ k, s.onbits.toNat ≤ k → k < 8 → s.oacc.getLsbD (bitPos s.cfg.bitOrder k) = false

/-- The buffers keep their canonical form, list only indices they have (R43, R44), and every completed output byte has
been written (R35). -/
structure BufferInv (s : State) : Prop where
  inCanonical : Memory.wf s.ibuf
  outCanonical : Memory.wf s.obuf
  inRange : ∀ c ∈ s.ibuf, c.1 < s.cfg.ibufSize
  outRange : ∀ c ∈ s.obuf, c.1 < s.cfg.obufSize
  completed : ∀ k, k < s.olen.toNat → (Memory.read? s.obuf k).isSome = true

/-- R48: when `TREE_VALID = 1` a tree of the current frequency table is held. -/
def TreeInv (s : State) : Prop := s.treeValid = true → HeldTree s

/-- The handshake of R23, R26, R290 and R291: while the block runs, `BUSY = 1` exactly when a command is pending; outside
it `BUSY` reads 1 and no command is pending. -/
def BusyInv (s : State) : Prop :=
  (s.phase = .running → (s.busy = true ↔ s.pending.isSome = true)) ∧
    (s.phase ≠ .running → s.busy = true ∧ s.pending = none)

/-- All the invariants. -/
structure Inv (s : State) : Prop where
  stream : StreamInv s
  buffer : BufferInv s
  tree : TreeInv s
  handshake : BusyInv s

/-! ## Runs -/

/-- A safe run: no number of steps from `s` ends in a fault. A refusal is the host program leaving the admitted subset
(R62, R290), not a failure of the block. -/
def SafeRun (s : State) : Prop := ∀ n f, Host.Core.run Sys2Proof.core n s ≠ .fault f

/-- Run a list of commands, each to its end, as long as each succeeds. -/
def runAll : List Instr → State → Option State
  | [], s => some s
  | i :: is, s =>
    match exec i s with
    | .next t => if t.errcode = .ok then runAll is t else none
    | .fault _ => none
    | .refused _ => none

/-- Issue `n` `DECODE`s, collecting the symbols they return; `none` as soon as one fails (R104). -/
def decodeAll : Nat → State → Option (List Word)
  | 0, _ => some []
  | n + 1, s =>
    match exec .decode s with
    | .next t => if t.errcode = .ok then (decodeAll n t).map (fun rest => t.result :: rest) else none
    | .fault _ => none
    | .refused _ => none

end Sys2Proof.Safety
end

