-- ==== Sys2Proof/Certificates/Slice0/Obligations.lean ====
section
/-! DEFINITION. The statements for the provers, from the numbered rules of spec/ and whole-machine rules of its prose.
`Succeeds`, `Fails`, `ended` and the stream and tree notions are those of Safety.lean. -/

open Sys2Proof Sys2Proof.Machine Sys2Proof.Safety

/-- Decoding the encoding of a command gives the command back (30_encoding.md, R90, R95, R97). -/
def Obligations.DecodeOfEncode : Prop :=
  ∀ i : Instr, i.wf = true → decode (encode i) = .ok i

/-- A word that decodes is the encoding of its command (30_encoding.md, R92, R96, R97). -/
def Obligations.EncodeOfDecode : Prop :=
  ∀ (w : Word) (i : Instr), decode w = .ok i → encode i = w ∧ i.wf = true

/-- Words written out from the opcode map decode to their commands (30_encoding.md, R95, 95_test_vectors.md). -/
def Obligations.TableWordsDecode : Prop :=
  decode 0x00000000 = .ok .nop ∧ decode 0x00006104 = .ok (.count 0x61) ∧ decode 0x0000FF04 = .ok (.count 0xFF) ∧
    decode 0x00000010 = .ok .build ∧ decode 0x00006112 = .ok (.encode 0x61) ∧ decode 0x00000022 = .ok .putint ∧
    decode 0x0000002B = .ok .irewind ∧ decode 0x00000031 = .ok .rdhdr

/-- A word is illegal exactly as R96 says, and executes as ILLEGAL_CMD (30_encoding.md, R96). The model's own choices
in it: log 3. -/
def Obligations.IllegalWordRaisesIllegalCmd : Prop :=
  ∀ w : Word,
    ((∃ r, decode w = .error r) ↔
      opcField w ∉ formatNOpcodes ++ formatSOpcodes ∨ resField w ≠ 0 ∨
        (opcField w ∈ formatNOpcodes ∧ symField w ≠ 0)) ∧
    ((∃ r, decode w = .error r) →
      (∀ s : State, execute w s = .next (ended .illegalCmd s)) ∧
      ∀ s : State, s.phase = .running → s.busy = true → s.pending = some w →
        (s.sched = [] → step s = .next (ended .illegalCmd s)) ∧
        (∀ ts, s.sched = .engine :: ts → step s = .next (ended .illegalCmd { s with sched := ts })))

/-- A step runs the pending command, in the order of the model's schedule (60_exceptions.md, R260). The model's own
choices in it: log 2, log 3. -/
def Obligations.StepRunsDecodedCommand : Prop :=
  (∀ (s : State) (w : Word) (i : Instr), s.phase = .running → s.busy = true → s.pending = some w →
    decode w = .ok i →
      (s.sched = [] → step s = exec i s) ∧
      (∀ ts, s.sched = .engine :: ts → step s = exec i { s with sched := ts })) ∧
    (∀ (s : State) (w : Nat) (i : Instr), decodeTableWord 32 w = some i →
      step (s.withFetchWord 32 w) = exec i (s.withFetchWord 32 w))

/-- A failing command changes nothing but ERRCODE and the end of the command (R262). -/
def Obligations.FailedCommandChangesOnlyErrcode : Prop :=
  ∀ (i : Instr) (s t : State), exec i s = .next t → t.errcode ≠ .ok → t = ended t.errcode s

/-- No command writes ARG, ILEN, IBUF, LOST, the parameters or anything of the host (R24, R29, R33, R43, R69). -/
def Obligations.CommandsLeaveHostSide : Prop :=
  ∀ (i : Instr) (s t : State), exec i s = .next t →
    t.arg = s.arg ∧ t.ilen = s.ilen ∧ t.ibuf = s.ibuf ∧ t.lost = s.lost ∧ t.cfg = s.cfg ∧ t.phase = s.phase ∧
      t.host = s.host ∧ t.reads = s.reads ∧ t.hostStop = s.hostStop ∧ t.sched = s.sched ∧ t.draws = s.draws ∧
      t.gen = s.gen ∧ t.busy = false ∧ t.pending = none

/-- RESULT is written only by a successful command of eight (R30, 10_state.md). -/
def Obligations.OnlyEightCommandsWriteResult : Prop :=
  ∀ (i : Instr) (s t : State), exec i s = .next t → (t.errcode ≠ .ok ∨ writesResult i = false) →
    t.result = s.result

/-- TREE_VALID is set by BUILD, cleared by table changes and reset, and gates three commands (R28). -/
def Obligations.TreeValidFollowsTable : Prop :=
  (∀ (i : Instr) (s t : State), exec i s = .next t →
    t.treeValid =
      if t.errcode ≠ .ok then s.treeValid
      else if i = .build then true
      else if changesTable i then false
      else s.treeValid) ∧
    (∀ s : State, (assertReset s).treeValid = false) ∧
    (∀ (i : Instr) (s : State), needsTree i = true → s.treeValid = false → Fails i s .noTree)

/-- The values R49 gives after reset (R49, R292, 70_reset_and_hazards.md). The model's own choices in it: log 1. -/
def Obligations.ResetValues : Prop :=
  (∀ cfg : Config,
    (State.resetWith cfg).cfg = cfg ∧ (State.resetWith cfg).phase = .running ∧ (State.resetWith cfg).busy = false ∧
    (State.resetWith cfg).pending = none ∧ statusWord (State.resetWith cfg) = 0 ∧ (State.resetWith cfg).arg = 0 ∧
    (State.resetWith cfg).result = 0 ∧ (State.resetWith cfg).total = 0 ∧ (State.resetWith cfg).ilen = 0 ∧
    (State.resetWith cfg).ipos = 0 ∧ (State.resetWith cfg).olen = 0 ∧ obitsWord (State.resetWith cfg) = 0 ∧
    ∀ sym, freqAt (State.resetWith cfg).freq sym = 0) ∧
    State.reset = State.resetWith Config.default

/-- Every instance meets the invariants right after reset (R47, R48, R49, R5). -/
def Obligations.ResetMeetsInvariants : Prop :=
  Config.default.wf = true ∧ ∀ cfg : Config, cfg.wf = true → Inv (State.resetWith cfg)

/-- Asserting reset, releasing it and the initialisation period lead to the reset state (R290, R291, R294). The
model's own choices in it: log 7, log 10. -/
def Obligations.ResetSequence : Prop :=
  ∀ s : State,
    (s.sched = [.assertReset, .releaseReset, .engine] →
      Host.Core.run Sys2Proof.core 3 s =
        .next { State.resetWith s.cfg with host := s.host, reads := s.reads, hostStop := s.hostStop,
                                           draws := s.draws, gen := s.gen + 1 }) ∧
    (s.phase = .inReset → s.host ≠ [] → hostStep s = .refused .accessDuringReset)

/-- Every step keeps the stream invariant R47 (R47). -/
def Obligations.StepKeepsStreamInvariant : Prop :=
  ∀ s t : State, StreamInv s → step s = .next t → StreamInv t

/-- Every step keeps the buffers canonical, in range, and written below OLEN (R35, R43, R44, R63, R201). The model's
own choices in it: log 4. -/
def Obligations.StepKeepsBufferInvariant : Prop :=
  ∀ s t : State, StreamInv s → BufferInv s → step s = .next t → BufferInv t

/-- Every step keeps the tree invariant R48 (R48). -/
def Obligations.StepKeepsTreeInvariant : Prop :=
  ∀ s t : State, TreeInv s → step s = .next t → TreeInv t

/-- Every step keeps the handshake between BUSY and the pending command, BUSY being 1 in reset by the model's choice
(R23, R26, R291, 70_reset_and_hazards.md). The model's own choices in it: log 10. -/
def Obligations.StepKeepsHandshake : Prop :=
  ∀ s t : State, BusyInv s → step s = .next t → BusyInv t

/-- No run from a state that meets the invariants ends in a fault (R48, R75, R149, R170). -/
def Obligations.NoRunFaults : Prop :=
  ∀ s : State, Inv s → SafeRun s

/-- NOP, and no other command, has no effect but ERRCODE <- 0 (R120). -/
def Obligations.NopClearsErrcode : Prop :=
  (∀ w, decode w = .ok .nop ↔ w = 0x00000000) ∧ (∀ s : State, Succeeds .nop s s) ∧
    ∀ i : Instr, (∀ s : State, Succeeds i s s) → i = .nop

/-- CLRF clears the table, TOTAL and the tree, and BUILD then fails (R121). -/
def Obligations.ClrfClearsTable : Prop :=
  (∀ w, decode w = .ok .clrf ↔ w = 0x00000001) ∧
    ∀ s : State, ∃ t, Succeeds .clrf s t ∧ t = { s with freq := t.freq, total := 0, treeValid := false } ∧
      (∀ sym, freqAt t.freq sym = 0) ∧ Fails .build (ended .ok t) .emptyAlphabet

/-- SETF writes ARG to one entry and invalidates the tree (R122). -/
def Obligations.SetfWritesOneEntry : Prop :=
  (∀ (w : Word) (sym : Byte), decode w = .ok (.setf sym) ↔ w = BitVec.ofNat 32 (0x02 + 0x100 * sym.toNat)) ∧
    ∀ (s : State) (sym : Byte), ∃ t, Succeeds (.setf sym) s t ∧
      t = { s with freq := t.freq, treeValid := false } ∧ freqAt t.freq sym = s.arg ∧
      ∀ other, other ≠ sym → freqAt t.freq other = freqAt s.freq other

/-- GETF reads one entry into RESULT (R123). -/
def Obligations.GetfReadsOneEntry : Prop :=
  (∀ (w : Word) (sym : Byte), decode w = .ok (.getf sym) ↔ w = BitVec.ofNat 32 (0x03 + 0x100 * sym.toNat)) ∧
    ∀ (s : State) (sym : Byte), Succeeds (.getf sym) s { s with result := freqAt s.freq sym }

/-- COUNT increments one entry and TOTAL, or fails without wrapping (R124). -/
def Obligations.CountIncrementsOrOverflows : Prop :=
  (∀ (w : Word) (sym : Byte), decode w = .ok (.count sym) ↔ w = BitVec.ofNat 32 (0x04 + 0x100 * sym.toNat)) ∧
    ∀ (s : State) (sym : Byte),
      ((freqAt s.freq sym = 0xFFFFFFFF ∨ s.total = 0xFFFFFFFF) → Fails (.count sym) s .overflow) ∧
      (freqAt s.freq sym ≠ 0xFFFFFFFF → s.total ≠ 0xFFFFFFFF →
        ∃ t, Succeeds (.count sym) s t ∧
          t = { s with freq := t.freq, total := s.total + 1, treeValid := false } ∧
          (freqAt t.freq sym).toNat = (freqAt s.freq sym).toNat + 1 ∧ t.total.toNat = s.total.toNat + 1 ∧
          ∀ other, other ≠ sym → freqAt t.freq other = freqAt s.freq other)

/-- SETT writes ARG to TOTAL and keeps the tree (R125). -/
def Obligations.SettWritesTotal : Prop :=
  (∀ w, decode w = .ok .sett ↔ w = 0x00000005) ∧ ∀ s : State, Succeeds .sett s { s with total := s.arg }

/-- CLRF and a COUNT per byte give the frequency table of the sequence (R126). -/
def Obligations.CountingPass : Prop :=
  ∀ (s : State) (text : List Byte), text.length < 2 ^ 32 →
    ∃ t, runAll (.clrf :: text.map .count) s = some t ∧
      (∀ sym, (freqAt t.freq sym).toNat = text.count sym) ∧ t.total.toNat = text.length ∧
      ∀ other : List Byte, other.Perm text →
        ∃ u, runAll (.clrf :: other.map .count) s = some u ∧ u.freq = t.freq ∧ u.total = t.total

/-- PickMin returns the live slot with the smallest key (count, index) (R143). -/
def Obligations.PickMinTakesLeastKey : Prop :=
  (∀ (ar : Arena) (live : List Slot), live ≠ [] →
    ∃ i, pickMin ar live = some i ∧ i ∈ live ∧
      ∀ j, j ∈ live → j ≠ i →
        (nodeAt ar i).count < (nodeAt ar j).count ∨ ((nodeAt ar i).count = (nodeAt ar j).count ∧ i < j)) ∧
    (∀ (ar ar' : Arena) (live : List Slot), (∀ i, i ∈ live → (nodeAt ar i).count = (nodeAt ar' i).count) →
      pickMin ar live = pickMin ar' live)

/-- One merge step joins the two highest-priority nodes (R146). -/
def Obligations.MergeStepJoinsTwoLeast : Prop :=
  ∀ (fs : FirstSlot) (m : Slot) (ar : Arena) (live : List Slot), live.Nodup → 2 ≤ live.length → m ∉ live →
    ∃ a b : Slot, pickMin ar live = some a ∧ pickMin ar (live.erase a) = some b ∧ a ≠ b ∧
      (mergeOnce fs m ar live).2 = (live.erase a).erase b ++ [m] ∧
      nodeAt (mergeOnce fs m ar live).1 m =
        { body := (match fs with | .left => .internal a b | .right => .internal b a)
          count := (nodeAt ar a).count + (nodeAt ar b).count
          parent := none } ∧
      nodeAt (mergeOnce fs m ar live).1 a = { nodeAt ar a with parent := some m } ∧
      nodeAt (mergeOnce fs m ar live).1 b = { nodeAt ar b with parent := some m } ∧
      ∀ i, i ≠ m → i ≠ a → i ≠ b → nodeAt (mergeOnce fs m ar live).1 i = nodeAt ar i

/-- BUILD completes with the tree of R150, each merge joining the two slots of least key, or fails as R150 says
(R150). -/
def Obligations.BuildMakesHeldTree : Prop :=
  (∀ w, decode w = .ok .build ↔ w = 0x00000010) ∧
    ∀ s : State,
      ((∀ sym, freqAt s.freq sym = 0) → Fails .build s .emptyAlphabet) ∧
      ((alphabet s.freq).length = 1 → s.cfg.singleMode = .reject → Fails .build s .singleSymbol) ∧
      ((∃ sym, freqAt s.freq sym ≠ 0) → ((alphabet s.freq).length ≠ 1 ∨ s.cfg.singleMode ≠ .reject) →
        ∃ t, Succeeds .build s t ∧ HeldTree t ∧
          t = { s with nodes := t.nodes, root := t.root, nleaf := t.nleaf, leafIdx := t.leafIdx,
                       treeValid := true, result := BitVec.ofNat 32 (alphabet s.freq).length } ∧
          (∀ i, t.root < i → nodeAt t.nodes i = nodeAt s.nodes i) ∧
          (2 ≤ (alphabet s.freq).length →
            t.root.val = 2 * (alphabet s.freq).length - 2 ∧
            ∀ m : Slot, (alphabet s.freq).length ≤ m.val → m ≤ t.root →
              ∃ a b : Slot,
                (nodeAt t.nodes m).body =
                  (match s.cfg.firstSlot with | .left => .internal a b | .right => .internal b a) ∧
                LiveAt t.nodes m a ∧ LiveAt t.nodes m b ∧ a ≠ b ∧
                (∀ j, LiveAt t.nodes m j → j ≠ a → KeyBefore t.nodes a j) ∧
                (∀ j, LiveAt t.nodes m j → j ≠ a → j ≠ b → KeyBefore t.nodes b j)))

/-- BUILD places the leaves in ascending symbol order from slot 0 (R144). -/
def Obligations.BuildPlacesLeaves : Prop :=
  ∀ s t : State, Succeeds .build s t →
    (alphabet s.freq).Pairwise (fun a b => a.toNat < b.toNat) ∧
      (∀ sym, sym ∈ alphabet s.freq ↔ freqAt s.freq sym ≠ 0) ∧
      (∀ k sym, (alphabet s.freq)[k]? = some sym →
        (slotOf k).val = k ∧ (nodeAt t.nodes (slotOf k)).body = .leaf sym ∧
          (nodeAt t.nodes (slotOf k)).count = (freqAt s.freq sym).toNat ∧ leafAt t.leafIdx sym = some (slotOf k)) ∧
      (∀ sym, freqAt s.freq sym = 0 → leafAt t.leafIdx sym = none)

/-- A one-symbol table is built as SINGLE_MODE says (R147). -/
def Obligations.SingleSymbolTree : Prop :=
  ∀ (s : State) (sym : Byte), alphabet s.freq = [sym] →
    (s.cfg.singleMode = .oneBit →
      ∃ t, Succeeds .build s t ∧ t.root = 2 ∧
        nodeAt t.nodes 0 = { body := .leaf sym, count := (freqAt s.freq sym).toNat, parent := some 2 } ∧
        nodeAt t.nodes 1 = { body := .dummy, count := 0, parent := some 2 } ∧
        nodeAt t.nodes 2 = { body := .internal 0 1, count := (freqAt s.freq sym).toNat, parent := none } ∧
        leafAt t.leafIdx sym = some 0 ∧ CodeOf t 0 [false]) ∧
    (s.cfg.singleMode = .zeroBit →
      ∃ t, Succeeds .build s t ∧ t.root = 0 ∧
        nodeAt t.nodes 0 = { body := .leaf sym, count := (freqAt s.freq sym).toNat, parent := none } ∧
        leafAt t.leafIdx sym = some 0 ∧ CodeOf t 0 []) ∧
    (s.cfg.singleMode = .reject → Fails .build s .singleSymbol)

/-- BUILD is a function of the table, FIRST_SLOT and SINGLE_MODE alone (R152). -/
def Obligations.BuildIsDeterministic : Prop :=
  ∀ s u t v : State, s.freq = u.freq → s.cfg.firstSlot = u.cfg.firstSlot → s.cfg.singleMode = u.cfg.singleMode →
    exec .build s = .next t → exec .build u = .next v →
      t.errcode = v.errcode ∧
      (t.errcode = .ok →
        t.root = v.root ∧ t.nleaf = v.nleaf ∧ t.leafIdx = v.leafIdx ∧
          (∀ i, i ≤ t.root → nodeAt t.nodes i = nodeAt v.nodes i) ∧
          (∀ i c, CodeOf t i c ↔ CodeOf v i c))

/-- PathOf a held leaf is the leaf's one code (R170). -/
def Obligations.PathIsTheCode : Prop :=
  ∀ s : State, HeldTree s →
    (∀ sym, leafAt s.leafIdx sym = none ↔ freqAt s.freq sym = 0) ∧
      ∀ i, i ≤ s.root → ∃ c, pathOf s i = some c ∧ CodeOf s i c ∧ ∀ d, CodeOf s i d → d = c

/-- No leaf's code is a prefix of another leaf's code (R154). -/
def Obligations.PrefixFreeCodes : Prop :=
  ∀ (s : State) (i j : Slot) (c d : List Bool), CodeOf s i c → CodeOf s j d → i ≠ j →
    (∀ l r, (nodeAt s.nodes i).body ≠ .internal l r) → ¬c <+: d

/-- A leaf's code has at most n - 1 bits, and the lengths R149 gives for one symbol (R149). -/
def Obligations.CodeLengthBound : Prop :=
  ∀ (s : State) (i : Slot) (sym : Byte) (c : List Bool), HeldTree s → CodeOf s i c →
    (nodeAt s.nodes i).body = .leaf sym →
      (2 ≤ s.nleaf.toNat → c.length ≤ s.nleaf.toNat - 1) ∧ c.length ≤ 255 ∧
      (s.nleaf.toNat = 1 → s.cfg.singleMode = .oneBit → c.length = 1) ∧
      (s.nleaf.toNat = 1 → s.cfg.singleMode = .zeroBit → c.length = 0)

/-- CODELEN reports the code length, or fails as R171 says (R171). -/
def Obligations.CodelenReportsCodeLength : Prop :=
  (∀ (w : Word) (sym : Byte), decode w = .ok (.codelen sym) ↔ w = BitVec.ofNat 32 (0x11 + 0x100 * sym.toNat)) ∧
    ∀ (s : State) (sym : Byte),
      (s.treeValid = false → Fails (.codelen sym) s .noTree) ∧
      (s.treeValid = true → HeldTree s →
        (freqAt s.freq sym = 0 → Fails (.codelen sym) s .unknownSymbol) ∧
        (freqAt s.freq sym ≠ 0 →
          ∃ i c, leafAt s.leafIdx sym = some i ∧ CodeOf s i c ∧
            Succeeds (.codelen sym) s { s with result := BitVec.ofNat 32 c.length }))

/-- ENCODE appends the symbol's code to the output stream, or fails as R172 says (R172). -/
def Obligations.EncodeWritesTheCode : Prop :=
  (∀ (w : Word) (sym : Byte), decode w = .ok (.encode sym) ↔ w = BitVec.ofNat 32 (0x12 + 0x100 * sym.toNat)) ∧
    ∀ (s : State) (sym : Byte),
      (s.treeValid = false → Fails (.encode sym) s .noTree) ∧
      (s.treeValid = true → HeldTree s →
        (freqAt s.freq sym = 0 → Fails (.encode sym) s .unknownSymbol) ∧
        (freqAt s.freq sym ≠ 0 → s.cfg.wf = true →
          ∃ i c, leafAt s.leafIdx sym = some i ∧ CodeOf s i c ∧
            (s.cfg.obufSize < s.olen.toNat + (s.onbits.toNat + c.length) / 8 → Fails (.encode sym) s .outFull) ∧
            (s.olen.toNat + (s.onbits.toNat + c.length) / 8 ≤ s.cfg.obufSize →
              ∃ t, Succeeds (.encode sym) s t ∧
                t = { s with result := BitVec.ofNat 32 c.length, obuf := t.obuf, olen := t.olen,
                             onbits := t.onbits, oacc := t.oacc } ∧
                writerBits t = writerBits s ++ c)))

/-- DECODE consumes exactly one code, or fails as R173 says (R173). -/
def Obligations.DecodeReadsOneCode : Prop :=
  (∀ w, decode w = .ok .decode ↔ w = 0x00000013) ∧
    ∀ s : State,
      (s.treeValid = false → Fails .decode s .noTree) ∧
      (s.treeValid = true → s.ipos.toNat ≤ 8 * s.ilen.toNat → ∀ (i : Slot) (c : List Bool), CodeOf s i c →
        s.ipos.toNat + c.length ≤ 8 * s.ilen.toNat → inputBits s s.ipos.toNat c.length = c →
          (∀ sym, (nodeAt s.nodes i).body = .leaf sym →
            Succeeds .decode s
              { s with result := sym.setWidth 32, ipos := BitVec.ofNat 32 (s.ipos.toNat + c.length) }) ∧
          ((nodeAt s.nodes i).body = .dummy → Fails .decode s .invalidCode) ∧
          (∀ l r, (nodeAt s.nodes i).body = .internal l r → s.ipos.toNat + c.length = 8 * s.ilen.toNat →
            Fails .decode s .truncated))

/-- DECODE on a held tree always completes: a symbol, TRUNCATED or INVALID_CODE, as the input bits say (R173, R174,
R176). -/
def Obligations.DecodeEndsInOneOfItsWays : Prop :=
  ∀ s : State, s.treeValid = true → StreamInv s → HeldTree s →
    ∃ (i : Slot) (c : List Bool), CodeOf s i c ∧ s.ipos.toNat + c.length ≤ 8 * s.ilen.toNat ∧
      inputBits s s.ipos.toNat c.length = c ∧
      ((∃ sym, (nodeAt s.nodes i).body = .leaf sym ∧
        Succeeds .decode s
          { s with result := sym.setWidth 32, ipos := BitVec.ofNat 32 (s.ipos.toNat + c.length) }) ∨
      (∃ l r, (nodeAt s.nodes i).body = .internal l r ∧ s.ipos.toNat + c.length = 8 * s.ilen.toNat ∧
        Fails .decode s .truncated) ∨
      ((nodeAt s.nodes i).body = .dummy ∧ s.cfg.singleMode = .oneBit ∧ s.nleaf = 1 ∧
        Fails .decode s .invalidCode))

/-- Encoding a sequence and decoding its bytes returns the sequence (R175, R152, R154, R212). -/
def Obligations.EncodeThenDecodeRoundTrip : Prop :=
  ∀ (text : List Byte) (s0 s t u0 u : State), s0.cfg.wf = true → s0.olen = 0 → s0.onbits = 0 →
    exec .build s0 = .next s → s.errcode = .ok → runAll (text.map .encode ++ [.flush]) s = some t →
    u0.cfg = s0.cfg → u0.freq = s0.freq → u0.ipos = 0 → u0.ilen = t.olen →
    (∀ k, k < t.olen.toNat → inByte u0 k = outByte t k) → exec .build u0 = .next u →
      decodeAll text.length u = some (text.map (fun sym => sym.setWidth 32))

/-- PUTBIT appends one bit to the output stream, or fails as R203 says (R203). -/
def Obligations.PutbitAppendsOneBit : Prop :=
  (∀ w, decode w = .ok .putbit ↔ w = 0x00000020) ∧
    ∀ s : State,
      (1 < s.arg.toNat → Fails .putbit s .badArg) ∧
      (s.arg.toNat ≤ 1 → s.cfg.wf = true →
        (s.cfg.obufSize < s.olen.toNat + (s.onbits.toNat + 1) / 8 → Fails .putbit s .outFull) ∧
        (s.olen.toNat + (s.onbits.toNat + 1) / 8 ≤ s.cfg.obufSize →
          ∃ t, Succeeds .putbit s t ∧
            t = { s with obuf := t.obuf, olen := t.olen, onbits := t.onbits, oacc := t.oacc } ∧
            writerBits t = writerBits s ++ [s.arg == 1]))

/-- PUTBYTE appends one byte, or fails as R204 says (R204). -/
def Obligations.PutbyteAppendsOneByte : Prop :=
  (∀ w, decode w = .ok .putbyte ↔ w = 0x00000021) ∧
    ∀ s : State,
      (0xFF < s.arg.toNat → Fails .putbyte s .badArg) ∧
      (s.arg.toNat ≤ 0xFF → s.onbits ≠ 0 → Fails .putbyte s .unaligned) ∧
      (s.arg.toNat ≤ 0xFF → s.onbits = 0 → s.cfg.obufSize < s.olen.toNat + 1 → Fails .putbyte s .outFull) ∧
      (s.arg.toNat ≤ 0xFF → s.onbits = 0 → s.olen.toNat + 1 ≤ s.cfg.obufSize → s.cfg.wf = true →
        ∃ t, Succeeds .putbyte s t ∧ t = { s with obuf := t.obuf, olen := s.olen + 1 } ∧
          outBytes t = outBytes s ++ [BitVec.ofNat 8 s.arg.toNat])

/-- PUTINT appends the four bytes of ARG in INT_ORDER, or fails as R205 says (R205). -/
def Obligations.PutintAppendsFourBytes : Prop :=
  (∀ w, decode w = .ok .putint ↔ w = 0x00000022) ∧
    ∀ s : State,
      (s.onbits ≠ 0 → Fails .putint s .unaligned) ∧
      (s.onbits = 0 → s.cfg.obufSize < s.olen.toNat + 4 → Fails .putint s .outFull) ∧
      (s.onbits = 0 → s.olen.toNat + 4 ≤ s.cfg.obufSize → s.cfg.wf = true →
        ∃ t, Succeeds .putint s t ∧ t = { s with obuf := t.obuf, olen := s.olen + 4 } ∧
          outBytes t = outBytes s ++
            match s.cfg.intOrder with
            | .le => [BitVec.ofNat 8 s.arg.toNat, BitVec.ofNat 8 (s.arg.toNat / 2 ^ 8),
                      BitVec.ofNat 8 (s.arg.toNat / 2 ^ 16), BitVec.ofNat 8 (s.arg.toNat / 2 ^ 24)]
            | .be => [BitVec.ofNat 8 (s.arg.toNat / 2 ^ 24), BitVec.ofNat 8 (s.arg.toNat / 2 ^ 16),
                      BitVec.ofNat 8 (s.arg.toNat / 2 ^ 8), BitVec.ofNat 8 s.arg.toNat])

/-- FLUSH pads and stores a pending partial byte, and nothing otherwise (R207). -/
def Obligations.FlushPadsPartialByte : Prop :=
  (∀ w, decode w = .ok .flush ↔ w = 0x00000023) ∧
    ∀ s : State,
      (s.onbits = 0 → Succeeds .flush s s) ∧
      (s.onbits ≠ 0 → s.cfg.obufSize ≤ s.olen.toNat → Fails .flush s .outFull) ∧
      (s.onbits ≠ 0 → s.olen.toNat < s.cfg.obufSize → s.cfg.wf = true →
        ∃ t, Succeeds .flush s t ∧ t = { s with obuf := t.obuf, olen := s.olen + 1, oacc := 0, onbits := 0 } ∧
          outBytes t = outBytes s ++ [s.oacc] ∧
          (StreamInv s → writerBits t = writerBits s ++ List.replicate (8 - s.onbits.toNat) false))

/-- OCLR drains OBUF and keeps the partial byte (44_bitstream.md, R208, R64). The model's own choices in it: log 5. -/
def Obligations.OclrKeepsPartialByte : Prop :=
  (∀ w, decode w = .ok .oclr ↔ w = 0x00000024) ∧
    ∀ s : State, Succeeds .oclr s { s with olen := 0 } ∧
      ∀ k lane, k < s.cfg.obufSize →
        outputWindowByte { s with olen := 0 } k lane = laneOf (Config.freeWord s.draws) lane

/-- GETBIT reads one bit in BIT_ORDER and advances IPOS by one, or fails with TRUNCATED (R210). -/
def Obligations.GetbitReadsOneBit : Prop :=
  (∀ w, decode w = .ok .getbit ↔ w = 0x00000028) ∧
    ∀ s : State,
      (8 * s.ilen.toNat ≤ s.ipos.toNat → Fails .getbit s .truncated) ∧
      (s.ipos.toNat < 8 * s.ilen.toNat →
        Succeeds .getbit s
          { s with
            ipos := s.ipos + 1
            result :=
              if (inByte s (s.ipos.toNat / 8)).getLsbD
                  (match s.cfg.bitOrder with
                    | .msbFirst => 7 - s.ipos.toNat % 8
                    | .lsbFirst => s.ipos.toNat % 8)
              then 1 else 0 })

/-- GETBYTE reads one byte and advances IPOS by eight, or fails as R213 says (R213). -/
def Obligations.GetbyteReadsOneByte : Prop :=
  (∀ w, decode w = .ok .getbyte ↔ w = 0x00000029) ∧
    ∀ s : State,
      (s.ipos.toNat % 8 ≠ 0 → Fails .getbyte s .unaligned) ∧
      (s.ipos.toNat % 8 = 0 → s.ilen.toNat < s.ipos.toNat / 8 + 1 → Fails .getbyte s .truncated) ∧
      (s.ipos.toNat % 8 = 0 → s.ipos.toNat / 8 + 1 ≤ s.ilen.toNat →
        Succeeds .getbyte s
          { s with ipos := s.ipos + 8, result := (inByte s (s.ipos.toNat / 8)).setWidth 32 })

/-- GETINT reads four bytes in INT_ORDER and advances IPOS by 32, or fails as R214 says (R214). -/
def Obligations.GetintReadsOneInteger : Prop :=
  (∀ w, decode w = .ok .getint ↔ w = 0x0000002A) ∧
    ∀ s : State,
      (s.ipos.toNat % 8 ≠ 0 → Fails .getint s .unaligned) ∧
      (s.ipos.toNat % 8 = 0 → s.ilen.toNat < s.ipos.toNat / 8 + 4 → Fails .getint s .truncated) ∧
      (s.ipos.toNat % 8 = 0 → s.ipos.toNat / 8 + 4 ≤ s.ilen.toNat →
        ∃ v : Word, Succeeds .getint s { s with ipos := s.ipos + 32, result := v } ∧
          v.toNat =
            match s.cfg.intOrder with
            | .le => (inByte s (s.ipos.toNat / 8)).toNat + 2 ^ 8 * (inByte s (s.ipos.toNat / 8 + 1)).toNat +
                2 ^ 16 * (inByte s (s.ipos.toNat / 8 + 2)).toNat + 2 ^ 24 * (inByte s (s.ipos.toNat / 8 + 3)).toNat
            | .be => 2 ^ 24 * (inByte s (s.ipos.toNat / 8)).toNat +
                2 ^ 16 * (inByte s (s.ipos.toNat / 8 + 1)).toNat + 2 ^ 8 * (inByte s (s.ipos.toNat / 8 + 2)).toNat +
                (inByte s (s.ipos.toNat / 8 + 3)).toNat) ∧
      (∀ b0 b1 b2 b3, intToBytes s.cfg.intOrder s.arg = [b0, b1, b2, b3] →
        bytesToInt s.cfg.intOrder b0 b1 b2 b3 = s.arg)

/-- IREWIND sets IPOS to 0, as a host write of 0 does (R215). -/
def Obligations.IrewindClearsIpos : Prop :=
  (∀ w, decode w = .ok .irewind ↔ w = 0x0000002B) ∧
    ∀ s : State, Succeeds .irewind s { s with ipos := 0 } ∧
      (s.busy = false → hostOp (.write .w32 0x018 0) s = .next { s with ipos := 0 })

/-- A command stores only the bytes it completes, from index OLEN on (R44, R201, R202, 44_bitstream.md). -/
def Obligations.WriterStoresOnlyWhereItCompletes : Prop :=
  ∀ (i : Instr) (s t : State), s.cfg.wf = true → exec i s = .next t →
    (∀ k, k < s.olen.toNat ∨ s.olen.toNat + (if t.errcode = .ok then storedBytes i s else 0) ≤ k →
      Memory.read? t.obuf k = Memory.read? s.obuf k ∧ outByte t k = outByte s k) ∧
    (∀ k, inByte t k = inByte s k)

/-- Bytes of IBUF at or above ILEN never affect a command (R211). -/
def Obligations.ReaderIgnoresBytesAboveIlen : Prop :=
  ∀ (i : Instr) (s : State) (m : Memory) (g : Nat),
    (∀ k, k < s.ilen.toNat → inByte { s with ibuf := m, gen := g } k = inByte s k) →
      exec i { s with ibuf := m, gen := g } =
        match exec i s with
        | .next t => .next { t with ibuf := m, gen := g }
        | .fault f => .fault f
        | .refused r => .refused r

/-- WRHDR appends the header, or fails as R240 says (R240). -/
def Obligations.WrhdrWritesHeader : Prop :=
  (∀ w, decode w = .ok .wrhdr ↔ w = 0x00000030) ∧
    ∀ s : State,
      (s.onbits ≠ 0 → Fails .wrhdr s .unaligned) ∧
      (s.onbits = 0 → s.cfg.obufSize < s.olen.toNat + 1028 → Fails .wrhdr s .outFull) ∧
      (s.onbits = 0 → s.olen.toNat + 1028 ≤ s.cfg.obufSize → s.cfg.wf = true →
        ∃ t, Succeeds .wrhdr s t ∧ t = { s with obuf := t.obuf, olen := s.olen + 1028 } ∧
          outBytes t = outBytes s ++ (intToBytes s.cfg.intOrder s.total ++
            (List.range 256).flatMap (fun k => intToBytes s.cfg.intOrder (freqAt s.freq (BitVec.ofNat 8 k)))))

/-- RDHDR reads TOTAL and the table and invalidates the tree, or fails as R241 says (R241). -/
def Obligations.RdhdrReadsHeader : Prop :=
  (∀ w, decode w = .ok .rdhdr ↔ w = 0x00000031) ∧
    ∀ s : State,
      (s.ipos.toNat % 8 ≠ 0 → Fails .rdhdr s .unaligned) ∧
      (s.ipos.toNat % 8 = 0 → s.ilen.toNat < s.ipos.toNat / 8 + 1028 → Fails .rdhdr s .truncated) ∧
      (s.ipos.toNat % 8 = 0 → s.ipos.toNat / 8 + 1028 ≤ s.ilen.toNat →
        ∃ t, Succeeds .rdhdr s t ∧
          t = { s with freq := t.freq, total := t.total, ipos := s.ipos + 8224, treeValid := false } ∧
          t.total = bytesToInt s.cfg.intOrder (inByte s (s.ipos.toNat / 8)) (inByte s (s.ipos.toNat / 8 + 1))
            (inByte s (s.ipos.toNat / 8 + 2)) (inByte s (s.ipos.toNat / 8 + 3)) ∧
          ∀ sym : Byte, freqAt t.freq sym =
            bytesToInt s.cfg.intOrder (inByte s (s.ipos.toNat / 8 + 4 + 4 * sym.toNat))
              (inByte s (s.ipos.toNat / 8 + 4 + 4 * sym.toNat + 1))
              (inByte s (s.ipos.toNat / 8 + 4 + 4 * sym.toNat + 2))
              (inByte s (s.ipos.toNat / 8 + 4 + 4 * sym.toNat + 3)))

/-- RDHDR of the bytes WRHDR wrote restores TOTAL and the table (R244). -/
def Obligations.HeaderFidelity : Prop :=
  ∀ s t u v : State, s.cfg.wf = true → exec .wrhdr s = .next t → t.errcode = .ok →
    u.cfg.intOrder = s.cfg.intOrder → exec .rdhdr u = .next v → v.errcode = .ok →
    (∀ k, k < 1028 → inByte u (u.ipos.toNat / 8 + k) = outByte t (s.olen.toNat + k)) →
      v.total = s.total ∧ v.freq = s.freq

/-- STATUS has the fields of R25, and only bit 4 of a write has an effect (R25). -/
def Obligations.StatusLayout : Prop :=
  (∀ (s : State) (k : Nat), (statusWord s).getLsbD k =
    if k = 0 then s.busy
    else if k = 1 then decide (s.errcode.code ≠ 0)
    else if k = 2 then s.treeValid
    else if k = 4 then s.lost
    else if 8 ≤ k ∧ k < 16 then s.errcode.code.getLsbD (k - 8)
    else false) ∧
    (∀ (s : State) (d : Word), s.busy = false →
      hostOp (.write .w32 0x008 d) s = .next (if d.getLsbD 4 then { s with lost := false } else s))

/-- CONFIG reports the parameters, which no step changes (R31). -/
def Obligations.ConfigReportsParameters : Prop :=
  (∀ c : Config, (configWord c).toNat =
    (match c.intOrder with | .le => 0 | .be => 1) + (match c.bitOrder with | .msbFirst => 0 | .lsbFirst => 2) +
      (match c.firstSlot with | .left => 0 | .right => 4) +
      (match c.singleMode with | .oneBit => 0 | .zeroBit => 16 | .reject => 32)) ∧
    (∀ s : State, s.busy = false → readPort .w32 0x024 s = configWord s.cfg) ∧
    (∀ s t : State, step s = .next t → t.cfg = s.cfg)

/-- Host reads and writes of the registers and of the reserved region while the block is idle (R22, R23, R24, R33,
R34, R36, R37, R38, R61). The model's own choices in it: log 5, log 11. -/
def Obligations.IdleRegisterAccess : Prop :=
  ∀ (s : State) (d : Word), s.busy = false →
    readPort .w32 0x000 s = 0 ∧ readPort .w32 0x004 s = s.arg ∧ readPort .w32 0x00C s = s.result ∧
      readPort .w32 0x010 s = s.total ∧ readPort .w32 0x014 s = s.ilen ∧ readPort .w32 0x018 s = s.ipos ∧
      readPort .w32 0x01C s = s.olen ∧ readPort .w32 0x020 s = obitsWord s ∧
      readPort .w32 0x028 s = BitVec.ofNat 32 s.cfg.ibufSize ∧ readPort .w32 0x02C s = BitVec.ofNat 32 s.cfg.obufSize ∧
      (obitsWord s).toNat = s.onbits.toNat + 2 ^ 8 * s.oacc.toNat ∧
      (∀ a : Addr, a.toNat % 4 = 0 → 0x030 ≤ a.toNat → a.toNat < 0x10000 → readPort .w32 a s = 0) ∧
      hostOp (.write .w32 0x000 d) s = .next { s with pending := some d, busy := true } ∧
      hostOp (.write .w32 0x004 d) s = .next { s with arg := d } ∧
      hostOp (.write .w32 0x014 d) s =
        .next (if d.toNat ≤ s.cfg.ibufSize then { s with ilen := d, ipos := 0 } else s) ∧
      hostOp (.write .w32 0x018 d) s = .next (if d.toNat ≤ 8 * s.ilen.toNat then { s with ipos := d } else s) ∧
      (∀ a : Addr, a.toNat % 4 = 0 → a.toNat < 0x10000 →
        a.toNat ≠ 0x000 → a.toNat ≠ 0x004 → a.toNat ≠ 0x008 → a.toNat ≠ 0x014 → a.toNat ≠ 0x018 →
          hostOp (.write .w32 a d) s = .next s) ∧
      (∀ (w : Width) (a : Addr), admitted w a = true → 0x30000 ≤ a.toNat →
        readPort w a s = 0 ∧ hostOp (.read w a) s = .next (recordRead 0 s) ∧ hostOp (.write w a d) s = .next s)

/-- The input window is the input buffer, by bytes and four lanes to a word (R61, R63, R65, R105). The model's own
choices in it: log 5, log 7. -/
def Obligations.InputWindowStoresBytes : Prop :=
  ∀ s : State, s.busy = false → s.cfg.wf = true →
    (∀ (k : Nat) (d : Word), k % 4 = 0 → k < 0x10000 →
      ∃ t, hostOp (.write .w32 (BitVec.ofNat 18 (0x10000 + k)) d) s = .next t ∧ t = { s with ibuf := t.ibuf } ∧
        (∀ j, inByte t j =
          if k ≤ j ∧ j < k + 4 ∧ j < s.cfg.ibufSize then BitVec.ofNat 8 (d.toNat / 2 ^ (8 * (j - k))) else inByte s j) ∧
        (k + 4 ≤ s.cfg.ibufSize → readPort .w32 (BitVec.ofNat 18 (0x10000 + k)) t = d)) ∧
    (∀ (k : Nat) (d : Word), k < 0x10000 →
      ∃ t, hostOp (.write .w8 (BitVec.ofNat 18 (0x10000 + k)) d) s = .next t ∧ t = { s with ibuf := t.ibuf } ∧
        (∀ j, inByte t j = if j = k ∧ k < s.cfg.ibufSize then BitVec.ofNat 8 d.toNat else inByte s j) ∧
        (k < s.cfg.ibufSize →
          readPort .w8 (BitVec.ofNat 18 (0x10000 + k)) t = BitVec.ofNat 32 (d.toNat % 2 ^ 8))) ∧
    (∀ k lane, k % 4 = 0 → k < 0x10000 → lane < 4 →
      BitVec.ofNat 8 ((readPort .w32 (BitVec.ofNat 18 (0x10000 + k)) s).toNat / 2 ^ (8 * lane)) =
        if k + lane < s.cfg.ibufSize then inByte s (k + lane) else 0) ∧
    (∀ k, k < 0x10000 → readPort .w8 (BitVec.ofNat 18 (0x10000 + k)) s =
      if k < s.cfg.ibufSize then (inByte s k).setWidth 32 else 0)

/-- The output window shows completed bytes, by bytes and in lanes, and unspecified reads show nothing of the state
(R64, R65, R301, R71). The model's own choices in it: log 5. -/
def Obligations.OutputWindowShowsCompletedBytes : Prop :=
  (∀ (s : State) (k : Nat), s.busy = false → k < 0x10000 →
    (k < s.olen.toNat → readPort .w8 (BitVec.ofNat 18 (0x20000 + k)) s = (outByte s k).setWidth 32) ∧
    (s.olen.toNat ≤ k → s.cfg.obufSize ≤ k → readPort .w8 (BitVec.ofNat 18 (0x20000 + k)) s = 0) ∧
    (∀ d, hostOp (.write .w8 (BitVec.ofNat 18 (0x20000 + k)) d) s = .next s)) ∧
    (∀ (s : State) (k : Nat), s.busy = false → k % 4 = 0 → k < 0x10000 →
      (∀ lane, lane < 4 →
        (k + lane < s.olen.toNat →
          BitVec.ofNat 8 ((readPort .w32 (BitVec.ofNat 18 (0x20000 + k)) s).toNat / 2 ^ (8 * lane)) =
            outByte s (k + lane)) ∧
        (s.olen.toNat ≤ k + lane → s.cfg.obufSize ≤ k + lane →
          BitVec.ofNat 8 ((readPort .w32 (BitVec.ofNat 18 (0x20000 + k)) s).toNat / 2 ^ (8 * lane)) = 0)) ∧
      (∀ d, hostOp (.write .w32 (BitVec.ofNat 18 (0x20000 + k)) d) s = .next s)) ∧
    (∀ (s u : State) (k : Nat), s.busy = false → u.busy = false → s.draws = u.draws → k < 0x10000 →
      s.olen.toNat ≤ k → k < s.cfg.obufSize → u.olen.toNat ≤ k → k < u.cfg.obufSize →
        readPort .w8 (BitVec.ofNat 18 (0x20000 + k)) s = readPort .w8 (BitVec.ofNat 18 (0x20000 + k)) u) ∧
    (∀ (s u : State) (k lane : Nat), s.busy = false → u.busy = false → s.draws = u.draws → k % 4 = 0 → k < 0x10000 →
      lane < 4 → s.olen.toNat ≤ k + lane → k + lane < s.cfg.obufSize → u.olen.toNat ≤ k + lane →
      k + lane < u.cfg.obufSize →
        BitVec.ofNat 8 ((readPort .w32 (BitVec.ofNat 18 (0x20000 + k)) s).toNat / 2 ^ (8 * lane)) =
          BitVec.ofNat 8 ((readPort .w32 (BitVec.ofNat 18 (0x20000 + k)) u).toNat / 2 ^ (8 * lane))) ∧
    (∀ (w : Width) (a : Addr) (s u : State), s.busy = true → u.busy = true → s.draws = u.draws → a ≠ 0x008 →
      readPort w a s = readPort w a u) ∧
    (∀ s : State, readPort .w32 0x008 s = statusWord s)

/-- A host write while BUSY only sets LOST, which only a STATUS write or reset clears (R29). -/
def Obligations.BusyWriteOnlySetsLost : Prop :=
  (∀ (s : State) (w : Width) (a : Addr) (d : Word), s.busy = true → admitted w a = true →
    hostOp (.write w a d) s = .next { s with lost := true }) ∧
    (∀ s t : State, step s = .next t → s.lost = true → t.lost = false →
      (∃ ts, s.sched = .assertReset :: ts) ∨
        (s.busy = false ∧ ∃ d rest, s.host = .write .w32 0x008 d :: rest ∧ d.getLsbD 4 = true)) ∧
    (∀ s t : State, step s = .next t → s.lost = false → t.lost = true → s.busy = true)

/-- An access R62 does not admit is refused; outside reset every other one is served, a read without side effect
(20_memory.md, R62, R72, R269). The model's own choices in it: log 5, log 7, log 11. -/
def Obligations.UnadmittedAccessIsRefused : Prop :=
  ∀ (s : State) (w : Width) (a : Addr) (d : Word),
    (((w = .w8 ∧ a.toNat < 0x10000) ∨ (w = .w32 ∧ a.toNat % 4 ≠ 0)) →
      hostOp (.read w a) s = .refused .notAdmitted ∧ hostOp (.write w a d) s = .refused .notAdmitted) ∧
    (((w = .w8 ∧ 0x10000 ≤ a.toNat) ∨ (w = .w32 ∧ a.toNat % 4 = 0)) →
      hostOp (.read w a) s = .next { s with reads := readPort w a s :: s.reads, draws := s.draws + 1 } ∧
      ∃ t, hostOp (.write w a d) s = .next t)

/-- However often WAIT polls, the block is untouched until the engine executes the command, in the order of the
model's schedule (R75, R74, R99). The model's own choices in it: log 3, log 11. -/
def Obligations.WaitPollsUntilEngineMoves : Prop :=
  ∀ (n : Nat) (s : State) (w : Word) (rest : List HostOp), s.phase = .running → s.busy = true →
    s.pending = some w → s.host = .wait :: rest → s.sched = List.replicate n .host →
      Host.Core.run Sys2Proof.core (n + 1) s = execute w { s with sched := [] }
end

