-- ==== Sys2Proof/Laws/Codec.lean ====
section
/-! SUPPORT. The two walks, one step at a time: from a leaf to the root (43_encode_decode.md R170) and from the root along
the input bits (R173). -/

namespace Sys2Proof.Laws

open Sys2Proof.Machine

theorem pathUp_root {ar : Arena} {i : Slot} (h : (nodeAt ar i).parent = none) (fuel : Nat) (path : List Bool) :
    pathUp ar (fuel + 1) i path = some path := by
  simp only [pathUp, h]

theorem pathUp_edge {ar : Arena} {i p left right : Slot} (h : (nodeAt ar i).parent = some p)
    (hp : (nodeAt ar p).body = .internal left right) (fuel : Nat) (path : List Bool) :
    pathUp ar (fuel + 1) i path = pathUp ar fuel p (decide (left ≠ i) :: path) := by
  simp only [pathUp, h, hp]

theorem walkDown_leaf {s : State} {i : Slot} {sym : Byte} (h : (nodeAt s.nodes i).body = .leaf sym) (rem p : Nat) :
    walkDown s rem p i = some (i, p) := by
  unfold walkDown
  simp only [h]

theorem walkDown_dummy {s : State} {i : Slot} (h : (nodeAt s.nodes i).body = .dummy) (rem p : Nat) :
    walkDown s rem p i = some (i, p) := by
  unfold walkDown
  simp only [h]

theorem walkDown_end {s : State} {i left right : Slot} (h : (nodeAt s.nodes i).body = .internal left right) (p : Nat) :
    walkDown s 0 p i = none := by
  unfold walkDown
  simp only [h]

theorem walkDown_edge {s : State} {i left right : Slot} (h : (nodeAt s.nodes i).body = .internal left right)
    (rem p : Nat) :
    walkDown s (rem + 1) p i = walkDown s rem (p + 1) (if readBitAt s p then right else left) := by
  rw [walkDown]
  simp only [h]

end Sys2Proof.Laws
end

