-- ==== Sys2Proof/Laws/Memory.lean ====
section
/-! SUPPORT. The stream buffers: a read after a write, the bytes a write leaves alone, and the canonical form
(10_state.md R43, R44). -/

namespace Sys2Proof.Laws

open Sys2Proof.Machine

@[simp] theorem read?_nil (k : Nat) : Memory.read? [] k = none := rfl

theorem read?_write_same (m : Memory) (k : Nat) (v : Byte) :
    Memory.read? (Memory.write m k v) k = some v := by
  induction m with
  | nil => simp [Memory.write, Memory.read?]
  | cons c m ih =>
    obtain ⟨a, b⟩ := c
    simp only [Memory.write]
    split
    · simp [Memory.read?]
    · split
      · simp [Memory.read?]
      · next _ hne => simp [Memory.read?, Ne.symm hne, ih]

theorem read?_write_other (m : Memory) {k j : Nat} (h : j ≠ k) (v : Byte) :
    Memory.read? (Memory.write m k v) j = Memory.read? m j := by
  induction m with
  | nil => simp [Memory.write, Memory.read?, Ne.symm h]
  | cons c m ih =>
    obtain ⟨a, b⟩ := c
    simp only [Memory.write]
    split
    · simp [Memory.read?, Ne.symm h]
    · split
      · next _ he => subst he; simp [Memory.read?, Ne.symm h]
      · simp [Memory.read?, ih]

/-- What a buffer reads as after a write. -/
theorem read?_write (m : Memory) (k j : Nat) (v : Byte) :
    Memory.read? (Memory.write m k v) j = if j = k then some v else Memory.read? m j := by
  split
  · next h => subst h; exact read?_write_same m j v
  · next h => exact read?_write_other m h v

/-- The entries after a write are the entry written and entries that were there. -/
theorem mem_write {m : Memory} {k : Nat} {v : Byte} {c : Host.Cell} (h : c ∈ Memory.write m k v) :
    c = (k, v) ∨ c ∈ m := by
  induction m with
  | nil => simpa [Memory.write] using h
  | cons d m ih =>
    obtain ⟨a, b⟩ := d
    simp only [Memory.write] at h
    split at h
    · simpa using h
    · split at h
      · rcases List.mem_cons.1 h with h | h
        · exact .inl h
        · exact .inr (List.mem_cons_of_mem _ h)
      · rcases List.mem_cons.1 h with h | h
        · exact .inr (h ▸ List.mem_cons_self)
        · exact (ih h).imp_right (List.mem_cons_of_mem _)

/-- A write keeps the canonical form. -/
theorem write_wf {m : Memory} (h : Memory.wf m) (k : Nat) (v : Byte) : Memory.wf (Memory.write m k v) := by
  induction m with
  | nil => simp [Memory.write, Memory.wf]
  | cons c m ih =>
    obtain ⟨a, b⟩ := c
    obtain ⟨hlt, htail⟩ := List.pairwise_cons.1 h
    simp only [Memory.write]
    split
    · next hk =>
      refine List.pairwise_cons.2 ⟨fun d hd => ?_, h⟩
      rcases List.mem_cons.1 hd with rfl | hd
      · exact hk
      · exact Nat.lt_trans hk (hlt d hd)
    · split
      · next he => subst he; exact List.pairwise_cons.2 ⟨hlt, htail⟩
      · next hge hne =>
        refine List.pairwise_cons.2 ⟨fun d hd => ?_, ih htail⟩
        rcases mem_write hd with rfl | hd
        · simp only at hge hne ⊢; omega
        · exact hlt d hd

/-- Indices in range stay in range when the index written is in range. -/
theorem write_range {m : Memory} {k n : Nat} (h : ∀ c ∈ m, c.1 < n) (hk : k < n) (v : Byte) :
    ∀ c ∈ Memory.write m k v, c.1 < n := by
  intro c hc
  rcases mem_write hc with rfl | hc
  · exact hk
  · exact h c hc

end Sys2Proof.Laws
end

