-- ==== Sys2Proof/Laws/State.lean ====
section
/-! SUPPORT. One lemma per field per named update of the state, true by rfl, so that no proof unfolds a record update.
The updates: the end of a command (60_exceptions.md R260), the result (10_state.md R30), the tree flag (R28), the reader's
position (R34), a byte to the writer (44_bitstream.md R202), the partial byte cleared (R201), and the host's list. -/

namespace Sys2Proof.Laws

open Sys2Proof.Machine

@[simp] theorem finish_cfg (e : ErrCode) (s : State) : (finish e s).cfg = s.cfg := rfl
@[simp] theorem finish_phase (e : ErrCode) (s : State) : (finish e s).phase = s.phase := rfl
@[simp] theorem finish_busy (e : ErrCode) (s : State) : (finish e s).busy = false := rfl
@[simp] theorem finish_pending (e : ErrCode) (s : State) : (finish e s).pending = none := rfl
@[simp] theorem finish_errcode (e : ErrCode) (s : State) : (finish e s).errcode = e := rfl
@[simp] theorem finish_treeValid (e : ErrCode) (s : State) : (finish e s).treeValid = s.treeValid := rfl
@[simp] theorem finish_lost (e : ErrCode) (s : State) : (finish e s).lost = s.lost := rfl
@[simp] theorem finish_arg (e : ErrCode) (s : State) : (finish e s).arg = s.arg := rfl
@[simp] theorem finish_result (e : ErrCode) (s : State) : (finish e s).result = s.result := rfl
@[simp] theorem finish_total (e : ErrCode) (s : State) : (finish e s).total = s.total := rfl
@[simp] theorem finish_ilen (e : ErrCode) (s : State) : (finish e s).ilen = s.ilen := rfl
@[simp] theorem finish_ipos (e : ErrCode) (s : State) : (finish e s).ipos = s.ipos := rfl
@[simp] theorem finish_olen (e : ErrCode) (s : State) : (finish e s).olen = s.olen := rfl
@[simp] theorem finish_onbits (e : ErrCode) (s : State) : (finish e s).onbits = s.onbits := rfl
@[simp] theorem finish_oacc (e : ErrCode) (s : State) : (finish e s).oacc = s.oacc := rfl
@[simp] theorem finish_freq (e : ErrCode) (s : State) : (finish e s).freq = s.freq := rfl
@[simp] theorem finish_nodes (e : ErrCode) (s : State) : (finish e s).nodes = s.nodes := rfl
@[simp] theorem finish_root (e : ErrCode) (s : State) : (finish e s).root = s.root := rfl
@[simp] theorem finish_nleaf (e : ErrCode) (s : State) : (finish e s).nleaf = s.nleaf := rfl
@[simp] theorem finish_leafIdx (e : ErrCode) (s : State) : (finish e s).leafIdx = s.leafIdx := rfl
@[simp] theorem finish_ibuf (e : ErrCode) (s : State) : (finish e s).ibuf = s.ibuf := rfl
@[simp] theorem finish_obuf (e : ErrCode) (s : State) : (finish e s).obuf = s.obuf := rfl
@[simp] theorem finish_host (e : ErrCode) (s : State) : (finish e s).host = s.host := rfl
@[simp] theorem finish_reads (e : ErrCode) (s : State) : (finish e s).reads = s.reads := rfl
@[simp] theorem finish_hostStop (e : ErrCode) (s : State) : (finish e s).hostStop = s.hostStop := rfl
@[simp] theorem finish_sched (e : ErrCode) (s : State) : (finish e s).sched = s.sched := rfl
@[simp] theorem finish_draws (e : ErrCode) (s : State) : (finish e s).draws = s.draws := rfl
@[simp] theorem finish_gen (e : ErrCode) (s : State) : (finish e s).gen = s.gen := rfl

@[simp] theorem setResult_cfg (v : Word) (s : State) : (setResult v s).cfg = s.cfg := rfl
@[simp] theorem setResult_phase (v : Word) (s : State) : (setResult v s).phase = s.phase := rfl
@[simp] theorem setResult_busy (v : Word) (s : State) : (setResult v s).busy = s.busy := rfl
@[simp] theorem setResult_pending (v : Word) (s : State) : (setResult v s).pending = s.pending := rfl
@[simp] theorem setResult_errcode (v : Word) (s : State) : (setResult v s).errcode = s.errcode := rfl
@[simp] theorem setResult_treeValid (v : Word) (s : State) : (setResult v s).treeValid = s.treeValid := rfl
@[simp] theorem setResult_lost (v : Word) (s : State) : (setResult v s).lost = s.lost := rfl
@[simp] theorem setResult_arg (v : Word) (s : State) : (setResult v s).arg = s.arg := rfl
@[simp] theorem setResult_result (v : Word) (s : State) : (setResult v s).result = v := rfl
@[simp] theorem setResult_total (v : Word) (s : State) : (setResult v s).total = s.total := rfl
@[simp] theorem setResult_ilen (v : Word) (s : State) : (setResult v s).ilen = s.ilen := rfl
@[simp] theorem setResult_ipos (v : Word) (s : State) : (setResult v s).ipos = s.ipos := rfl
@[simp] theorem setResult_olen (v : Word) (s : State) : (setResult v s).olen = s.olen := rfl
@[simp] theorem setResult_onbits (v : Word) (s : State) : (setResult v s).onbits = s.onbits := rfl
@[simp] theorem setResult_oacc (v : Word) (s : State) : (setResult v s).oacc = s.oacc := rfl
@[simp] theorem setResult_freq (v : Word) (s : State) : (setResult v s).freq = s.freq := rfl
@[simp] theorem setResult_nodes (v : Word) (s : State) : (setResult v s).nodes = s.nodes := rfl
@[simp] theorem setResult_root (v : Word) (s : State) : (setResult v s).root = s.root := rfl
@[simp] theorem setResult_nleaf (v : Word) (s : State) : (setResult v s).nleaf = s.nleaf := rfl
@[simp] theorem setResult_leafIdx (v : Word) (s : State) : (setResult v s).leafIdx = s.leafIdx := rfl
@[simp] theorem setResult_ibuf (v : Word) (s : State) : (setResult v s).ibuf = s.ibuf := rfl
@[simp] theorem setResult_obuf (v : Word) (s : State) : (setResult v s).obuf = s.obuf := rfl
@[simp] theorem setResult_host (v : Word) (s : State) : (setResult v s).host = s.host := rfl
@[simp] theorem setResult_reads (v : Word) (s : State) : (setResult v s).reads = s.reads := rfl
@[simp] theorem setResult_hostStop (v : Word) (s : State) : (setResult v s).hostStop = s.hostStop := rfl
@[simp] theorem setResult_sched (v : Word) (s : State) : (setResult v s).sched = s.sched := rfl
@[simp] theorem setResult_draws (v : Word) (s : State) : (setResult v s).draws = s.draws := rfl
@[simp] theorem setResult_gen (v : Word) (s : State) : (setResult v s).gen = s.gen := rfl

@[simp] theorem invalidateTree_cfg (s : State) : (invalidateTree s).cfg = s.cfg := rfl
@[simp] theorem invalidateTree_phase (s : State) : (invalidateTree s).phase = s.phase := rfl
@[simp] theorem invalidateTree_busy (s : State) : (invalidateTree s).busy = s.busy := rfl
@[simp] theorem invalidateTree_pending (s : State) : (invalidateTree s).pending = s.pending := rfl
@[simp] theorem invalidateTree_errcode (s : State) : (invalidateTree s).errcode = s.errcode := rfl
@[simp] theorem invalidateTree_treeValid (s : State) : (invalidateTree s).treeValid = false := rfl
@[simp] theorem invalidateTree_lost (s : State) : (invalidateTree s).lost = s.lost := rfl
@[simp] theorem invalidateTree_arg (s : State) : (invalidateTree s).arg = s.arg := rfl
@[simp] theorem invalidateTree_result (s : State) : (invalidateTree s).result = s.result := rfl
@[simp] theorem invalidateTree_total (s : State) : (invalidateTree s).total = s.total := rfl
@[simp] theorem invalidateTree_ilen (s : State) : (invalidateTree s).ilen = s.ilen := rfl
@[simp] theorem invalidateTree_ipos (s : State) : (invalidateTree s).ipos = s.ipos := rfl
@[simp] theorem invalidateTree_olen (s : State) : (invalidateTree s).olen = s.olen := rfl
@[simp] theorem invalidateTree_onbits (s : State) : (invalidateTree s).onbits = s.onbits := rfl
@[simp] theorem invalidateTree_oacc (s : State) : (invalidateTree s).oacc = s.oacc := rfl
@[simp] theorem invalidateTree_freq (s : State) : (invalidateTree s).freq = s.freq := rfl
@[simp] theorem invalidateTree_nodes (s : State) : (invalidateTree s).nodes = s.nodes := rfl
@[simp] theorem invalidateTree_root (s : State) : (invalidateTree s).root = s.root := rfl
@[simp] theorem invalidateTree_nleaf (s : State) : (invalidateTree s).nleaf = s.nleaf := rfl
@[simp] theorem invalidateTree_leafIdx (s : State) : (invalidateTree s).leafIdx = s.leafIdx := rfl
@[simp] theorem invalidateTree_ibuf (s : State) : (invalidateTree s).ibuf = s.ibuf := rfl
@[simp] theorem invalidateTree_obuf (s : State) : (invalidateTree s).obuf = s.obuf := rfl
@[simp] theorem invalidateTree_host (s : State) : (invalidateTree s).host = s.host := rfl
@[simp] theorem invalidateTree_reads (s : State) : (invalidateTree s).reads = s.reads := rfl
@[simp] theorem invalidateTree_hostStop (s : State) : (invalidateTree s).hostStop = s.hostStop := rfl
@[simp] theorem invalidateTree_sched (s : State) : (invalidateTree s).sched = s.sched := rfl
@[simp] theorem invalidateTree_draws (s : State) : (invalidateTree s).draws = s.draws := rfl
@[simp] theorem invalidateTree_gen (s : State) : (invalidateTree s).gen = s.gen := rfl

@[simp] theorem setIpos_cfg (p : Nat) (s : State) : (setIpos p s).cfg = s.cfg := rfl
@[simp] theorem setIpos_phase (p : Nat) (s : State) : (setIpos p s).phase = s.phase := rfl
@[simp] theorem setIpos_busy (p : Nat) (s : State) : (setIpos p s).busy = s.busy := rfl
@[simp] theorem setIpos_pending (p : Nat) (s : State) : (setIpos p s).pending = s.pending := rfl
@[simp] theorem setIpos_errcode (p : Nat) (s : State) : (setIpos p s).errcode = s.errcode := rfl
@[simp] theorem setIpos_treeValid (p : Nat) (s : State) : (setIpos p s).treeValid = s.treeValid := rfl
@[simp] theorem setIpos_lost (p : Nat) (s : State) : (setIpos p s).lost = s.lost := rfl
@[simp] theorem setIpos_arg (p : Nat) (s : State) : (setIpos p s).arg = s.arg := rfl
@[simp] theorem setIpos_result (p : Nat) (s : State) : (setIpos p s).result = s.result := rfl
@[simp] theorem setIpos_total (p : Nat) (s : State) : (setIpos p s).total = s.total := rfl
@[simp] theorem setIpos_ilen (p : Nat) (s : State) : (setIpos p s).ilen = s.ilen := rfl
@[simp] theorem setIpos_ipos (p : Nat) (s : State) : (setIpos p s).ipos = BitVec.ofNat 32 p := rfl
@[simp] theorem setIpos_olen (p : Nat) (s : State) : (setIpos p s).olen = s.olen := rfl
@[simp] theorem setIpos_onbits (p : Nat) (s : State) : (setIpos p s).onbits = s.onbits := rfl
@[simp] theorem setIpos_oacc (p : Nat) (s : State) : (setIpos p s).oacc = s.oacc := rfl
@[simp] theorem setIpos_freq (p : Nat) (s : State) : (setIpos p s).freq = s.freq := rfl
@[simp] theorem setIpos_nodes (p : Nat) (s : State) : (setIpos p s).nodes = s.nodes := rfl
@[simp] theorem setIpos_root (p : Nat) (s : State) : (setIpos p s).root = s.root := rfl
@[simp] theorem setIpos_nleaf (p : Nat) (s : State) : (setIpos p s).nleaf = s.nleaf := rfl
@[simp] theorem setIpos_leafIdx (p : Nat) (s : State) : (setIpos p s).leafIdx = s.leafIdx := rfl
@[simp] theorem setIpos_ibuf (p : Nat) (s : State) : (setIpos p s).ibuf = s.ibuf := rfl
@[simp] theorem setIpos_obuf (p : Nat) (s : State) : (setIpos p s).obuf = s.obuf := rfl
@[simp] theorem setIpos_host (p : Nat) (s : State) : (setIpos p s).host = s.host := rfl
@[simp] theorem setIpos_reads (p : Nat) (s : State) : (setIpos p s).reads = s.reads := rfl
@[simp] theorem setIpos_hostStop (p : Nat) (s : State) : (setIpos p s).hostStop = s.hostStop := rfl
@[simp] theorem setIpos_sched (p : Nat) (s : State) : (setIpos p s).sched = s.sched := rfl
@[simp] theorem setIpos_draws (p : Nat) (s : State) : (setIpos p s).draws = s.draws := rfl
@[simp] theorem setIpos_gen (p : Nat) (s : State) : (setIpos p s).gen = s.gen := rfl

@[simp] theorem emitByte_cfg (v : Byte) (s : State) : (emitByte v s).cfg = s.cfg := rfl
@[simp] theorem emitByte_phase (v : Byte) (s : State) : (emitByte v s).phase = s.phase := rfl
@[simp] theorem emitByte_busy (v : Byte) (s : State) : (emitByte v s).busy = s.busy := rfl
@[simp] theorem emitByte_pending (v : Byte) (s : State) : (emitByte v s).pending = s.pending := rfl
@[simp] theorem emitByte_errcode (v : Byte) (s : State) : (emitByte v s).errcode = s.errcode := rfl
@[simp] theorem emitByte_treeValid (v : Byte) (s : State) : (emitByte v s).treeValid = s.treeValid := rfl
@[simp] theorem emitByte_lost (v : Byte) (s : State) : (emitByte v s).lost = s.lost := rfl
@[simp] theorem emitByte_arg (v : Byte) (s : State) : (emitByte v s).arg = s.arg := rfl
@[simp] theorem emitByte_result (v : Byte) (s : State) : (emitByte v s).result = s.result := rfl
@[simp] theorem emitByte_total (v : Byte) (s : State) : (emitByte v s).total = s.total := rfl
@[simp] theorem emitByte_ilen (v : Byte) (s : State) : (emitByte v s).ilen = s.ilen := rfl
@[simp] theorem emitByte_ipos (v : Byte) (s : State) : (emitByte v s).ipos = s.ipos := rfl
@[simp] theorem emitByte_olen (v : Byte) (s : State) : (emitByte v s).olen = BitVec.ofNat 32 (s.olen.toNat + 1) := rfl
@[simp] theorem emitByte_onbits (v : Byte) (s : State) : (emitByte v s).onbits = s.onbits := rfl
@[simp] theorem emitByte_oacc (v : Byte) (s : State) : (emitByte v s).oacc = s.oacc := rfl
@[simp] theorem emitByte_freq (v : Byte) (s : State) : (emitByte v s).freq = s.freq := rfl
@[simp] theorem emitByte_nodes (v : Byte) (s : State) : (emitByte v s).nodes = s.nodes := rfl
@[simp] theorem emitByte_root (v : Byte) (s : State) : (emitByte v s).root = s.root := rfl
@[simp] theorem emitByte_nleaf (v : Byte) (s : State) : (emitByte v s).nleaf = s.nleaf := rfl
@[simp] theorem emitByte_leafIdx (v : Byte) (s : State) : (emitByte v s).leafIdx = s.leafIdx := rfl
@[simp] theorem emitByte_ibuf (v : Byte) (s : State) : (emitByte v s).ibuf = s.ibuf := rfl
@[simp] theorem emitByte_obuf (v : Byte) (s : State) : (emitByte v s).obuf = Memory.write s.obuf s.olen.toNat v := rfl
@[simp] theorem emitByte_host (v : Byte) (s : State) : (emitByte v s).host = s.host := rfl
@[simp] theorem emitByte_reads (v : Byte) (s : State) : (emitByte v s).reads = s.reads := rfl
@[simp] theorem emitByte_hostStop (v : Byte) (s : State) : (emitByte v s).hostStop = s.hostStop := rfl
@[simp] theorem emitByte_sched (v : Byte) (s : State) : (emitByte v s).sched = s.sched := rfl
@[simp] theorem emitByte_draws (v : Byte) (s : State) : (emitByte v s).draws = s.draws := rfl
@[simp] theorem emitByte_gen (v : Byte) (s : State) : (emitByte v s).gen = s.gen := rfl

@[simp] theorem setPartial_cfg (v : Byte) (n : Nat) (s : State) : (setPartial v n s).cfg = s.cfg := rfl
@[simp] theorem setPartial_phase (v : Byte) (n : Nat) (s : State) : (setPartial v n s).phase = s.phase := rfl
@[simp] theorem setPartial_busy (v : Byte) (n : Nat) (s : State) : (setPartial v n s).busy = s.busy := rfl
@[simp] theorem setPartial_pending (v : Byte) (n : Nat) (s : State) : (setPartial v n s).pending = s.pending := rfl
@[simp] theorem setPartial_errcode (v : Byte) (n : Nat) (s : State) : (setPartial v n s).errcode = s.errcode := rfl
@[simp] theorem setPartial_treeValid (v : Byte) (n : Nat) (s : State) : (setPartial v n s).treeValid = s.treeValid := rfl
@[simp] theorem setPartial_lost (v : Byte) (n : Nat) (s : State) : (setPartial v n s).lost = s.lost := rfl
@[simp] theorem setPartial_arg (v : Byte) (n : Nat) (s : State) : (setPartial v n s).arg = s.arg := rfl
@[simp] theorem setPartial_result (v : Byte) (n : Nat) (s : State) : (setPartial v n s).result = s.result := rfl
@[simp] theorem setPartial_total (v : Byte) (n : Nat) (s : State) : (setPartial v n s).total = s.total := rfl
@[simp] theorem setPartial_ilen (v : Byte) (n : Nat) (s : State) : (setPartial v n s).ilen = s.ilen := rfl
@[simp] theorem setPartial_ipos (v : Byte) (n : Nat) (s : State) : (setPartial v n s).ipos = s.ipos := rfl
@[simp] theorem setPartial_olen (v : Byte) (n : Nat) (s : State) : (setPartial v n s).olen = s.olen := rfl
@[simp] theorem setPartial_onbits (v : Byte) (n : Nat) (s : State) : (setPartial v n s).onbits = BitVec.ofNat 3 n := rfl
@[simp] theorem setPartial_oacc (v : Byte) (n : Nat) (s : State) : (setPartial v n s).oacc = v := rfl
@[simp] theorem setPartial_freq (v : Byte) (n : Nat) (s : State) : (setPartial v n s).freq = s.freq := rfl
@[simp] theorem setPartial_nodes (v : Byte) (n : Nat) (s : State) : (setPartial v n s).nodes = s.nodes := rfl
@[simp] theorem setPartial_root (v : Byte) (n : Nat) (s : State) : (setPartial v n s).root = s.root := rfl
@[simp] theorem setPartial_nleaf (v : Byte) (n : Nat) (s : State) : (setPartial v n s).nleaf = s.nleaf := rfl
@[simp] theorem setPartial_leafIdx (v : Byte) (n : Nat) (s : State) : (setPartial v n s).leafIdx = s.leafIdx := rfl
@[simp] theorem setPartial_ibuf (v : Byte) (n : Nat) (s : State) : (setPartial v n s).ibuf = s.ibuf := rfl
@[simp] theorem setPartial_obuf (v : Byte) (n : Nat) (s : State) : (setPartial v n s).obuf = s.obuf := rfl
@[simp] theorem setPartial_host (v : Byte) (n : Nat) (s : State) : (setPartial v n s).host = s.host := rfl
@[simp] theorem setPartial_reads (v : Byte) (n : Nat) (s : State) : (setPartial v n s).reads = s.reads := rfl
@[simp] theorem setPartial_hostStop (v : Byte) (n : Nat) (s : State) : (setPartial v n s).hostStop = s.hostStop := rfl
@[simp] theorem setPartial_sched (v : Byte) (n : Nat) (s : State) : (setPartial v n s).sched = s.sched := rfl
@[simp] theorem setPartial_draws (v : Byte) (n : Nat) (s : State) : (setPartial v n s).draws = s.draws := rfl
@[simp] theorem setPartial_gen (v : Byte) (n : Nat) (s : State) : (setPartial v n s).gen = s.gen := rfl

@[simp] theorem clearPartial_cfg (s : State) : (clearPartial s).cfg = s.cfg := rfl
@[simp] theorem clearPartial_phase (s : State) : (clearPartial s).phase = s.phase := rfl
@[simp] theorem clearPartial_busy (s : State) : (clearPartial s).busy = s.busy := rfl
@[simp] theorem clearPartial_pending (s : State) : (clearPartial s).pending = s.pending := rfl
@[simp] theorem clearPartial_errcode (s : State) : (clearPartial s).errcode = s.errcode := rfl
@[simp] theorem clearPartial_treeValid (s : State) : (clearPartial s).treeValid = s.treeValid := rfl
@[simp] theorem clearPartial_lost (s : State) : (clearPartial s).lost = s.lost := rfl
@[simp] theorem clearPartial_arg (s : State) : (clearPartial s).arg = s.arg := rfl
@[simp] theorem clearPartial_result (s : State) : (clearPartial s).result = s.result := rfl
@[simp] theorem clearPartial_total (s : State) : (clearPartial s).total = s.total := rfl
@[simp] theorem clearPartial_ilen (s : State) : (clearPartial s).ilen = s.ilen := rfl
@[simp] theorem clearPartial_ipos (s : State) : (clearPartial s).ipos = s.ipos := rfl
@[simp] theorem clearPartial_olen (s : State) : (clearPartial s).olen = s.olen := rfl
@[simp] theorem clearPartial_onbits (s : State) : (clearPartial s).onbits = 0 := rfl
@[simp] theorem clearPartial_oacc (s : State) : (clearPartial s).oacc = 0 := rfl
@[simp] theorem clearPartial_freq (s : State) : (clearPartial s).freq = s.freq := rfl
@[simp] theorem clearPartial_nodes (s : State) : (clearPartial s).nodes = s.nodes := rfl
@[simp] theorem clearPartial_root (s : State) : (clearPartial s).root = s.root := rfl
@[simp] theorem clearPartial_nleaf (s : State) : (clearPartial s).nleaf = s.nleaf := rfl
@[simp] theorem clearPartial_leafIdx (s : State) : (clearPartial s).leafIdx = s.leafIdx := rfl
@[simp] theorem clearPartial_ibuf (s : State) : (clearPartial s).ibuf = s.ibuf := rfl
@[simp] theorem clearPartial_obuf (s : State) : (clearPartial s).obuf = s.obuf := rfl
@[simp] theorem clearPartial_host (s : State) : (clearPartial s).host = s.host := rfl
@[simp] theorem clearPartial_reads (s : State) : (clearPartial s).reads = s.reads := rfl
@[simp] theorem clearPartial_hostStop (s : State) : (clearPartial s).hostStop = s.hostStop := rfl
@[simp] theorem clearPartial_sched (s : State) : (clearPartial s).sched = s.sched := rfl
@[simp] theorem clearPartial_draws (s : State) : (clearPartial s).draws = s.draws := rfl
@[simp] theorem clearPartial_gen (s : State) : (clearPartial s).gen = s.gen := rfl

@[simp] theorem latchCommand_cfg (d : Word) (s : State) : (latchCommand d s).cfg = s.cfg := rfl
@[simp] theorem latchCommand_phase (d : Word) (s : State) : (latchCommand d s).phase = s.phase := rfl
@[simp] theorem latchCommand_busy (d : Word) (s : State) : (latchCommand d s).busy = true := rfl
@[simp] theorem latchCommand_pending (d : Word) (s : State) : (latchCommand d s).pending = some d := rfl
@[simp] theorem latchCommand_errcode (d : Word) (s : State) : (latchCommand d s).errcode = s.errcode := rfl
@[simp] theorem latchCommand_treeValid (d : Word) (s : State) : (latchCommand d s).treeValid = s.treeValid := rfl
@[simp] theorem latchCommand_lost (d : Word) (s : State) : (latchCommand d s).lost = s.lost := rfl
@[simp] theorem latchCommand_arg (d : Word) (s : State) : (latchCommand d s).arg = s.arg := rfl
@[simp] theorem latchCommand_result (d : Word) (s : State) : (latchCommand d s).result = s.result := rfl
@[simp] theorem latchCommand_total (d : Word) (s : State) : (latchCommand d s).total = s.total := rfl
@[simp] theorem latchCommand_ilen (d : Word) (s : State) : (latchCommand d s).ilen = s.ilen := rfl
@[simp] theorem latchCommand_ipos (d : Word) (s : State) : (latchCommand d s).ipos = s.ipos := rfl
@[simp] theorem latchCommand_olen (d : Word) (s : State) : (latchCommand d s).olen = s.olen := rfl
@[simp] theorem latchCommand_onbits (d : Word) (s : State) : (latchCommand d s).onbits = s.onbits := rfl
@[simp] theorem latchCommand_oacc (d : Word) (s : State) : (latchCommand d s).oacc = s.oacc := rfl
@[simp] theorem latchCommand_freq (d : Word) (s : State) : (latchCommand d s).freq = s.freq := rfl
@[simp] theorem latchCommand_nodes (d : Word) (s : State) : (latchCommand d s).nodes = s.nodes := rfl
@[simp] theorem latchCommand_root (d : Word) (s : State) : (latchCommand d s).root = s.root := rfl
@[simp] theorem latchCommand_nleaf (d : Word) (s : State) : (latchCommand d s).nleaf = s.nleaf := rfl
@[simp] theorem latchCommand_leafIdx (d : Word) (s : State) : (latchCommand d s).leafIdx = s.leafIdx := rfl
@[simp] theorem latchCommand_ibuf (d : Word) (s : State) : (latchCommand d s).ibuf = s.ibuf := rfl
@[simp] theorem latchCommand_obuf (d : Word) (s : State) : (latchCommand d s).obuf = s.obuf := rfl
@[simp] theorem latchCommand_host (d : Word) (s : State) : (latchCommand d s).host = s.host := rfl
@[simp] theorem latchCommand_reads (d : Word) (s : State) : (latchCommand d s).reads = s.reads := rfl
@[simp] theorem latchCommand_hostStop (d : Word) (s : State) : (latchCommand d s).hostStop = s.hostStop := rfl
@[simp] theorem latchCommand_sched (d : Word) (s : State) : (latchCommand d s).sched = s.sched := rfl
@[simp] theorem latchCommand_draws (d : Word) (s : State) : (latchCommand d s).draws = s.draws := rfl
@[simp] theorem latchCommand_gen (d : Word) (s : State) : (latchCommand d s).gen = s.gen := rfl

@[simp] theorem pushHost_cfg (ops : List HostOp) (s : State) : (pushHost ops s).cfg = s.cfg := rfl
@[simp] theorem pushHost_phase (ops : List HostOp) (s : State) : (pushHost ops s).phase = s.phase := rfl
@[simp] theorem pushHost_busy (ops : List HostOp) (s : State) : (pushHost ops s).busy = s.busy := rfl
@[simp] theorem pushHost_pending (ops : List HostOp) (s : State) : (pushHost ops s).pending = s.pending := rfl
@[simp] theorem pushHost_errcode (ops : List HostOp) (s : State) : (pushHost ops s).errcode = s.errcode := rfl
@[simp] theorem pushHost_treeValid (ops : List HostOp) (s : State) : (pushHost ops s).treeValid = s.treeValid := rfl
@[simp] theorem pushHost_lost (ops : List HostOp) (s : State) : (pushHost ops s).lost = s.lost := rfl
@[simp] theorem pushHost_arg (ops : List HostOp) (s : State) : (pushHost ops s).arg = s.arg := rfl
@[simp] theorem pushHost_result (ops : List HostOp) (s : State) : (pushHost ops s).result = s.result := rfl
@[simp] theorem pushHost_total (ops : List HostOp) (s : State) : (pushHost ops s).total = s.total := rfl
@[simp] theorem pushHost_ilen (ops : List HostOp) (s : State) : (pushHost ops s).ilen = s.ilen := rfl
@[simp] theorem pushHost_ipos (ops : List HostOp) (s : State) : (pushHost ops s).ipos = s.ipos := rfl
@[simp] theorem pushHost_olen (ops : List HostOp) (s : State) : (pushHost ops s).olen = s.olen := rfl
@[simp] theorem pushHost_onbits (ops : List HostOp) (s : State) : (pushHost ops s).onbits = s.onbits := rfl
@[simp] theorem pushHost_oacc (ops : List HostOp) (s : State) : (pushHost ops s).oacc = s.oacc := rfl
@[simp] theorem pushHost_freq (ops : List HostOp) (s : State) : (pushHost ops s).freq = s.freq := rfl
@[simp] theorem pushHost_nodes (ops : List HostOp) (s : State) : (pushHost ops s).nodes = s.nodes := rfl
@[simp] theorem pushHost_root (ops : List HostOp) (s : State) : (pushHost ops s).root = s.root := rfl
@[simp] theorem pushHost_nleaf (ops : List HostOp) (s : State) : (pushHost ops s).nleaf = s.nleaf := rfl
@[simp] theorem pushHost_leafIdx (ops : List HostOp) (s : State) : (pushHost ops s).leafIdx = s.leafIdx := rfl
@[simp] theorem pushHost_ibuf (ops : List HostOp) (s : State) : (pushHost ops s).ibuf = s.ibuf := rfl
@[simp] theorem pushHost_obuf (ops : List HostOp) (s : State) : (pushHost ops s).obuf = s.obuf := rfl
@[simp] theorem pushHost_host (ops : List HostOp) (s : State) : (pushHost ops s).host = ops ++ s.host := rfl
@[simp] theorem pushHost_reads (ops : List HostOp) (s : State) : (pushHost ops s).reads = s.reads := rfl
@[simp] theorem pushHost_hostStop (ops : List HostOp) (s : State) : (pushHost ops s).hostStop = s.hostStop := rfl
@[simp] theorem pushHost_sched (ops : List HostOp) (s : State) : (pushHost ops s).sched = s.sched := rfl
@[simp] theorem pushHost_draws (ops : List HostOp) (s : State) : (pushHost ops s).draws = s.draws := rfl
@[simp] theorem pushHost_gen (ops : List HostOp) (s : State) : (pushHost ops s).gen = s.gen := rfl

end Sys2Proof.Laws
end

