-- ==== Sys2Proof/Laws/Ops.lean ====
section
/-! SUPPORT. What the shared operations do, said once: how a command ends, bits and bytes of a stream byte, the bit
writer (44_bitstream.md R200 to R202), and integers on a stream (20_memory.md R66). -/

namespace Sys2Proof.Laws

open Sys2Proof.Machine Sys2Proof.Safety

/-! ## The end of a command -/

theorem assertOrRaise_of {c : Prop} [Decidable c] (h : c) (e : ErrCode) (s : State) (body : Out) :
    assertOrRaise c e s body = body := if_pos h

theorem assertOrRaise_of_not {c : Prop} [Decidable c] (h : ¬c) (e : ErrCode) (s : State) (body : Out) :
    assertOrRaise c e s body = raiseError e s := if_neg h

/-- A check either fails, and the command ends with its error, or the body runs. -/
theorem assertOrRaise_cases {c : Prop} [Decidable c] {e : ErrCode} {s : State} {body o : Out}
    (h : assertOrRaise c e s body = o) : (¬c ∧ o = raiseError e s) ∨ (c ∧ o = body) := by
  by_cases hc : c
  · exact .inr ⟨hc, h ▸ assertOrRaise_of hc e s body⟩
  · exact .inl ⟨hc, h ▸ assertOrRaise_of_not hc e s body⟩

theorem raiseError_eq (e : ErrCode) (s : State) : raiseError e s = .next (ended e s) := rfl

theorem complete_eq (s : State) : complete s = .next (ended .ok s) := rfl

theorem finish_eq (e : ErrCode) (s : State) : finish e s = ended e s := rfl

/-! ## Bits of a byte -/

theorem bitPos_lt (o : BitOrder) {k : Nat} (h : k < 8) : bitPos o k < 8 := by
  cases o <;> simp only [bitPos] <;> omega

theorem bitPos_inj (o : BitOrder) {j k : Nat} (hj : j < 8) (hk : k < 8) (h : bitPos o j = bitPos o k) : j = k := by
  cases o <;> simp only [bitPos] at h <;> omega

/-- Writing one bit of a byte gives that bit its value and leaves the others. -/
theorem getLsbD_setBitAt (v : Byte) {i j : Nat} (hi : i < 8) (hj : j < 8) (b : Bool) :
    (setBitAt v i b).getLsbD j = if j = i then b else v.getLsbD j := by
  unfold setBitAt
  have h1 : (1#8 <<< i).getLsbD j = decide (j = i) := by
    simp only [BitVec.getLsbD_shiftLeft, BitVec.getLsbD_one]
    rcases Nat.lt_trichotomy j i with h | h | h
    · simp [h]; omega
    · subst h; simp [hj]
    · have : ¬ j < i := by omega
      have h2 : j - i ≠ 0 := by omega
      simp [this, h2, hj]; omega
  cases b
  · simp only [Bool.false_eq_true, if_false, BitVec.getLsbD_and, BitVec.getLsbD_not, h1, hj]
    split <;> simp_all
  · simp only [if_true, BitVec.getLsbD_or, h1]
    split <;> simp_all

/-! ## The writer -/

theorem outByte_emitByte (v : Byte) (s : State) (k : Nat) :
    outByte (emitByte v s) k = if k = s.olen.toNat then v else outByte s k := by
  unfold outByte
  rw [emitByte_obuf, emitByte_gen, read?_write]
  by_cases h : k = s.olen.toNat
  · simp only [if_pos h]
  · simp only [if_neg h]

/-- A completed byte is added to the completed bytes, if `OLEN` does not reach the end of its register. -/
theorem outBytes_emitByte (v : Byte) (s : State) (h : s.olen.toNat + 1 < 2 ^ 32) :
    outBytes (emitByte v s) = outBytes s ++ [v] := by
  unfold outBytes
  rw [emitByte_olen, BitVec.toNat_ofNat, Nat.mod_eq_of_lt h, List.range_succ, List.map_append]
  congr 1
  · refine List.map_congr_left fun k hk => ?_
    rw [outByte_emitByte, if_neg (Nat.ne_of_lt (List.mem_range.1 hk))]
  · simp [outByte_emitByte]

/-- What `EmitBytes` leaves alone. -/
theorem emitBytes_frame (bs : List Byte) (s : State) :
    emitBytes bs s = { s with obuf := (emitBytes bs s).obuf, olen := (emitBytes bs s).olen } := by
  induction bs generalizing s with
  | nil => rfl
  | cons b bs ih => exact ih (emitByte b s)

theorem emitBytes_cons (b : Byte) (bs : List Byte) (s : State) :
    emitBytes (b :: bs) s = emitBytes bs (emitByte b s) := rfl

theorem emitBytes_olen (bs : List Byte) (s : State) (h : s.olen.toNat + bs.length < 2 ^ 32) :
    (emitBytes bs s).olen.toNat = s.olen.toNat + bs.length := by
  induction bs generalizing s with
  | nil => rfl
  | cons b bs ih =>
    simp only [List.length_cons] at h ⊢
    have h1 : (emitByte b s).olen.toNat = s.olen.toNat + 1 := by
      rw [emitByte_olen, BitVec.toNat_ofNat, Nat.mod_eq_of_lt (by omega)]
    rw [emitBytes_cons, ih _ (by omega), h1]
    omega

/-- Bytes written are added to the completed bytes in order. -/
theorem outBytes_emitBytes (bs : List Byte) (s : State) (h : s.olen.toNat + bs.length < 2 ^ 32) :
    outBytes (emitBytes bs s) = outBytes s ++ bs := by
  induction bs generalizing s with
  | nil => exact (List.append_nil _).symm
  | cons b bs ih =>
    simp only [List.length_cons] at h
    have h1 : (emitByte b s).olen.toNat = s.olen.toNat + 1 := by
      rw [emitByte_olen, BitVec.toNat_ofNat, Nat.mod_eq_of_lt (by omega)]
    rw [emitBytes_cons, ih _ (by omega), outBytes_emitByte b s (by omega), List.append_assoc]
    rfl

/-- The eighth bit completes the byte. -/
theorem emitBit_last {s : State} (h : s.onbits.toNat = 7) (b : Bool) :
    emitBit b s = clearPartial (emitByte (accWith b s) s) := by simp only [emitBit, h, Nat.reduceAdd, if_true]

/-- An earlier bit goes to the partial byte. -/
theorem emitBit_mid {s : State} (h : s.onbits.toNat ≠ 7) (b : Bool) :
    emitBit b s = setPartial (accWith b s) (s.onbits.toNat + 1) s := if_neg (by omega)

/-- `b` agrees with `a` outside the writer. -/
def SameButWriter (a b : State) : Prop :=
  b = { a with obuf := b.obuf, olen := b.olen, onbits := b.onbits, oacc := b.oacc }

theorem SameButWriter.trans {a b c : State} (h1 : SameButWriter a b) (h2 : SameButWriter b c) :
    SameButWriter a c := by
  unfold SameButWriter at *
  rw [h1] at h2
  exact h2

/-- What `EmitBit` leaves alone. -/
theorem emitBit_frame (b : Bool) (s : State) : SameButWriter s (emitBit b s) := by
  by_cases h : s.onbits.toNat = 7
  · rw [emitBit_last h]; rfl
  · rw [emitBit_mid h]; rfl

theorem emitBits_cons (b : Bool) (bs : List Bool) (s : State) :
    emitBits (b :: bs) s = emitBits bs (emitBit b s) := rfl

theorem emitBits_frame (bs : List Bool) (s : State) : SameButWriter s (emitBits bs s) := by
  induction bs generalizing s with
  | nil => rfl
  | cons b bs ih => exact (emitBit_frame b s).trans (ih (emitBit b s))

/-- The bits of a list of bytes in a stream. -/
theorem length_byteBits (o : BitOrder) (v : Byte) : (byteBits o v).length = 8 := by simp [byteBits]

/-- A byte whose bits before position `k` are those of `v` and whose bit `k` is `b`. -/
theorem range_setBitAt (o : BitOrder) (v : Byte) {k : Nat} (hk : k < 8) (b : Bool) :
    (List.range (k + 1)).map (fun j => (setBitAt v (bitPos o k) b).getLsbD (bitPos o j)) =
      (List.range k).map (fun j => v.getLsbD (bitPos o j)) ++ [b] := by
  rw [List.range_succ, List.map_append]
  congr 1
  · refine List.map_congr_left fun j hj => ?_
    have hj' := List.mem_range.1 hj
    rw [getLsbD_setBitAt v (bitPos_lt o hk) (bitPos_lt o (by omega)), if_neg]
    intro h
    exact absurd (bitPos_inj o (by omega) hk h) (by omega)
  · simp [getLsbD_setBitAt v (bitPos_lt o hk) (bitPos_lt o hk)]

theorem toNat_onbits_succ {s : State} (h : s.onbits.toNat ≠ 7) :
    (BitVec.ofNat 3 (s.onbits.toNat + 1)).toNat = s.onbits.toNat + 1 := by
  have hk : s.onbits.toNat < 8 := s.onbits.isLt
  rw [BitVec.toNat_ofNat]
  exact Nat.mod_eq_of_lt (by omega)

/-- `EmitBit` adds its bit to the stream (R206). -/
theorem writerBits_emitBit (b : Bool) (s : State) (h : s.olen.toNat + 1 < 2 ^ 32) :
    writerBits (emitBit b s) = writerBits s ++ [b] := by
  have hk : s.onbits.toNat < 8 := s.onbits.isLt
  have hr := range_setBitAt s.cfg.bitOrder s.oacc hk b
  by_cases h7 : s.onbits.toNat = 7
  · have h1 : outBytes (clearPartial (emitByte (accWith b s) s)) = outBytes s ++ [accWith b s] :=
      outBytes_emitByte _ s h
    rw [h7] at hr
    rw [emitBit_last h7]
    unfold writerBits
    rw [h1, List.flatMap_append, clearPartial_onbits, clearPartial_cfg, emitByte_cfg, h7, List.append_assoc,
      List.append_assoc, ← hr]
    congr 1
    simp [accWith, byteBits, h7]
  · rw [emitBit_mid h7]
    unfold writerBits
    rw [setPartial_onbits, setPartial_cfg, setPartial_oacc, toNat_onbits_succ h7, List.append_assoc]
    exact congrArg _ hr

/-- How `EmitBit` counts: the position in the stream grows by one bit. -/
theorem emitBit_position (b : Bool) (s : State) (h : s.olen.toNat + 1 < 2 ^ 32) :
    8 * (emitBit b s).olen.toNat + (emitBit b s).onbits.toNat = 8 * s.olen.toNat + s.onbits.toNat + 1 := by
  by_cases h7 : s.onbits.toNat = 7
  · rw [emitBit_last h7, clearPartial_olen, emitByte_olen, BitVec.toNat_ofNat, Nat.mod_eq_of_lt h,
      clearPartial_onbits, h7]
    simp
    omega
  · rw [emitBit_mid h7, setPartial_olen, setPartial_onbits, toNat_onbits_succ h7]
    omega

theorem emitBit_olen_le (b : Bool) (s : State) (h : s.olen.toNat + 1 < 2 ^ 32) :
    (emitBit b s).olen.toNat ≤ s.olen.toNat + 1 := by
  have := emitBit_position b s h
  have : s.onbits.toNat < 8 := s.onbits.isLt
  omega

/-- Bits written are added to the stream in order, and the stream position grows by their number. -/
theorem emitBits_spec (bs : List Bool) (s : State) (h : s.olen.toNat + (s.onbits.toNat + bs.length) / 8 + 1 < 2 ^ 32) :
    writerBits (emitBits bs s) = writerBits s ++ bs ∧
      8 * (emitBits bs s).olen.toNat + (emitBits bs s).onbits.toNat = 8 * s.olen.toNat + s.onbits.toNat + bs.length := by
  induction bs generalizing s with
  | nil => exact ⟨(List.append_nil _).symm, rfl⟩
  | cons b bs ih =>
    simp only [List.length_cons] at h ⊢
    have h0 : s.olen.toNat + 1 < 2 ^ 32 := by omega
    have hp := emitBit_position b s h0
    have hk : (emitBit b s).onbits.toNat < 8 := (emitBit b s).onbits.isLt
    obtain ⟨h1, h2⟩ := ih (emitBit b s) (by omega)
    rw [emitBits_cons]
    exact ⟨by rw [h1, writerBits_emitBit b s h0, List.append_assoc]; rfl, by rw [h2, hp]; omega⟩

theorem emitBits_onbits (bs : List Bool) (s : State)
    (h : s.olen.toNat + (s.onbits.toNat + bs.length) / 8 + 1 < 2 ^ 32) :
    (emitBits bs s).onbits.toNat = (s.onbits.toNat + bs.length) % 8 := by
  have := (emitBits_spec bs s h).2
  have : (emitBits bs s).onbits.toNat < 8 := (emitBits bs s).onbits.isLt
  omega

theorem emitBits_olen (bs : List Bool) (s : State)
    (h : s.olen.toNat + (s.onbits.toNat + bs.length) / 8 + 1 < 2 ^ 32) :
    (emitBits bs s).olen.toNat = s.olen.toNat + (s.onbits.toNat + bs.length) / 8 := by
  have := (emitBits_spec bs s h).2
  have : (emitBits bs s).onbits.toNat < 8 := (emitBits bs s).onbits.isLt
  omega

/-- The unwritten positions of the partial byte hold 0 (R200). -/
def PartialClean (s : State) : Prop :=
  ∀ k, s.onbits.toNat ≤ k → k < 8 → s.oacc.getLsbD (bitPos s.cfg.bitOrder k) = false

theorem emitBit_partialClean (b : Bool) (s : State) (h : PartialClean s) : PartialClean (emitBit b s) := by
  have hk : s.onbits.toNat < 8 := s.onbits.isLt
  intro k hle hlt
  by_cases h7 : s.onbits.toNat = 7
  · rw [emitBit_last h7]; simp
  · rw [emitBit_mid h7, setPartial_onbits, toNat_onbits_succ h7] at hle
    rw [emitBit_mid h7, setPartial_oacc, setPartial_cfg, accWith,
      getLsbD_setBitAt s.oacc (bitPos_lt _ hk) (bitPos_lt _ hlt), if_neg, h k (by omega) hlt]
    intro he
    exact absurd (bitPos_inj _ hlt hk he) (by omega)

theorem emitBits_partialClean (bs : List Bool) (s : State) (h : PartialClean s) : PartialClean (emitBits bs s) := by
  induction bs generalizing s with
  | nil => exact h
  | cons b bs ih => exact ih _ (emitBit_partialClean b s h)

/-! ## What the writer stores -/

theorem emitByte_read?_other (v : Byte) {s : State} {k : Nat} (h : k ≠ s.olen.toNat) :
    Memory.read? (emitByte v s).obuf k = Memory.read? s.obuf k := by
  rw [emitByte_obuf, read?_write_other _ h]

theorem emitBytes_read?_outside (bs : List Byte) (s : State) (h : s.olen.toNat + bs.length < 2 ^ 32) {k : Nat}
    (hk : k < s.olen.toNat ∨ s.olen.toNat + bs.length ≤ k) :
    Memory.read? (emitBytes bs s).obuf k = Memory.read? s.obuf k := by
  induction bs generalizing s with
  | nil => rfl
  | cons b bs ih =>
    simp only [List.length_cons] at h hk
    have h1 : (emitByte b s).olen.toNat = s.olen.toNat + 1 := by
      rw [emitByte_olen, BitVec.toNat_ofNat, Nat.mod_eq_of_lt (by omega)]
    rw [emitBytes_cons, ih _ (by omega) (by omega), emitByte_read?_other b (by omega)]

/-- The bytes from `OLEN` on that `EmitBytes` writes are written. -/
theorem emitBytes_read?_isSome (bs : List Byte) (s : State) {k : Nat} (h : s.olen.toNat + bs.length < 2 ^ 32)
    (hlo : s.olen.toNat ≤ k) (hhi : k < s.olen.toNat + bs.length) :
    (Memory.read? (emitBytes bs s).obuf k).isSome = true := by
  induction bs generalizing s with
  | nil => exact absurd hhi (Nat.not_lt.2 hlo)
  | cons b bs ih =>
    simp only [List.length_cons] at h hhi
    have h1 : (emitByte b s).olen.toNat = s.olen.toNat + 1 := by
      rw [emitByte_olen, BitVec.toNat_ofNat, Nat.mod_eq_of_lt (by omega)]
    rw [emitBytes_cons]
    by_cases hk : k = s.olen.toNat
    · rw [emitBytes_read?_outside _ _ (by omega) (by omega), hk, emitByte_obuf, read?_write_same]
      rfl
    · exact ih _ (by omega) (by omega) (by omega)

/-- An input byte and an output byte that hold the same written byte. -/
theorem inByte_eq_outByte {u t : State} {j k : Nat} {b : Byte} (hj : Memory.read? u.ibuf j = some b)
    (hk : Memory.read? t.obuf k = some b) : inByte u j = outByte t k := by
  unfold inByte outByte
  rw [hj, hk]

theorem emitBit_read?_outside (b : Bool) (s : State) (h : s.olen.toNat + 1 < 2 ^ 32) {k : Nat}
    (hk : k < s.olen.toNat ∨ (emitBit b s).olen.toNat ≤ k) :
    Memory.read? (emitBit b s).obuf k = Memory.read? s.obuf k := by
  by_cases h7 : s.onbits.toNat = 7
  · have h1 : (emitBit b s).olen.toNat = s.olen.toNat + 1 := by
      rw [emitBit_last h7, clearPartial_olen, emitByte_olen, BitVec.toNat_ofNat, Nat.mod_eq_of_lt h]
    rw [emitBit_last h7, clearPartial_obuf, emitByte_read?_other _ (by omega)]
  · rw [emitBit_mid h7, setPartial_obuf]

theorem emitBits_read?_outside (bs : List Bool) (s : State)
    (h : s.olen.toNat + (s.onbits.toNat + bs.length) / 8 + 1 < 2 ^ 32) {k : Nat}
    (hk : k < s.olen.toNat ∨ s.olen.toNat + (s.onbits.toNat + bs.length) / 8 ≤ k) :
    Memory.read? (emitBits bs s).obuf k = Memory.read? s.obuf k := by
  induction bs generalizing s with
  | nil => rfl
  | cons b bs ih =>
    simp only [List.length_cons] at h hk
    have h0 : s.olen.toNat + 1 < 2 ^ 32 := by omega
    have hp := emitBit_position b s h0
    have hl : (emitBit b s).onbits.toNat < 8 := (emitBit b s).onbits.isLt
    have hs : s.onbits.toNat < 8 := s.onbits.isLt
    rw [emitBits_cons, ih (emitBit b s) (by omega) (by omega), emitBit_read?_outside b s h0 (by omega)]

/-- The output buffer in canonical form, in range, and written below `OLEN` (R35, R44). -/
structure OutputOk (s : State) : Prop where
  canonical : Memory.wf s.obuf
  inRange : ∀ c ∈ s.obuf, c.1 < s.cfg.obufSize
  completed : ∀ k, k < s.olen.toNat → (Memory.read? s.obuf k).isSome = true

theorem emitByte_outputOk (v : Byte) {s : State} (h : OutputOk s) (hfit : bytesFit 1 s)
    (hsize : s.cfg.obufSize < 2 ^ 32) : OutputOk (emitByte v s) := by
  have h1 : (emitByte v s).olen.toNat = s.olen.toNat + 1 := by
    rw [emitByte_olen, BitVec.toNat_ofNat, Nat.mod_eq_of_lt (by omega)]
  refine ⟨write_wf h.canonical _ _, write_range h.inRange (by omega) _, fun k hk => ?_⟩
  rw [emitByte_obuf, read?_write]
  split
  · rfl
  · exact h.completed k (by omega)

theorem emitBytes_outputOk (bs : List Byte) {s : State} (h : OutputOk s) (hfit : bytesFit bs.length s)
    (hsize : s.cfg.obufSize < 2 ^ 32) : OutputOk (emitBytes bs s) := by
  induction bs generalizing s with
  | nil => exact h
  | cons b bs ih =>
    simp only [bytesFit, List.length_cons] at hfit
    have h1 : (emitByte b s).olen.toNat = s.olen.toNat + 1 := by
      rw [emitByte_olen, BitVec.toNat_ofNat, Nat.mod_eq_of_lt (by omega)]
    exact ih (emitByte_outputOk b h (by simp only [bytesFit]; omega) hsize)
      (by simp only [bytesFit, h1, emitByte_cfg]; omega) hsize

theorem emitBit_outputOk (b : Bool) {s : State} (h : OutputOk s) (hfit : bitsFit 1 s)
    (hsize : s.cfg.obufSize < 2 ^ 32) : OutputOk (emitBit b s) := by
  by_cases h7 : s.onbits.toNat = 7
  · rw [emitBit_last h7]
    simp only [bitsFit, bytesFit, h7] at hfit
    have := emitByte_outputOk (accWith b s) h (by simp only [bytesFit]; omega) hsize
    exact ⟨this.canonical, this.inRange, this.completed⟩
  · rw [emitBit_mid h7]
    exact ⟨h.canonical, h.inRange, h.completed⟩

theorem emitBits_outputOk (bs : List Bool) {s : State} (h : OutputOk s) (hfit : bitsFit bs.length s)
    (hsize : s.cfg.obufSize < 2 ^ 32 - 1) : OutputOk (emitBits bs s) := by
  induction bs generalizing s with
  | nil => exact h
  | cons b bs ih =>
    simp only [bitsFit, bytesFit, List.length_cons] at hfit
    have h0 : s.olen.toNat + 1 < 2 ^ 32 := by omega
    have hp := emitBit_position b s h0
    have hl : (emitBit b s).onbits.toNat < 8 := (emitBit b s).onbits.isLt
    have hs : s.onbits.toNat < 8 := s.onbits.isLt
    have hc : (emitBit b s).cfg = s.cfg := by rw [emitBit_frame b s]
    exact ih (emitBit_outputOk b h (by simp only [bitsFit, bytesFit]; omega) (by omega))
      (by simp only [bitsFit, bytesFit, hc]; omega) (by rw [hc]; exact hsize)

/-! ## Integers on a stream -/

theorem length_intToBytes (o : IntOrder) (v : Word) : (intToBytes o v).length = 4 := by cases o <;> rfl

/-- `BytesToInt` undoes `IntToBytes` (R66). -/
theorem bytesToInt_intToBytes (o : IntOrder) (v : Word) (b0 b1 b2 b3 : Byte)
    (h : intToBytes o v = [b0, b1, b2, b3]) : bytesToInt o b0 b1 b2 b3 = v := by
  have key : wordOfBytes (v.extractLsb' 24 8) (v.extractLsb' 16 8) (v.extractLsb' 8 8) (v.extractLsb' 0 8) = v := by
    apply BitVec.eq_of_getLsbD_eq
    intro i hi
    simp only [wordOfBytes, BitVec.getLsbD_append, BitVec.getLsbD_extractLsb']
    by_cases h8 : i < 8
    · simp [h8]
    · by_cases h16 : i - 8 < 8
      · simp [h8, h16]; congr 1; omega
      · by_cases h24 : i - 8 - 8 < 8
        · simp [h8, h16, h24]; congr 1; omega
        · have h32 : i - 8 - 8 - 8 < 8 := by omega
          simp [h8, h16, h24, h32]; congr 1; omega
  cases o <;> simp only [intToBytes, List.cons.injEq] at h <;> obtain ⟨rfl, rfl, rfl, rfl, -⟩ := h <;> exact key

end Sys2Proof.Laws
end

