-- ==== Sys2Proof/Laws/Tables.lean ====
section
/-! SUPPORT. The tables: reads after writes of `FREQ`, `LEAFIDX` and the arena (00_scope.md R10), the alphabet of a table
(42_tree_build.md R144), and the smallest key of a live set (R142, R143). -/

namespace Sys2Proof.Laws

open Sys2Proof.Machine

/-! ## Reads after writes -/

theorem freqAt_setFreqAt (f : FreqTable) (a b : Byte) (v : Word) :
    freqAt (setFreqAt f a v) b = if b = a then v else freqAt f b := by
  unfold freqAt setFreqAt
  rw [Vector.getElem_set]
  by_cases h : b = a
  · subst h; simp
  · have : ¬a.toNat = b.toNat := fun he => h (BitVec.eq_of_toNat_eq he.symm)
    simp [h, this]

theorem freqAt_replicate (v : Word) (a : Byte) : freqAt (Vector.replicate NSYM v) a = v := by
  simp [freqAt]

theorem leafAt_set (idx : LeafIndex) (a b : Byte) (v : Option Slot) :
    leafAt (idx.set a.toNat v a.isLt) b = if b = a then v else leafAt idx b := by
  unfold leafAt
  rw [Vector.getElem_set]
  by_cases h : b = a
  · subst h; simp
  · have : ¬a.toNat = b.toNat := fun he => h (BitVec.eq_of_toNat_eq he.symm)
    simp [h, this]

theorem leafAt_replicate (v : Option Slot) (a : Byte) : leafAt (Vector.replicate NSYM v) a = v := by
  simp [leafAt]

theorem nodeAt_setNodeAt (ar : Arena) (i j : Slot) (n : Node) :
    nodeAt (setNodeAt ar i n) j = if j = i then n else nodeAt ar j := by
  unfold nodeAt setNodeAt
  rw [Vector.getElem_set]
  by_cases h : j = i
  · subst h; simp
  · have : ¬i.val = j.val := fun he => h (Fin.ext he.symm)
    simp [h, this]

theorem nodeAt_setParent (ar : Arena) (i m j : Slot) :
    nodeAt (setParent ar i m) j =
      if j = i then { nodeAt ar i with parent := some m } else nodeAt ar j :=
  nodeAt_setNodeAt ar i j _

/-- Two tables with the same entries are the same table. -/
theorem freqTable_ext {f g : FreqTable} (h : ∀ a, freqAt f a = freqAt g a) : f = g := by
  apply Vector.ext
  intro k hk
  have := h (BitVec.ofNat 8 k)
  unfold freqAt at this
  simpa [Nat.mod_eq_of_lt hk] using this

/-! ## The alphabet -/

theorem mem_allSymbols (a : Byte) : a ∈ allSymbols := by
  unfold allSymbols
  exact List.mem_map.2 ⟨a.toNat, List.mem_range.2 a.isLt, by simp⟩

theorem mem_alphabet (f : FreqTable) (a : Byte) : a ∈ alphabet f ↔ freqAt f a ≠ 0 := by
  simp [alphabet, mem_allSymbols]

theorem allSymbols_pairwise : allSymbols.Pairwise (fun a b => a.toNat < b.toNat) := by
  unfold allSymbols
  rw [List.pairwise_map]
  refine List.Pairwise.imp_of_mem ?_ List.pairwise_lt_range
  intro a b ha hb hab
  have ha' := List.mem_range.1 ha
  have hb' := List.mem_range.1 hb
  rw [BitVec.toNat_ofNat, BitVec.toNat_ofNat, Nat.mod_eq_of_lt ha', Nat.mod_eq_of_lt hb']
  exact hab

theorem alphabet_pairwise (f : FreqTable) : (alphabet f).Pairwise (fun a b => a.toNat < b.toNat) :=
  allSymbols_pairwise.filter _

theorem alphabet_nodup (f : FreqTable) : (alphabet f).Nodup :=
  (alphabet_pairwise f).imp fun h he => Nat.ne_of_lt h (congrArg _ he)

theorem length_alphabet_le (f : FreqTable) : (alphabet f).length ≤ 256 := by
  have h : (alphabet f).length ≤ allSymbols.length := List.length_filter_le _ _
  simpa [allSymbols] using h

theorem slotOf_val {k : Nat} (h : k < 511) : (slotOf k).val = k := Nat.mod_eq_of_lt h

/-! ## The smallest key -/

theorem keyLt_iff (ar : Arena) (i j : Slot) : keyLt ar i j = true ↔
    (nodeAt ar i).count < (nodeAt ar j).count ∨ ((nodeAt ar i).count = (nodeAt ar j).count ∧ i.val < j.val) := by
  simp [keyLt]

theorem keyLt_trans {ar : Arena} {i j k : Slot} (h1 : keyLt ar i j = true) (h2 : keyLt ar j k = true) :
    keyLt ar i k = true := by
  rw [keyLt_iff] at *
  omega

theorem keyLt_of_not {ar : Arena} {i j : Slot} (hne : i ≠ j) (h : ¬keyLt ar i j = true) : keyLt ar j i = true := by
  rw [keyLt_iff] at *
  have : i.val ≠ j.val := fun he => hne (Fin.ext he)
  omega

theorem pickMin_mem {ar : Arena} {live : List Slot} {i : Slot} (h : pickMin ar live = some i) : i ∈ live := by
  induction live generalizing i with
  | nil => simp [pickMin] at h
  | cons a rest ih =>
    simp only [pickMin] at h
    split at h
    · cases h; exact List.mem_cons_self
    · next j hj =>
      split at h <;> cases h
      · exact List.mem_cons_self
      · exact List.mem_cons_of_mem _ (ih hj)

/-- `PickMin` finds a member of every nonempty set. -/
theorem pickMin_isSome (ar : Arena) {live : List Slot} (h : live ≠ []) : ∃ i, pickMin ar live = some i := by
  cases live with
  | nil => exact absurd rfl h
  | cons a rest =>
    simp only [pickMin]
    split
    · exact ⟨a, rfl⟩
    · split <;> exact ⟨_, rfl⟩

end Sys2Proof.Laws
end

