-- ==== Sys2Proof/Laws/Commands.lean ====
section
/-! SUPPORT. What a command can do, said once: the one inversion lemma of `exec` (60_exceptions.md R260), which proofs
about every command cite instead of unfolding the meanings. -/

namespace Sys2Proof.Laws

open Sys2Proof.Machine Sys2Proof.Safety

/-- The writes `u` that the body of command `i`, begun in `s`, can commit, with the checks it has passed. -/
def Effect (i : Instr) (s u : State) : Prop :=
  match i with
  | .nop => u = s
  | .clrf => u = { s with freq := Vector.replicate NSYM 0, total := 0, treeValid := false }
  | .setf sym => u = { s with freq := setFreqAt s.freq sym s.arg, treeValid := false }
  | .getf sym => u = { s with result := freqAt s.freq sym }
  | .count sym => (freqAt s.freq sym).toNat < 0xFFFFFFFF ∧ s.total.toNat < 0xFFFFFFFF ∧
      u = { s with freq := setFreqAt s.freq sym (BitVec.ofNat 32 ((freqAt s.freq sym).toNat + 1))
                   total := BitVec.ofNat 32 (s.total.toNat + 1)
                   treeValid := false }
  | .sett => u = { s with total := s.arg }
  | .build => 1 ≤ (alphabet s.freq).length ∧ ¬((alphabet s.freq).length = 1 ∧ s.cfg.singleMode = .reject) ∧
      u = buildTree s
  | .codelen sym => s.treeValid = true ∧ ∃ i path, leafAt s.leafIdx sym = some i ∧ pathOf s i = some path ∧
      u = { s with result := BitVec.ofNat 32 path.length }
  | .encode sym => s.treeValid = true ∧ ∃ i path, leafAt s.leafIdx sym = some i ∧ pathOf s i = some path ∧
      bitsFit path.length s ∧ u = setResult (BitVec.ofNat 32 path.length) (emitBits path s)
  | .decode => s.treeValid = true ∧ ∃ i p sym,
      walkDown s (8 * s.ilen.toNat - s.ipos.toNat) s.ipos.toNat s.root = some (i, p) ∧
      (nodeAt s.nodes i).body = .leaf sym ∧ u = setResult (sym.setWidth 32) (setIpos p s)
  | .putbit => s.arg.toNat ≤ 1 ∧ bitsFit 1 s ∧ u = emitBit (s.arg.getLsbD 0) s
  | .putbyte => s.arg.toNat ≤ 0xFF ∧ s.onbits = 0 ∧ bytesFit 1 s ∧ u = emitByte (s.arg.extractLsb' 0 8) s
  | .putint => s.onbits = 0 ∧ bytesFit 4 s ∧ u = emitBytes (intToBytes s.cfg.intOrder s.arg) s
  | .flush => (s.onbits = 0 ∧ u = s) ∨ (s.onbits ≠ 0 ∧ bytesFit 1 s ∧ u = clearPartial (emitByte s.oacc s))
  | .oclr => u = { s with olen := 0 }
  | .getbit => s.ipos.toNat < 8 * s.ilen.toNat ∧
      u = setResult ((bit (readBitAt s s.ipos.toNat)).setWidth 32) (setIpos (s.ipos.toNat + 1) s)
  | .getbyte => readerAligned s ∧ bytesRemain 1 s ∧
      u = setResult ((readByteAt s (inIndex s)).setWidth 32) (setIpos (s.ipos.toNat + 8) s)
  | .getint => readerAligned s ∧ bytesRemain 4 s ∧
      u = setResult (readIntAt s (inIndex s)) (setIpos (s.ipos.toNat + 32) s)
  | .irewind => u = { s with ipos := 0 }
  | .wrhdr => s.onbits = 0 ∧ bytesFit HDRBYTES s ∧ u = emitBytes (headerBytes s) s
  | .rdhdr => readerAligned s ∧ bytesRemain HDRBYTES s ∧
      u = invalidateTree (setIpos (s.ipos.toNat + 8 * HDRBYTES)
        { s with total := readIntAt s (inIndex s), freq := headerFreq s (inIndex s) })

/-- How a command begun in `s` can end in `t`: with an error and none of its writes, or with writes `P` allows. -/
def EndsIn (s t : State) (P : State → Prop) : Prop := (∃ e, e ≠ .ok ∧ t = ended e s) ∨ ∃ u, P u ∧ t = ended .ok u

theorem endsIn_raise {e : ErrCode} {s t : State} {P : State → Prop}
    (h : raiseError e s = .next t) (he : e ≠ .ok := by decide) : EndsIn s t P := by
  cases h; exact .inl ⟨e, he, rfl⟩

theorem endsIn_complete {s t u : State} {P : State → Prop} (hu : P u) (h : complete u = .next t) : EndsIn s t P := by
  cases h; exact .inr ⟨u, hu, rfl⟩

theorem endsIn_assert {c : Prop} [Decidable c] {e : ErrCode} {s t : State} {body : Out} {P : State → Prop}
    (h : assertOrRaise c e s body = .next t) (hb : c → body = .next t → EndsIn s t P)
    (he : e ≠ .ok := by decide) : EndsIn s t P := by
  rcases assertOrRaise_cases h with ⟨-, h⟩ | ⟨hc, h⟩
  · exact endsIn_raise h.symm he
  · exact hb hc h.symm

theorem endsIn_withPath {sym : Byte} {s t : State} {body : List Bool → Out} {P : State → Prop}
    (h : withPath sym s body = .next t)
    (hb : s.treeValid = true → ∀ i path, leafAt s.leafIdx sym = some i → pathOf s i = some path →
      body path = .next t → EndsIn s t P) : EndsIn s t P := by
  refine endsIn_assert h fun hv h => ?_
  split at h
  · exact endsIn_raise h
  · next i hi =>
    split at h
    · cases h
    · next path hp => exact hb hv i path hi hp h

/-- What a command can do. -/
theorem exec_cases {i : Instr} {s t : State} (h : exec i s = .next t) : EndsIn s t (Effect i s) := by
  cases i with
  | nop => exact endsIn_complete rfl h
  | clrf => exact endsIn_complete rfl h
  | setf sym => exact endsIn_complete rfl h
  | getf sym => exact endsIn_complete rfl h
  | count sym =>
    exact endsIn_assert h fun h1 h => endsIn_assert h fun h2 h => endsIn_complete ⟨h1, h2, rfl⟩ h
  | sett => exact endsIn_complete rfl h
  | build =>
    exact endsIn_assert h fun h1 h => endsIn_assert h fun h2 h => endsIn_complete ⟨h1, h2, rfl⟩ h
  | codelen sym =>
    exact endsIn_withPath h fun hv i path hi hp h => endsIn_complete ⟨hv, i, path, hi, hp, rfl⟩ h
  | encode sym =>
    exact endsIn_withPath h fun hv i path hi hp h =>
      endsIn_assert h fun hf h => endsIn_complete ⟨hv, i, path, hi, hp, hf, rfl⟩ h
  | decode =>
    refine endsIn_assert h fun hv h => ?_
    split at h
    · exact endsIn_raise h
    · next i p hw =>
      split at h
      · next sym hb => exact endsIn_complete ⟨hv, i, p, sym, hw, hb, rfl⟩ h
      · exact endsIn_raise h
      · exact endsIn_raise h
  | putbit =>
    by_cases ha : s.arg.toNat ≤ 1
    · simp only [exec, execPutbit, bitOperand, if_pos ha] at h
      exact endsIn_assert h fun hf h => endsIn_complete ⟨ha, hf, rfl⟩ h
    · simp only [exec, execPutbit, bitOperand, if_neg ha] at h
      exact endsIn_raise h
  | putbyte =>
    by_cases ha : s.arg.toNat ≤ 0xFF
    · simp only [exec, execPutbyte, byteOperand, if_pos ha] at h
      exact endsIn_assert h fun h1 h => endsIn_assert h fun h2 h => endsIn_complete ⟨ha, h1, h2, rfl⟩ h
    · simp only [exec, execPutbyte, byteOperand, if_neg ha] at h
      exact endsIn_raise h
  | putint =>
    exact endsIn_assert h fun h1 h => endsIn_assert h fun h2 h => endsIn_complete ⟨h1, h2, rfl⟩ h
  | flush =>
    by_cases ha : s.onbits = 0
    · exact endsIn_complete (.inl ⟨ha, rfl⟩) ((if_pos ha).symm.trans h)
    · exact endsIn_assert ((if_neg ha).symm.trans h) fun hf h => endsIn_complete (.inr ⟨ha, hf, rfl⟩) h
  | oclr => exact endsIn_complete rfl h
  | getbit => exact endsIn_assert h fun h1 h => endsIn_complete ⟨h1, rfl⟩ h
  | getbyte =>
    exact endsIn_assert h fun h1 h => endsIn_assert h fun h2 h => endsIn_complete ⟨h1, h2, rfl⟩ h
  | getint =>
    exact endsIn_assert h fun h1 h => endsIn_assert h fun h2 h => endsIn_complete ⟨h1, h2, rfl⟩ h
  | irewind => exact endsIn_complete rfl h
  | wrhdr =>
    exact endsIn_assert h fun h1 h => endsIn_assert h fun h2 h => endsIn_complete ⟨h1, h2, rfl⟩ h
  | rdhdr =>
    exact endsIn_assert h fun h1 h => endsIn_assert h fun h2 h => endsIn_complete ⟨h1, h2, rfl⟩ h

/-- `BUILD` of a table it can build a tree for (R150). -/
theorem exec_build {s : State} (h1 : 1 ≤ (alphabet s.freq).length)
    (h2 : ¬((alphabet s.freq).length = 1 ∧ s.cfg.singleMode = .reject)) :
    exec .build s = .next (ended .ok (buildTree s)) := by
  show assertOrRaise _ _ _ _ = _
  rw [assertOrRaise_of h1, assertOrRaise_of h2, complete_eq]

/-- `WRHDR` when its 1028 bytes fit (R240). -/
theorem exec_wrhdr {s : State} (h1 : s.onbits = 0) (h2 : bytesFit HDRBYTES s) :
    exec .wrhdr s = .next (ended .ok (emitBytes (headerBytes s) s)) := by
  show assertOrRaise _ _ _ _ = _
  rw [assertOrRaise_of h1, assertOrRaise_of h2, complete_eq]

/-- `RDHDR` when 1028 bytes remain (R241). -/
theorem exec_rdhdr {s : State} (h1 : readerAligned s) (h2 : bytesRemain HDRBYTES s) :
    exec .rdhdr s = .next (ended .ok (invalidateTree (setIpos (s.ipos.toNat + 8 * HDRBYTES)
      { s with total := readIntAt s (inIndex s), freq := headerFreq s (inIndex s) }))) := by
  show assertOrRaise _ _ _ _ = _
  rw [assertOrRaise_of h1, assertOrRaise_of h2, complete_eq]

theorem length_headerBytes (s : State) : (headerBytes s).length = HDRBYTES := by
  unfold headerBytes
  rw [List.length_append, length_intToBytes, List.length_flatMap]
  simp [Function.comp_def, length_intToBytes, allSymbols]
  rfl

/-- What no command's body writes (R24, R29, R33, R43): everything outside the fields named. -/
theorem effect_frame {i : Instr} {s u : State} (h : Effect i s u) :
    u = { s with result := u.result, total := u.total, freq := u.freq, treeValid := u.treeValid, nodes := u.nodes,
                 root := u.root, nleaf := u.nleaf, leafIdx := u.leafIdx, ipos := u.ipos, obuf := u.obuf,
                 olen := u.olen, onbits := u.onbits, oacc := u.oacc } := by
  have hbits : ∀ bs : List Bool, SameButWriter s (emitBits bs s) := fun bs => emitBits_frame bs s
  unfold SameButWriter at hbits
  cases i <;> simp only [Effect] at h
  case putbyte => obtain ⟨-, -, -, rfl⟩ := h; rfl
  case count | getbyte | getint | rdhdr | build => obtain ⟨-, -, h⟩ := h; subst h; rfl
  case codelen => obtain ⟨-, _, _, -, -, rfl⟩ := h; rfl
  case encode => obtain ⟨-, _, path, -, -, -, rfl⟩ := h; rw [hbits path]; rfl
  case decode => obtain ⟨-, _, _, _, -, -, rfl⟩ := h; rfl
  case putbit => obtain ⟨-, -, rfl⟩ := h; rw [show emitBit _ s = emitBits [_] s from rfl, hbits]
  case putint | wrhdr => obtain ⟨-, -, rfl⟩ := h; rw [emitBytes_frame _ s]
  case flush => rcases h with ⟨-, rfl⟩ | ⟨-, -, rfl⟩ <;> rfl
  case getbit => obtain ⟨-, rfl⟩ := h; rfl
  all_goals rw [h]

end Sys2Proof.Laws
end

