-- ==== Sys2Proof/Laws/Decode.lean ====
section
/-! SUPPORT. The fields of a command word (30_encoding.md R90): the fields of an encoded command, and a word from its
fields. -/

namespace Sys2Proof.Laws

theorem opcField_encode (i : Instr) : opcField (encode i) = i.opcode := by
  apply BitVec.eq_of_getLsbD_eq
  intro k hk
  simp only [opcField, encode, BitVec.getLsbD_append, BitVec.getLsbD_extractLsb']
  simp [hk]

theorem symField_encode (i : Instr) : symField (encode i) = i.symbol := by
  apply BitVec.eq_of_getLsbD_eq
  intro k hk
  simp only [symField, encode, BitVec.getLsbD_append, BitVec.getLsbD_extractLsb']
  simp [hk]

theorem resField_encode (i : Instr) : resField (encode i) = 0 := by
  apply BitVec.eq_of_getLsbD_eq
  intro k hk
  have h1 : ¬16 + k < 8 := by omega
  have h2 : ¬16 + k - 8 < 8 := by omega
  simp only [resField, encode, BitVec.getLsbD_append, BitVec.getLsbD_extractLsb']
  simp [h1, h2]

/-- A word is made of its three fields. -/
theorem word_of_fields (w : Word) :
    w = (resField w ++ symField w ++ opcField w : BitVec (16 + 8 + 8)) := by
  apply BitVec.eq_of_getLsbD_eq
  intro k hk
  simp only [resField, symField, opcField, BitVec.getLsbD_append, BitVec.getLsbD_extractLsb']
  by_cases h8 : k < 8
  · simp [h8]
  · by_cases h16 : k - 8 < 8
    · simp [h8, h16]; congr 1; omega
    · have h32 : k - 8 - 8 < 16 := by omega
      simp [h8, h16, h32]; congr 1; omega

/-- The opcode map gives each command its own opcode and format. -/
theorem opcodeMap_opcode (i : Instr) : ∃ make, opcodeMap i.opcode = some (i.format, make) ∧ make i.symbol = i := by
  cases i <;> exact ⟨_, rfl, rfl⟩

/-- A format N command has symbol field 0. -/
theorem symbol_formatN {i : Instr} (h : i.format = .n) : i.symbol = 0 := by
  cases i <;> first | rfl | cases h

end Sys2Proof.Laws
end

