-- ==== Sys2Proof/Laws/PerInstr.lean ====
section
/-! SUPPORT. Statements about every command as syntax, one lemma per constructor. -/

namespace Sys2Proof.Laws.EncodedFields

/-- The encoded word of a command has its opcode, its symbol and zero reserved bits, and a format N command's symbol
field is 0 (30_encoding.md R90, R92). -/
def Statement (i : Instr) : Prop :=
  opcField (encode i) = i.opcode ∧ symField (encode i) = i.symbol ∧ resField (encode i) = 0 ∧
    (i.format = .n → symField (encode i) = 0)

theorem ofInstr (i : Instr) : Statement i :=
  ⟨opcField_encode i, symField_encode i, resField_encode i, fun h => by rw [symField_encode, symbol_formatN h]⟩

theorem nop : Statement .nop := ofInstr _
theorem clrf : Statement .clrf := ofInstr _
theorem setf (sym : Byte) : Statement (.setf sym) := ofInstr _
theorem getf (sym : Byte) : Statement (.getf sym) := ofInstr _
theorem count (sym : Byte) : Statement (.count sym) := ofInstr _
theorem sett : Statement .sett := ofInstr _
theorem build : Statement .build := ofInstr _
theorem codelen (sym : Byte) : Statement (.codelen sym) := ofInstr _
theorem encode (sym : Byte) : Statement (.encode sym) := ofInstr _
theorem decode : Statement .decode := ofInstr _
theorem putbit : Statement .putbit := ofInstr _
theorem putbyte : Statement .putbyte := ofInstr _
theorem putint : Statement .putint := ofInstr _
theorem flush : Statement .flush := ofInstr _
theorem oclr : Statement .oclr := ofInstr _
theorem getbit : Statement .getbit := ofInstr _
theorem getbyte : Statement .getbyte := ofInstr _
theorem getint : Statement .getint := ofInstr _
theorem irewind : Statement .irewind := ofInstr _
theorem wrhdr : Statement .wrhdr := ofInstr _
theorem rdhdr : Statement .rdhdr := ofInstr _

end Sys2Proof.Laws.EncodedFields
end

