-- ==== Sys2Proof/Laws/Step.lean ====
section
/-! SUPPORT. What one step can do, said once: the engine's step (60_exceptions.md R260), the host's transactions
(20_memory.md R60 to R65, R71) and reset (70_reset_and_hazards.md R290, R291). -/

namespace Sys2Proof.Laws

open Sys2Proof.Machine Sys2Proof.Safety

/-- One move of the block or the host. -/
inductive Moves (s t : State) : Prop where
  /-- The agent whose turn it is cannot move. -/
  | idle (h : t = s)
  /-- The engine executes the pending command. -/
  | command (w : Word) (hp : s.phase = .running) (hb : s.busy = true) (hw : s.pending = some w)
      (h : execute w s = .next t)
  /-- The initialisation period ends. -/
  | initialised (hp : s.phase = .initialising) (h : t = endInitialisation s)
  /-- The host performs its next operation. -/
  | host (op : HostOp) (rest : List HostOp) (hp : s.phase ≠ .inReset) (hh : s.host = op :: rest)
      (h : hostOp op { s with host := rest } = .next t)

theorem engineStep_moves {s t : State} (h : engineStep s = .next t) : Moves s t := by
  unfold engineStep at h
  split at h
  · cases h; exact .idle rfl
  · next hp => cases h; exact .initialised hp rfl
  · next hp =>
    split at h
    · next w hb hw => exact .command w hp hb hw h
    · cases h; exact .idle rfl
    · cases h; exact .idle rfl

theorem hostStep_moves {s t : State} (h : hostStep s = .next t) : Moves s t := by
  unfold hostStep at h
  split at h
  · cases h; exact .idle rfl
  · next op rest hh =>
    by_cases hp : s.phase = .inReset
    · rw [if_pos hp] at h; cases h
    · rw [if_neg hp] at h; exact .host op rest hp hh h

/-- What one step can do. -/
theorem step_cases {s t : State} (h : step s = .next t) :
    (s.sched = [] ∧ Moves s t) ∨ (∃ turn ts, s.sched = turn :: ts ∧ Moves { s with sched := ts } t) ∨
      (∃ ts, s.sched = .assertReset :: ts ∧ t = assertReset { s with sched := ts }) ∨
      (∃ ts, s.sched = .releaseReset :: ts ∧ t = releaseReset { s with sched := ts }) := by
  unfold step nextMove at h
  split at h
  · next turn ts hs =>
    cases turn with
    | engine => exact .inr (.inl ⟨_, ts, hs, engineStep_moves h⟩)
    | host => exact .inr (.inl ⟨_, ts, hs, hostStep_moves h⟩)
    | assertReset => cases h; exact .inr (.inr (.inl ⟨ts, hs, rfl⟩))
    | releaseReset => cases h; exact .inr (.inr (.inr ⟨ts, hs, rfl⟩))
  · next hs =>
    split at h
    · exact .inl ⟨hs, engineStep_moves h⟩
    · exact .inl ⟨hs, hostStep_moves h⟩

/-- A pending word ends as an error or as its command does. -/
theorem execute_cases {w : Word} {s t : State} (h : execute w s = .next t) :
    (∃ e, e ≠ .ok ∧ t = ended e s) ∨ ∃ i u, decode w = .ok i ∧ exec i s = .next t ∧ Effect i s u ∧ t = ended .ok u := by
  unfold execute at h
  split at h
  · next i hi =>
    rcases exec_cases h with h' | ⟨u, hu, ht⟩
    · exact .inl h'
    · exact .inr ⟨i, u, hi, h, hu, ht⟩
  · cases h; exact .inl ⟨.illegalCmd, by decide, rfl⟩

/-- `t` is `s` but for the host's own state. -/
def SameBlock (s t : State) : Prop :=
  t = { s with host := t.host, reads := t.reads, draws := t.draws, hostStop := t.hostStop }

theorem sameBlock_ite {c : Prop} [Decidable c] {s a b : State} (ha : SameBlock s a) (hb : SameBlock s b) :
    SameBlock s (if c then a else b) := by
  split
  · exact ha
  · exact hb

theorem hostRead_next {w : Width} {a : Addr} {s t : State} (h : hostRead w a s = .next t) :
    t = recordRead (readPort w a s) s := by
  unfold hostRead at h
  by_cases ha : admitted w a = true
  · rw [if_pos ha] at h; cases h; rfl
  · rw [if_neg ha] at h; cases h

theorem hostWrite_next {w : Width} {a : Addr} {d : Word} {s t : State} (h : hostWrite w a d s = .next t) :
    admitted w a = true ∧ t = writePort w a d s := by
  unfold hostWrite at h
  by_cases ha : admitted w a = true
  · rw [if_pos ha] at h; cases h; exact ⟨ha, rfl⟩
  · rw [if_neg ha] at h; cases h

/-- An operation of the host is a write transaction, or leaves the block as it is. -/
theorem hostOp_cases {op : HostOp} {s t : State} (h : hostOp op s = .next t) :
    (∃ w a d, op = .write w a d ∧ admitted w a = true ∧ t = writePort w a d s) ∨ SameBlock s t := by
  cases op with
  | read w a => exact .inr (hostRead_next h ▸ rfl)
  | write w a d => exact .inl ⟨w, a, d, rfl, hostWrite_next h⟩
  | wait => cases h; exact .inr (sameBlock_ite rfl rfl)
  | check => cases h; exact .inr (sameBlock_ite rfl rfl)
  | readout => cases h; exact .inr rfl
  | readBytes k n =>
    cases n with
    | zero => cases h; exact .inr rfl
    | succ n => exact .inr (hostRead_next (s := pushHost [.readBytes (k + 1) n] s) h ▸ rfl)
  | decodeTotal => cases h; exact .inr (sameBlock_ite rfl rfl)
  | decodeLoop n => cases n <;> cases h <;> exact .inr rfl

theorem regionOf_registers {a : Addr} {k : Nat} (h : regionOf a = .registers k) : a.toNat = k := by
  unfold regionOf at h
  split at h
  · exact Region.registers.inj h
  · split at h
    · cases h
    · split at h <;> cases h

/-- What an admitted write can do (R29, R22, R63). -/
theorem writePort_cases (w : Width) (a : Addr) (d : Word) (s : State) :
    (s.busy = true ∧ writePort w a d s = { s with lost := true }) ∨
      (s.busy = false ∧
        (writePort w a d s = s ∨ writePort w a d s = latchCommand d s ∨ writePort w a d s = { s with arg := d } ∨
          (a.toNat = 0x008 ∧ d.getLsbD 4 = true ∧ writePort w a d s = { s with lost := false }) ∨
          (d.toNat ≤ s.cfg.ibufSize ∧ writePort w a d s = { s with ilen := d, ipos := 0 }) ∨
          (d.toNat ≤ 8 * s.ilen.toNat ∧ writePort w a d s = { s with ipos := d }) ∨
          ∃ k, writePort w a d s = writeInputWindow w k d s)) := by
  unfold writePort
  by_cases hb : s.busy = true
  · exact .inl ⟨hb, if_pos hb⟩
  · refine .inr ⟨Bool.eq_false_iff.2 hb, ?_⟩
    rw [if_neg hb]
    unfold writeIdle
    split
    · next offset ho =>
      unfold writeRegister
      split
      · exact .inr (.inl rfl)
      · exact .inr (.inr (.inl rfl))
      · unfold writeStatus
        split
        · next hd =>
          refine .inr (.inr (.inr (.inl ⟨?_, hd, rfl⟩)))
          exact regionOf_registers ho
        · exact .inl rfl
      · unfold writeIlen
        split
        · next hd => exact .inr (.inr (.inr (.inr (.inl ⟨hd, rfl⟩))))
        · exact .inl rfl
      · unfold writeIpos
        split
        · next hd => exact .inr (.inr (.inr (.inr (.inr (.inl ⟨hd, rfl⟩)))))
        · exact .inl rfl
      · exact .inl rfl
    · next k _ => exact .inr (.inr (.inr (.inr (.inr (.inr ⟨k, rfl⟩)))))
    · exact .inl rfl
    · exact .inl rfl

/-- An admitted write while the block is idle has its effect (R22, R63). -/
theorem hostOp_write_idle {w : Width} {a : Addr} {s : State} (d : Word) (ha : admitted w a = true)
    (hb : s.busy = false) : hostOp (.write w a d) s = .next (writeIdle w a d s) := by
  refine (if_pos ha).trans ?_
  rw [writePort, if_neg (by simp [hb])]

/-- An admitted write while `BUSY = 1` only sets `LOST` (R29). -/
theorem hostOp_write_busy {w : Width} {a : Addr} {s : State} (d : Word) (ha : admitted w a = true)
    (hb : s.busy = true) : hostOp (.write w a d) s = .next { s with lost := true } := by
  refine (if_pos ha).trans ?_
  rw [writePort, if_pos hb]

/-- A read while the block is idle shows what the address holds. -/
theorem readPort_idle (w : Width) (a : Addr) {s : State} (hb : s.busy = false) : readPort w a s = readIdle w a s :=
  if_neg (by simp [hb])

/-- A read transaction while the block is idle records what the address holds. -/
theorem hostOp_read_idle {w : Width} {a : Addr} {s : State} (ha : admitted w a = true) (hb : s.busy = false) :
    hostOp (.read w a) s = .next (recordRead (readIdle w a s) s) :=
  (if_pos ha).trans (by rw [readPort_idle w a hb])

/-! ## The windows (R61, R63 to R65) -/

theorem regionOf_inputWindow {k : Nat} (hk : k < 0x10000) : regionOf (BitVec.ofNat 18 (0x10000 + k)) = .inputWindow k := by
  have h : (BitVec.ofNat 18 (0x10000 + k)).toNat = 0x10000 + k := by
    rw [BitVec.toNat_ofNat, Nat.mod_eq_of_lt (by omega)]
  rw [regionOf, h, if_neg (by omega), if_pos (by omega), Nat.add_sub_cancel_left]

theorem regionOf_outputWindow {k : Nat} (hk : k < 0x10000) :
    regionOf (BitVec.ofNat 18 (0x20000 + k)) = .outputWindow k := by
  have h : (BitVec.ofNat 18 (0x20000 + k)).toNat = 0x20000 + k := by
    rw [BitVec.toNat_ofNat, Nat.mod_eq_of_lt (by omega)]
  rw [regionOf, h, if_neg (by omega), if_neg (by omega), if_pos (by omega), Nat.add_sub_cancel_left]

theorem regionOf_reserved {a : Addr} (ha : 0x30000 ≤ a.toNat) : regionOf a = .reserved := by
  rw [regionOf, if_neg (by omega), if_neg (by omega), if_neg (by omega)]

theorem toNat_laneOf (w : Word) (lane : Nat) : (laneOf w lane).toNat = w.toNat / 2 ^ (8 * lane) % 2 ^ 8 := by
  rw [laneOf, BitVec.extractLsb'_toNat, Nat.shiftRight_eq_div_pow]

theorem toNat_wordOfBytes (b3 b2 b1 b0 : Byte) :
    (wordOfBytes b3 b2 b1 b0).toNat = 2 ^ 24 * b3.toNat + 2 ^ 16 * b2.toNat + 2 ^ 8 * b1.toNat + b0.toNat := by
  simp only [wordOfBytes, BitVec.toNat_append]
  rw [← Nat.shiftLeft_add_eq_or_of_lt b0.isLt, ← Nat.shiftLeft_add_eq_or_of_lt b1.isLt,
    ← Nat.shiftLeft_add_eq_or_of_lt b2.isLt]
  simp only [Nat.shiftLeft_eq]
  omega

/-- Each lane of a word read is the byte the window shows there (R65). -/
theorem laneOf_windowData (byteOf : (k lane : Nat) → Byte) (k : Nat) {lane : Nat} (h : lane < 4) :
    laneOf (windowData .w32 byteOf k) lane = byteOf (k + lane) lane := by
  have hw : ∀ b3 b2 b1 b0 : Byte, laneOf (wordOfBytes b3 b2 b1 b0) 0 = b0 ∧ laneOf (wordOfBytes b3 b2 b1 b0) 1 = b1 ∧
      laneOf (wordOfBytes b3 b2 b1 b0) 2 = b2 ∧ laneOf (wordOfBytes b3 b2 b1 b0) 3 = b3 := by
    intro b3 b2 b1 b0
    refine ⟨?_, ?_, ?_, ?_⟩ <;> (apply BitVec.eq_of_toNat_eq; rw [toNat_laneOf, toNat_wordOfBytes]; omega)
  obtain ⟨h0, h1, h2, h3⟩ := hw (byteOf (k + 3) 3) (byteOf (k + 2) 2) (byteOf (k + 1) 1) (byteOf k 0)
  match lane, h with
  | 0, _ => exact h0
  | 1, _ => exact h1
  | 2, _ => exact h2
  | 3, _ => exact h3

/-- A byte written into the input window is the byte read at its index, if the buffer has that index (R63). -/
theorem inByte_writeInputByte (k : Nat) (v : Byte) (s : State) (j : Nat) :
    inByte (writeInputByte k v s) j = if j = k ∧ k < s.cfg.ibufSize then v else inByte s j := by
  unfold writeInputByte
  by_cases h : k < s.cfg.ibufSize
  · rw [if_pos h]
    unfold inByte
    simp only [read?_write, h, and_true]
    by_cases hj : j = k
    · simp only [if_pos hj]
    · simp only [if_neg hj]
  · rw [if_neg h, if_neg (fun hc => h hc.2)]

/-- The input buffer in canonical form and in range (R43). -/
structure InputOk (s : State) : Prop where
  canonical : Memory.wf s.ibuf
  inRange : ∀ c ∈ s.ibuf, c.1 < s.cfg.ibufSize

theorem writeInputByte_frame (k : Nat) (v : Byte) (s : State) :
    writeInputByte k v s = { s with ibuf := (writeInputByte k v s).ibuf } := by
  unfold writeInputByte; split <;> rfl

theorem writeInputByte_ok (k : Nat) (v : Byte) {s : State} (h : InputOk s) : InputOk (writeInputByte k v s) := by
  unfold writeInputByte
  split
  · next hk => exact ⟨write_wf h.canonical _ _, write_range h.inRange hk _⟩
  · exact h

theorem writeInputWindow_frame (w : Width) (k : Nat) (d : Word) (s : State) :
    writeInputWindow w k d s = { s with ibuf := (writeInputWindow w k d s).ibuf } := by
  cases w with
  | w8 => exact writeInputByte_frame _ _ _
  | w32 =>
    unfold writeInputWindow
    rw [writeInputByte_frame (k + 3), writeInputByte_frame (k + 2), writeInputByte_frame (k + 1),
      writeInputByte_frame k]

theorem writeInputWindow_ok (w : Width) (k : Nat) (d : Word) {s : State} (h : InputOk s) :
    InputOk (writeInputWindow w k d s) := by
  cases w with
  | w8 => exact writeInputByte_ok _ _ h
  | w32 => exact writeInputByte_ok _ _ (writeInputByte_ok _ _ (writeInputByte_ok _ _ (writeInputByte_ok _ _ h)))

end Sys2Proof.Laws
end

