-- ==== Sys2Proof/Laws/Tree.lean ====
section
/-! SUPPORT. A check of a concrete state that, when it succeeds, shows the tree invariants of 10_state.md R48, and the
small lemmas of the order of merges (42_tree_build.md R142, R146). -/

namespace Sys2Proof.Laws

open Sys2Proof.Machine Sys2Proof.Safety

/-- The held slots, up to the root. -/
def heldSlots (s : State) : List Slot := (List.range (s.root.val + 1)).map slotOf

theorem mem_heldSlots {s : State} {i : Slot} (h : i ≤ s.root) : i ∈ heldSlots s :=
  List.mem_map.2 ⟨i.val, List.mem_range.2 (Nat.lt_succ_of_le h), Fin.ext (slotOf_val i.isLt)⟩

/-- What R48 asks of a slot by its kind. -/
def bodyOk (s : State) (i : Slot) : Bool :=
  match (nodeAt s.nodes i).body with
  | .leaf sym =>
    decide ((nodeAt s.nodes i).count = (freqAt s.freq sym).toNat ∧ freqAt s.freq sym ≠ 0 ∧
      leafAt s.leafIdx sym = some i ∧ i.val < s.nleaf.toNat)
  | .internal l r =>
    decide (l < i ∧ r < i ∧ l ≠ r ∧ (nodeAt s.nodes l).parent = some i ∧ (nodeAt s.nodes r).parent = some i ∧
      (nodeAt s.nodes i).count = (nodeAt s.nodes l).count + (nodeAt s.nodes r).count ∧ s.nleaf.toNat ≤ i.val)
  | .dummy => decide ((nodeAt s.nodes i).count = 0 ∧ s.cfg.singleMode = .oneBit ∧ s.nleaf = 1)

/-- What R48 asks of a slot's parent reference. -/
def parentOk (s : State) (i : Slot) : Bool :=
  match (nodeAt s.nodes i).parent with
  | none => decide (i = s.root)
  | some p =>
    match (nodeAt s.nodes p).body with
    | .internal l r => decide (p ≤ s.root ∧ i ≠ s.root ∧ (i = l ∨ i = r))
    | .leaf _ => false
    | .dummy => false

/-- What R48 asks of a symbol. -/
def symbolOk (s : State) (sym : Byte) : Bool :=
  match leafAt s.leafIdx sym with
  | none => decide (freqAt s.freq sym = 0)
  | some i => decide (freqAt s.freq sym ≠ 0 ∧ i ≤ s.root ∧ (nodeAt s.nodes i).body = .leaf sym)

/-- The whole check. -/
def treeOk (s : State) : Bool :=
  (heldSlots s).all (fun i => bodyOk s i && parentOk s i) && allSymbols.all (symbolOk s) &&
    decide (s.nleaf.toNat = (alphabet s.freq).length ∧ 1 ≤ (alphabet s.freq).length ∧
      s.root = rootOf s.cfg (alphabet s.freq).length)

theorem heldTree_of_treeOk {s : State} (h : treeOk s = true) : HeldTree s := by
  simp only [treeOk, Bool.and_eq_true, List.all_eq_true, decide_eq_true_eq] at h
  obtain ⟨⟨hslot, hsym⟩, hsize⟩ := h
  have hbody : ∀ i, i ≤ s.root → bodyOk s i = true := fun i hi => (hslot i (mem_heldSlots hi)).1
  have hparent : ∀ i, i ≤ s.root → parentOk s i = true := fun i hi => (hslot i (mem_heldSlots hi)).2
  refine ⟨fun i sym hi hb => ?_, fun sym hf => ?_, fun sym hf => ?_, fun m l r hm hb => ?_, fun i p hi hp => ?_,
    fun i hi => ?_, fun i hi hb => ?_, hsize⟩
  · have := hbody i hi
    simpa only [bodyOk, hb, decide_eq_true_eq] using this
  · have := hsym sym (mem_allSymbols sym)
    unfold symbolOk at this
    split at this
    · exact absurd (of_decide_eq_true this) hf
    · next i hi => exact ⟨i, hi, (of_decide_eq_true this).2⟩
  · have := hsym sym (mem_allSymbols sym)
    unfold symbolOk at this
    split at this
    · assumption
    · exact absurd hf (of_decide_eq_true this).1
  · have := hbody m hm
    simpa only [bodyOk, hb, decide_eq_true_eq] using this
  · have := hparent i hi
    simp only [parentOk, hp] at this
    split at this
    · next l r hb =>
      have := of_decide_eq_true this
      exact ⟨this.1, l, r, hb, this.2.2⟩
    · cases this
    · cases this
  · have := hparent i hi
    unfold parentOk at this
    split at this
    · next hp => simpa [hp] using of_decide_eq_true this
    · next p hp =>
      split at this
      · simp [hp, (of_decide_eq_true this).2.1]
      · cases this
      · cases this
  · have := hbody i hi
    simpa only [bodyOk, hb, decide_eq_true_eq] using this

/-- Whether a state holds a tree depends on the table, the arena with its root and leaves, and `SINGLE_MODE` alone. -/
theorem heldTree_congr {s t : State} (h : HeldTree s) (hf : t.freq = s.freq) (hn : t.nodes = s.nodes)
    (hr : t.root = s.root) (hl : t.nleaf = s.nleaf) (hx : t.leafIdx = s.leafIdx)
    (hm : t.cfg.singleMode = s.cfg.singleMode) : HeldTree t := by
  refine ⟨?_, ?_, ?_, ?_, ?_, ?_, ?_, ?_⟩ <;> simp only [hf, hn, hr, hl, hx, hm]
  · exact h.leaf
  · exact h.hasLeaf
  · exact h.noLeaf
  · exact h.internal
  · exact h.parent
  · exact h.top
  · exact h.dummy
  · have hs := h.size
    unfold rootOf at hs ⊢
    rw [hm]
    exact hs

/-! ## The order of merges (R142, R146) -/

theorem keyBefore_iff_keyLt (ar : Arena) (i j : Slot) : KeyBefore ar i j ↔ keyLt ar i j = true := (keyLt_iff ar i j).symm

/-- The order of two slots depends on their counts alone. -/
theorem keyBefore_congr {ar ar' : Arena} {i j : Slot} (hi : (nodeAt ar' i).count = (nodeAt ar i).count)
    (hj : (nodeAt ar' j).count = (nodeAt ar j).count) : KeyBefore ar' i j ↔ KeyBefore ar i j := by
  rw [KeyBefore, hi, hj, KeyBefore]

/-- What is live when slot `m` is made depends on the kinds and children of the slots below `m` alone. -/
theorem liveAt_congr {ar ar' : Arena} {m : Slot} (h : ∀ p, p < m → (nodeAt ar' p).body = (nodeAt ar p).body)
    (j : Slot) : LiveAt ar' m j ↔ LiveAt ar m j :=
  and_congr_right fun _ => forall₃_congr fun p _ _ => forall_congr' fun hp => by rw [h p hp]

end Sys2Proof.Laws
end

