-- ==== Sys2Proof/Tests/Slice0.lean ====
section
/-! SUPPORT. The model's own tests: command words (30_encoding.md R95), well-formedness, one or two vectors of
95_test_vectors.md for each command and for the host port, and a witness for the hypotheses of every statement that has
any. Expected values are those of 95_test_vectors.md or worked out by hand from the rule named. -/

namespace Sys2Proof.Tests

-- One theorem after another: the kernel evaluations below would otherwise run side by side.
set_option Elab.async false

open Sys2Proof.Machine Sys2Proof.Safety Sys2Proof.Laws

/-! ## Command words -/

/-- Format N, 41_frequency.md: bits 31:16 `RES`, 15:8 `SYM`, 7:0 `OPC` (R90). -/
theorem test_word_nop : decode 0b00000000000000000000000000000000 = .ok .nop := rfl
theorem test_word_clrf : decode 0b00000000000000000000000000000001 = .ok .clrf := rfl
/-- F4: `SETF 'a'`. -/
theorem test_word_setf : decode 0b00000000000000000110000100000010 = .ok (.setf 0x61) := rfl
/-- F2: `GETF 'b'`. -/
theorem test_word_getf : decode 0b00000000000000000110001000000011 = .ok (.getf 0x62) := rfl
/-- E9: `COUNT 0xFF`. -/
theorem test_word_count : decode 0b00000000000000001111111100000100 = .ok (.count 0xFF) := rfl
theorem test_word_sett : decode 0b00000000000000000000000000000101 = .ok .sett := rfl
/-- 42_tree_build.md. -/
theorem test_word_build : decode 0b00000000000000000000000000010000 = .ok .build := rfl
/-- 43_encode_decode.md; C3: `CODELEN 'c'`. -/
theorem test_word_codelen : decode 0b00000000000000000110001100010001 = .ok (.codelen 0x63) := rfl
/-- C1: `ENCODE 'a'`. -/
theorem test_word_encode : decode 0b00000000000000000110000100010010 = .ok (.encode 0x61) := rfl
theorem test_word_decode : decode 0b00000000000000000000000000010011 = .ok .decode := rfl
/-- 44_bitstream.md. -/
theorem test_word_putbit : decode 0b00000000000000000000000000100000 = .ok .putbit := rfl
theorem test_word_putbyte : decode 0b00000000000000000000000000100001 = .ok .putbyte := rfl
theorem test_word_putint : decode 0b00000000000000000000000000100010 = .ok .putint := rfl
theorem test_word_flush : decode 0b00000000000000000000000000100011 = .ok .flush := rfl
theorem test_word_oclr : decode 0b00000000000000000000000000100100 = .ok .oclr := rfl
theorem test_word_getbit : decode 0b00000000000000000000000000101000 = .ok .getbit := rfl
theorem test_word_getbyte : decode 0b00000000000000000000000000101001 = .ok .getbyte := rfl
theorem test_word_getint : decode 0b00000000000000000000000000101010 = .ok .getint := rfl
theorem test_word_irewind : decode 0b00000000000000000000000000101011 = .ok .irewind := rfl
/-- 45_header.md. -/
theorem test_word_wrhdr : decode 0b00000000000000000000000000110000 = .ok .wrhdr := rfl
theorem test_word_rdhdr : decode 0b00000000000000000000000000110001 = .ok .rdhdr := rfl

/-- E2, E3, E8: opcodes that are not in the map. -/
theorem test_word_unknownOpcode : decode 0x00000006 = .error .unknownOpcode ∧
    decode 0x000000FF = .error .unknownOpcode ∧ decode 0x00000014 = .error .unknownOpcode := ⟨rfl, rfl, rfl⟩

/-- E4, E7: a format N opcode with a symbol. -/
theorem test_word_symbolInFormatN :
    decode 0x00000110 = .error .symbolInFormatN ∧ decode 0x00006100 = .error .symbolInFormatN := ⟨rfl, rfl⟩

/-- E5, E6: reserved bits. -/
theorem test_word_reservedBits :
    decode 0x00010012 = .error .reservedBits ∧ decode 0x80000000 = .error .reservedBits := ⟨rfl, rfl⟩

/-- A command word is 32 bits (R94), and the decoder sees every one of them. -/
theorem test_tableWord : decodeTableWord 32 0x6112 = some (.encode 0x61) ∧ decodeTableWord 32 0x10012 = none ∧
    decodeTableWord 40 0x6112 = none := ⟨rfl, rfl, rfl⟩

/-! ## Well-formedness: for each check a term it refuses

`Instr.wf` has none: every symbol is legal (R91) and `SYM` is an 8-bit value by its type. -/

theorem test_wf_refuses_ibufSmall : { Config.default with ibufSize := 1027 }.wf = false := by decide
theorem test_wf_refuses_ibufLarge : { Config.default with ibufSize := 65537 }.wf = false := by decide
theorem test_wf_refuses_obufSmall : { Config.default with obufSize := 1027 }.wf = false := by decide
theorem test_wf_refuses_obufLarge : { Config.default with obufSize := 65537 }.wf = false := by decide
theorem test_wf_accepts_bounds : { Config.default with ibufSize := 1028, obufSize := 65536 }.wf = true := by decide
/-- T8, and the last byte of the register block. -/
theorem test_wf_refuses_registerByte : admitted .w8 0x00008 = false ∧ admitted .w8 0x0FFFF = false := by decide
theorem test_wf_refuses_misaligned : admitted .w32 0x10001 = false ∧ admitted .w32 0x00006 = false := by decide
theorem test_wf_accepts_access : admitted .w8 0x10001 = true ∧ admitted .w32 0x3FFFC = true := by decide
theorem test_wf_refuses_hostOps :
    (HostOp.read .w8 0x00008).wf = false ∧ (HostOp.write .w32 0x20002 1).wf = false := by decide

/-! ## Small states -/

/-- What a step leaves, seen through `f`. -/
def after {α : Type} (o : Out) (f : State → α) : Option α :=
  match o with
  | .next t => some (f t)
  | .fault _ => none
  | .refused _ => none

/-- The codes and the result a step leaves. -/
def ends (o : Out) : Option (ErrCode × Word) := after o fun t => (t.errcode, t.result)

/-- The writer a step leaves. -/
def writer (o : Out) : Option (ErrCode × Word × Word) := after o fun t => (t.errcode, t.olen, obitsWord t)

/-- The reader a step leaves. -/
def reader (o : Out) : Option (ErrCode × Word × Word) := after o fun t => (t.errcode, t.result, t.ipos)

/-- Reset with `ARG`. -/
def withArg (v : Word) : State := { State.reset with arg := v }

/-- Reset with input bytes, `ILEN` their number. -/
def withInput (bytes : List Byte) : State :=
  { State.reset with ibuf := (List.range bytes.length).zip bytes, ilen := BitVec.ofNat 32 bytes.length }

/-- The empty table with two entries. -/
def table (a : Byte) (v : Word) (b : Byte) (w : Word) : FreqTable :=
  setFreqAt (setFreqAt State.reset.freq b w) a v

/-- The table of B3: `a:1 b:1 c:2`. -/
def abcTable : State := { State.reset with freq := setFreqAt (table 0x61 1 0x62 1) 0x63 2 }

/-- The three slots of a small tree. -/
def threeNodes (n0 n1 n2 : Node) : Arena :=
  setNodeAt (setNodeAt (setNodeAt State.reset.nodes 0 n0) 1 n1) 2 n2

/-- B1: the tree of `a:2 b:1`. -/
def abTree : State :=
  { State.reset with
    freq := table 0x61 2 0x62 1
    nodes := threeNodes ⟨.leaf 0x61, 2, some 2⟩ ⟨.leaf 0x62, 1, some 2⟩ ⟨.internal 1 0, 3, none⟩
    root := 2
    nleaf := 2
    leafIdx := (State.reset.leafIdx.set 0x61 (some 0)).set 0x62 (some 1)
    treeValid := true }

/-- B7: the `ONE_BIT` tree of `z:3`. -/
def zTree : State :=
  { State.reset with
    freq := setFreqAt State.reset.freq 0x7A 3
    nodes := threeNodes ⟨.leaf 0x7A, 3, some 2⟩ ⟨.dummy, 0, some 2⟩ ⟨.internal 0 1, 3, none⟩
    root := 2
    nleaf := 1
    leafIdx := State.reset.leafIdx.set 0x7A (some 0)
    treeValid := true }

/-- `z:3` on an instance with the given `SINGLE_MODE`. -/
def zTable (m : SingleMode) : State :=
  { State.resetWith { Config.default with singleMode := m } with freq := setFreqAt State.reset.freq 0x7A 3 }

/-- B8: the `ZERO_BIT` tree of `z:3`. -/
def zeroTree : State :=
  { zTable .zeroBit with
    nodes := setNodeAt State.reset.nodes 0 ⟨.leaf 0x7A, 3, none⟩
    root := 0
    nleaf := 1
    leafIdx := State.reset.leafIdx.set 0x7A (some 0)
    treeValid := true }

theorem abTree_held : HeldTree abTree := heldTree_of_treeOk (by decide +kernel)
theorem zTree_held : HeldTree zTree := heldTree_of_treeOk (by decide +kernel)
theorem zeroTree_held : HeldTree zeroTree := heldTree_of_treeOk (by decide +kernel)

/-! ## One step of each command -/

/-- E10: `ERRCODE` goes back to 0. -/
theorem test_nop : after (exec .nop { State.reset with errcode := .illegalCmd }) statusWord = some 0 := by
  decide +kernel

/-- F3. -/
theorem test_clrf : after (exec .clrf { abTree with total := 3 })
    (fun t => (freqAt t.freq 0x61, freqAt t.freq 0x62, t.total, t.treeValid)) = some (0, 0, 0, false) := by
  decide +kernel

/-- F4. -/
theorem test_setf : after (exec (.setf 0x61) (withArg 5)) (fun t => (freqAt t.freq 0x61, t.total)) = some (5, 0) := by
  decide +kernel

/-- F5: the value is already there, and the tree is still invalidated. -/
theorem test_setf_sameValue : after (exec (.setf 0x61) { abTree with arg := 2 })
    (fun t => (freqAt t.freq 0x61, t.treeValid)) = some (2, false) := by decide +kernel

/-- F2. -/
theorem test_getf : ends (exec (.getf 0x62) abTree) = some (.ok, 1) := by decide +kernel

/-- F9. -/
theorem test_count : after (exec (.count 5) { State.reset with freq := setFreqAt State.reset.freq 5 0xFFFFFFFE })
    (fun t => (t.errcode, freqAt t.freq 5, t.total)) = some (.ok, 0xFFFFFFFF, 1) := by decide +kernel

/-- F8. -/
theorem test_count_overflow : after (exec (.count 5) { State.reset with total := 0xFFFFFFFF })
    (fun t => (t.errcode, freqAt t.freq 5, t.total)) = some (.overflow, 0, 0xFFFFFFFF) := by decide +kernel

/-- F6. -/
theorem test_sett : after (exec .sett { abTree with arg := 11 }) (fun t => (t.total, t.treeValid)) = some (11, true) := by
  decide +kernel

/-- B3: a leaf is removed before an internal node of equal count. -/
theorem test_build : after (exec .build abcTable)
    (fun t => (t.root, nodeAt t.nodes 3, nodeAt t.nodes 4)) =
      some (4, ⟨.internal 0 1, 2, some 4⟩, ⟨.internal 2 3, 4, none⟩) := by decide +kernel

/-- B10: no tree of an empty table, and `TREE_VALID` unchanged. -/
theorem test_build_empty : after (exec .build State.reset) statusWord = some 0x00000502 := by decide +kernel

/-- B8: the empty code. -/
theorem test_codelen : ends (exec (.codelen 0x7A) zeroTree) = some (.ok, 0) := by decide +kernel

/-- C5. -/
theorem test_codelen_unknown : ends (exec (.codelen 0x63) abTree) = some (.unknownSymbol, 0) := by decide +kernel

/-- C1. -/
theorem test_encode : after (exec (.encode 0x61) abTree) (fun t => (t.result, obitsWord t)) = some (1, 0x00008001) := by
  decide +kernel

/-- C19: the bit would complete a byte. -/
theorem test_encode_full : writer (exec (.encode 0x61)
    { abTree with cfg := { Config.default with obufSize := 1028 }, olen := 1028, onbits := 7 }) =
      some (.outFull, 1028, 7) := by decide +kernel

/-- C8, third bit: the code of `b`. -/
theorem test_decode : reader (exec .decode { abTree with ibuf := [(0, 0xC0)], ilen := 1, ipos := 2 }) =
    some (.ok, 0x62, 3) := by decide +kernel

/-- C14: bit 1 leads to the dummy. -/
theorem test_decode_invalid : reader (exec .decode { zTree with ibuf := [(0, 0x80)], ilen := 1 }) =
    some (.invalidCode, 0, 0) := by decide +kernel

/-- S1, third bit. -/
theorem test_putbit : writer (exec .putbit { withArg 1 with onbits := 2, oacc := 0x80 }) = some (.ok, 0, 0x0000A003) := by
  decide +kernel

/-- S2, third bit: `LSB_FIRST`. -/
theorem test_putbit_lsbFirst : writer (exec .putbit
    { withArg 1 with cfg := { Config.default with bitOrder := .lsbFirst }, onbits := 2, oacc := 0x01 }) =
      some (.ok, 0, 0x00000503) := by decide +kernel

/-- P3: `PUTBYTE 0xAB` at `OLEN = 1`. -/
theorem test_putbyte : after (exec .putbyte { withArg 0xAB with olen := 1 })
    (fun t => (t.olen, Memory.read? t.obuf 1)) = some (2, some 0xAB) := by decide +kernel

/-- S7: `BAD_ARG` is checked before `UNALIGNED`. -/
theorem test_putbyte_badArg : writer (exec .putbyte { withArg 0x100 with onbits := 3 }) = some (.badArg, 0, 3) := by
  decide +kernel

/-- S8. -/
theorem test_putint : after (exec .putint (withArg 0x12345678)) (fun t => t.obuf) =
    some [(0, 0x78), (1, 0x56), (2, 0x34), (3, 0x12)] := by decide +kernel

/-- S9: `BE`. -/
theorem test_putint_be : after (exec .putint
    { withArg 0x12345678 with cfg := { Config.default with intOrder := .be } }) (fun t => t.obuf) =
      some [(0, 0x12), (1, 0x34), (2, 0x56), (3, 0x78)] := by decide +kernel

/-- S4. -/
theorem test_flush : after (exec .flush { State.reset with onbits := 3, oacc := 0xA0 })
    (fun t => (t.obuf, t.olen, obitsWord t)) = some ([(0, 0xA0)], 1, 0) := by decide +kernel

/-- S5. -/
theorem test_flush_empty : writer (exec .flush { State.reset with olen := 1 }) = some (.ok, 1, 0) := by decide +kernel

/-- S18. -/
theorem test_oclr : writer (exec .oclr { State.reset with olen := 1029, onbits := 2 }) = some (.ok, 0, 2) := by
  decide +kernel

/-- S11, third bit. -/
theorem test_getbit : reader (exec .getbit { withInput [0xA0] with ipos := 2 }) = some (.ok, 1, 3) := by decide +kernel

/-- S12, second bit: `LSB_FIRST`. -/
theorem test_getbit_lsbFirst : reader (exec .getbit
    { withInput [0x05] with cfg := { Config.default with bitOrder := .lsbFirst }, ipos := 1 }) = some (.ok, 0, 2) := by
  decide +kernel

/-- P3: `GETBYTE` at `IPOS = 8`. -/
theorem test_getbyte : reader (exec .getbyte { withInput [0xA0, 0xAB] with ipos := 8 }) = some (.ok, 0xAB, 16) := by
  decide +kernel

/-- S13. -/
theorem test_getbyte_unaligned : reader (exec .getbyte { withInput [0xA0] with ipos := 3 }) = some (.unaligned, 0, 3) := by
  decide +kernel

/-- S10: an `LE` instance reads a `BE` stream. -/
theorem test_getint : reader (exec .getint (withInput [0x12, 0x34, 0x56, 0x78])) = some (.ok, 0x78563412, 32) := by
  decide +kernel

/-- S16. -/
theorem test_getint_truncated : reader (exec .getint (withInput [1, 2, 3])) = some (.truncated, 0, 0) := by decide +kernel

/-- S17. -/
theorem test_irewind : reader (exec .irewind { State.reset with ipos := 8227 }) = some (.ok, 0, 0) := by decide +kernel

/-- H1: the length. -/
theorem test_wrhdr : writer (exec .wrhdr { abTree with total := 3 }) = some (.ok, 1028, 0) := by decide +kernel

/-- H6. -/
theorem test_wrhdr_unaligned : writer (exec .wrhdr { State.reset with onbits := 3 }) = some (.unaligned, 0, 3) := by
  decide +kernel

/-- H3, with the two bytes that are not 0: `FREQ['a']` is at byte 4 + 4 * 0x61 = 392. -/
theorem test_rdhdr : after (exec .rdhdr
    { State.reset with ibuf := (List.range 1028).map (fun k => (k, if k = 0 then 3 else if k = 392 then 2 else 0)),
                       ilen := 1028 })
    (fun t => (t.total, freqAt t.freq 0x61, freqAt t.freq 0x62, t.ipos)) = some (3, 2, 0, 8224) := by decide +kernel

/-- H4: one byte short. -/
theorem test_rdhdr_truncated : reader (exec .rdhdr { State.reset with ilen := 1027 }) = some (.truncated, 0, 0) := by
  decide +kernel

/-! ## The host port, reset and a host program -/

/-- T1. -/
theorem test_resetReads : [0x008, 0x024, 0x028, 0x02C, 0x000].map (fun a => readPort .w32 a State.reset) =
    [0, 0, 0x1000, 0x1000, 0] := by decide +kernel

/-- T4, T6: writes out of range are ignored. -/
theorem test_rangeWrites :
    after (hostOp (.write .w32 0x014 4097) { State.reset with ilen := 7, ipos := 9 }) (fun t => (t.ilen, t.ipos)) =
      some (7, 9) ∧
    after (hostOp (.write .w32 0x018 33) { State.reset with ilen := 4 }) (fun t => t.ipos) = some 0 := by decide +kernel

/-- T7. -/
theorem test_windowWord : readPort .w32 0x20000
    { State.reset with obuf := [(0, 0xA0), (1, 0xAB), (2, 0x04), (3, 0x03)], olen := 6 } = 0x0304ABA0 := by
  decide +kernel

/-- T2: a write while `BUSY = 1` is ignored and sets `LOST`. -/
theorem test_busyWrite : after (hostOp (.write .w32 0x004 7) { State.reset with busy := true })
    (fun t => (t.arg, t.lost)) = some (0, true) := by decide +kernel

/-- T3. -/
theorem test_clearLost : after (hostOp (.write .w32 0x008 0x10) { State.reset with lost := true })
    (fun t => t.lost) = some false := by decide +kernel

/-- R98: a line with an argument. -/
theorem test_line : line .putbyte (some 0xAB) = [.write .w32 0x004 0xAB, .write .w32 0x000 0x00000021, .wait] := by
  decide

/-- P4, the illegal word: one step of the engine. -/
theorem test_step_illegal : after (step { abTree with busy := true, pending := some 0x00000110 }) statusWord =
    some 0x00000106 := by decide +kernel

/-! ## Witnesses

For each statement of Certificates/Slice0/Obligations.lean that has hypotheses, concrete values that meet them, for each
of its clauses and at the bounds of its ranges. -/

theorem witness_DecodeOfEncode : (Instr.encode 0xFF).wf = true := by decide

theorem witness_EncodeOfDecode : decode 0x0000FF12 = .ok (.encode 0xFF) := rfl

/-- Each of the three reasons, the last with the pending illegal word of P4 and both ways the engine moves. -/
theorem witness_IllegalWordRaisesIllegalCmd :
    (∃ r, decode 0x00000006 = .error r) ∧ (∃ r, decode 0x80000000 = .error r) ∧ (∃ r, decode 0x00000110 = .error r) ∧
      (State.reset.withFetchWord 32 0x110).phase = .running ∧ (State.reset.withFetchWord 32 0x110).busy = true ∧
      (State.reset.withFetchWord 32 0x110).pending = some 0x00000110 ∧
      (State.reset.withFetchWord 32 0x110).sched = [] ∧
      { State.reset.withFetchWord 32 0x110 with sched := [.engine, .host] }.sched = .engine :: [.host] :=
  ⟨⟨_, rfl⟩, ⟨_, rfl⟩, ⟨_, rfl⟩, rfl, rfl, rfl, rfl, rfl⟩

/-- Both ways the engine moves, and a placed word. -/
theorem witness_StepRunsDecodedCommand :
    (State.reset.withFetchWord 32 0x10).pending = some 0x00000010 ∧ (State.reset.withFetchWord 32 0x10).busy = true ∧
      (State.reset.withFetchWord 32 0x10).phase = .running ∧ decode 0x00000010 = .ok .build ∧
      (State.reset.withFetchWord 32 0x10).sched = [] ∧
      { State.reset.withFetchWord 32 0x10 with sched := [.engine, .host] }.sched = .engine :: [.host] ∧
      decodeTableWord 32 0x10 = some .build := ⟨rfl, rfl, rfl, rfl, rfl, rfl, rfl⟩

theorem witness_FailedCommandChangesOnlyErrcode :
    exec .putbit (withArg 2) = .next (ended .badArg (withArg 2)) ∧ (ended .badArg (withArg 2)).errcode ≠ .ok :=
  ⟨rfl, by decide⟩

theorem witness_CommandsLeaveHostSide : exec .oclr abTree = .next (ended .ok { abTree with olen := 0 }) := rfl

/-- A failing command, and a successful one outside the eight. -/
theorem witness_OnlyEightCommandsWriteResult :
    exec .getbit State.reset = .next (ended .truncated State.reset) ∧ (ended .truncated State.reset).errcode ≠ .ok ∧
      exec .irewind State.reset = .next (ended .ok { State.reset with ipos := 0 }) ∧ writesResult .irewind = false :=
  ⟨rfl, by decide, rfl, rfl⟩

theorem witness_TreeValidFollowsTable :
    exec .clrf abTree = .next (ended .ok (invalidateTree { abTree with freq := Vector.replicate NSYM 0, total := 0 })) ∧
      needsTree .decode = true ∧ State.reset.treeValid = false := ⟨rfl, rfl, rfl⟩

/-- The ends of R5's ranges. -/
theorem witness_ResetMeetsInvariants :
    { Config.default with ibufSize := 1028, obufSize := 1028 }.wf = true ∧
      { Config.default with ibufSize := 65536, obufSize := 65536 }.wf = true := by decide

theorem witness_ResetSequence :
    { State.reset.withFetchWord 32 0x10 with sched := [.assertReset, .releaseReset, .engine] }.sched =
        [.assertReset, .releaseReset, .engine] ∧
      { assertReset State.reset with host := [.wait] }.phase = .inReset ∧
      { assertReset State.reset with host := [.wait] }.host ≠ [] := ⟨rfl, rfl, by simp⟩

/-- A state with full streams and `PUTBIT` pending. -/
def fullStreams : State :=
  { withArg 1 with
    ilen := 4096, ipos := 32768, olen := 4095, onbits := 7, oacc := 0xFE
    ibuf := [(0, 1), (4095, 2)]
    busy := true
    pending := some 0x00000020 }

theorem fullStreams_inv : StreamInv fullStreams := by
  refine ⟨by decide, by decide, by decide, by decide, fun k h1 h2 => ?_⟩
  have : k = 7 := by have h : 7 ≤ k := h1; omega
  subst this; decide

/-- The eighth bit fills the last byte of the buffer. -/
theorem witness_StepKeepsStreamInvariant : StreamInv fullStreams ∧ ∃ t, step fullStreams = .next t := by
  exact ⟨fullStreams_inv, _, rfl⟩

/-- One completed byte and `PUTBYTE` pending. -/
def oneByte : State :=
  { withArg 0xFF with obuf := [(0, 0xA0)], olen := 1, ibuf := [(4095, 2)], busy := true, pending := some 0x00000021 }

theorem witness_StepKeepsBufferInvariant :
    StreamInv oneByte ∧ BufferInv oneByte ∧ ∃ t, step oneByte = .next t := by
  refine ⟨⟨by decide, by decide, by decide, by decide, fun k _ _ => ?_⟩,
    ⟨by decide, by decide, by decide, by decide, fun k hk => ?_⟩, ?_⟩
  · exact BitVec.getLsbD_zero
  · have : k = 0 := by have h : k < 1 := hk; omega
    subst this; rfl
  · exact ⟨_, rfl⟩

/-- A held tree, with the host about to write `ARG`. -/
def treeAndHost : State := { abTree with host := [.write .w32 0x004 7] }

theorem treeAndHost_held : HeldTree treeAndHost := heldTree_congr abTree_held rfl rfl rfl rfl rfl rfl

theorem witness_StepKeepsTreeInvariant :
    TreeInv treeAndHost ∧ treeAndHost.treeValid = true ∧ ∃ t, step treeAndHost = .next t :=
  ⟨fun _ => treeAndHost_held, rfl, _, rfl⟩

theorem witness_StepKeepsHandshake :
    BusyInv (State.reset.withFetchWord 32 0) ∧ (∃ t, step (State.reset.withFetchWord 32 0) = .next t) ∧
      BusyInv { assertReset State.reset with sched := [.releaseReset] } ∧
      ∃ t, step { assertReset State.reset with sched := [.releaseReset] } = .next t :=
  ⟨⟨by decide, by decide⟩, ⟨_, rfl⟩, ⟨by decide, by decide⟩, _, rfl⟩

/-- `ENCODE` of a held tree's symbol is pending. -/
def encodePending : State := { abTree with busy := true, pending := some 0x00006112 }

theorem witness_NoRunFaults : Inv encodePending :=
  ⟨⟨by decide, by decide, by decide, by decide, fun k _ _ => BitVec.getLsbD_zero⟩,
    ⟨by decide, by decide, by decide, by decide, fun k hk => absurd hk (Nat.not_lt_zero k)⟩,
    fun _ => heldTree_congr abTree_held rfl rfl rfl rfl rfl rfl, ⟨by decide, by decide⟩⟩

theorem witness_NopClearsErrcode : ∀ s : State, Succeeds .nop s s := fun _ => rfl

theorem witness_SetfWritesOneEntry : (0xFF : Byte) ≠ 0x00 := by decide

/-- Both counters at the end of their range, and both one below it. -/
theorem witness_CountIncrementsOrOverflows :
    freqAt (setFreqAt State.reset.freq 5 0xFFFFFFFF) 5 = 0xFFFFFFFF ∧
      freqAt (setFreqAt State.reset.freq 5 0xFFFFFFFE) 5 ≠ 0xFFFFFFFF ∧
      { State.reset with total := 0xFFFFFFFF }.total = 0xFFFFFFFF ∧
      { State.reset with total := 0xFFFFFFFE }.total ≠ 0xFFFFFFFF := by decide +kernel

theorem witness_CountingPass :
    [0x61, 0x61, 0x62].length < 2 ^ 32 ∧ ([0x62, 0x61, 0x61] : List Byte).Perm [0x61, 0x61, 0x62] := by decide

theorem witness_PickMinTakesLeastKey :
    [(0 : Slot), 1] ≠ [] ∧ (1 : Slot) ∈ [(0 : Slot), 1] ∧ (1 : Slot) ≠ 0 ∧
      ∀ i, i ∈ [(0 : Slot), 1] → (nodeAt abTree.nodes i).count = (nodeAt treeAndHost.nodes i).count :=
  ⟨by decide, by decide, by decide, fun _ _ => rfl⟩

theorem witness_MergeStepJoinsTwoLeast :
    [(0 : Slot), 1].Nodup ∧ 2 ≤ [(0 : Slot), 1].length ∧ (2 : Slot) ∉ [(0 : Slot), 1] := by decide

theorem zTable_alphabet (m : SingleMode) : alphabet (zTable m).freq = [0x7A] := by
  show alphabet (setFreqAt State.reset.freq 0x7A 3) = [0x7A]
  decide +kernel

/-- An empty table; one symbol with `REJECT`; one symbol with `ONE_BIT`; two symbols with `REJECT`; and three symbols,
whose first internal slot is 3, the live slots then being the leaves 0, 1 and 2, and whose last is the root 4. -/
theorem witness_BuildMakesHeldTree :
    (∀ sym, freqAt State.reset.freq sym = 0) ∧
      ((alphabet (zTable .reject).freq).length = 1 ∧ (zTable .reject).cfg.singleMode = .reject) ∧
      ((∃ sym, freqAt (zTable .oneBit).freq sym ≠ 0) ∧ (zTable .oneBit).cfg.singleMode ≠ .reject) ∧
      ((∃ sym, freqAt (table 0x61 2 0x62 1) sym ≠ 0) ∧ (alphabet (table 0x61 2 0x62 1)).length ≠ 1) ∧
      ((∃ sym, freqAt abcTable.freq sym ≠ 0) ∧ (alphabet abcTable.freq).length = 3 ∧ (buildTree abcTable).root = 4 ∧
        (nodeAt (buildTree abcTable).nodes 3).body = .internal 0 1 ∧
        (nodeAt (buildTree abcTable).nodes 4).body = .internal 2 3 ∧ LiveAt (buildTree abcTable).nodes 3 2 ∧
        (2 : Slot) ≠ 0 ∧ (2 : Slot) ≠ 1) := by
  have hleaf : (List.range 3).all (fun k => (nodeAt (buildTree abcTable).nodes (slotOf k)).body ==
      .leaf (BitVec.ofNat 8 (0x61 + k))) = true := by decide +kernel
  refine ⟨fun sym => freqAt_replicate 0 sym, ⟨by rw [zTable_alphabet]; rfl, rfl⟩, ⟨⟨0x7A, by decide +kernel⟩, by decide⟩,
    ⟨⟨0x61, by decide +kernel⟩, by decide +kernel⟩, ⟨⟨0x61, by decide +kernel⟩, by decide +kernel, by decide +kernel,
      by decide +kernel, by decide +kernel, ⟨by decide, fun p l r hp hb => ?_⟩, by decide, by decide⟩⟩
  have h := List.all_eq_true.1 hleaf p.val (List.mem_range.2 hp)
  rw [show slotOf p.val = p from Fin.ext (slotOf_val p.isLt), hb] at h
  cases eq_of_beq h

theorem zTable_builds {m : SingleMode} (h : m ≠ .reject) : Succeeds .build (zTable m) (buildTree (zTable m)) :=
  exec_build (by rw [zTable_alphabet]; exact Nat.le_refl 1) (fun hr => h hr.2)

theorem witness_BuildPlacesLeaves :
    Succeeds .build (zTable .oneBit) (buildTree (zTable .oneBit)) ∧ (alphabet (zTable .oneBit).freq)[0]? = some 0x7A ∧
      freqAt (zTable .oneBit).freq 0x61 = 0 :=
  ⟨zTable_builds (by decide), by rw [zTable_alphabet]; rfl, by decide +kernel⟩

theorem witness_SingleSymbolTree (m : SingleMode) :
    alphabet (zTable m).freq = [0x7A] ∧ (zTable m).cfg.singleMode = m := ⟨zTable_alphabet m, rfl⟩

/-- Two states that differ in everything else. -/
theorem witness_BuildIsDeterministic :
    ∃ u v : State, u.nodes ≠ (zTable .oneBit).nodes ∧ (zTable .oneBit).freq = u.freq ∧
      (zTable .oneBit).cfg.firstSlot = u.cfg.firstSlot ∧ (zTable .oneBit).cfg.singleMode = u.cfg.singleMode ∧
      exec .build (zTable .oneBit) = .next (ended .ok (buildTree (zTable .oneBit))) ∧ exec .build u = .next v :=
  ⟨{ zTree with olen := 5 }, ended .ok (buildTree { zTree with olen := 5 }), by
    intro h
    have := congrArg (fun ar => (nodeAt ar 2).count) h
    revert this
    decide +kernel, rfl, rfl, rfl, zTable_builds (by decide),
    exec_build (Nat.le_of_eq (congrArg List.length (zTable_alphabet .oneBit)).symm) (fun hr => SingleMode.noConfusion hr.2)⟩

theorem witness_PathIsTheCode : HeldTree abTree ∧ (2 : Slot) ≤ abTree.root ∧ leafAt abTree.leafIdx 0x63 = none :=
  ⟨abTree_held, by decide, by decide +kernel⟩

/-- The codes of C14's tree: `z` is 0 and the dummy 1. -/
theorem zTree_codes : CodeOf zTree 0 [false] ∧ CodeOf zTree 1 [true] :=
  ⟨.left (r := 1) .root (by decide +kernel), .right (l := 0) .root (by decide +kernel)⟩

/-- The codes of B1: `b` is 0 and `a` is 1. -/
theorem abTree_codes : CodeOf abTree 1 [false] ∧ CodeOf abTree 0 [true] :=
  ⟨.left (r := 0) .root (by decide +kernel), .right (l := 1) .root (by decide +kernel)⟩

theorem witness_PrefixFreeCodes : CodeOf zTree 0 [false] ∧ CodeOf zTree 1 [true] ∧ (0 : Slot) ≠ 1 ∧
    (nodeAt zTree.nodes 0).body = .leaf 0x7A ∧ (nodeAt zTree.nodes 1).body = .dummy :=
  ⟨zTree_codes.1, zTree_codes.2, by decide, by decide +kernel, by decide +kernel⟩

/-- Two symbols, one symbol in `ONE_BIT` mode and one in `ZERO_BIT` mode. -/
theorem witness_CodeLengthBound :
    (HeldTree abTree ∧ CodeOf abTree 0 [true] ∧ (nodeAt abTree.nodes 0).body = .leaf 0x61 ∧ 2 ≤ abTree.nleaf.toNat) ∧
      (HeldTree zTree ∧ CodeOf zTree 0 [false] ∧ (nodeAt zTree.nodes 0).body = .leaf 0x7A ∧ zTree.nleaf.toNat = 1 ∧
        zTree.cfg.singleMode = .oneBit) ∧
      (HeldTree zeroTree ∧ CodeOf zeroTree 0 [] ∧ (nodeAt zeroTree.nodes 0).body = .leaf 0x7A ∧
        zeroTree.nleaf.toNat = 1 ∧ zeroTree.cfg.singleMode = .zeroBit) :=
  ⟨⟨abTree_held, abTree_codes.2, by decide +kernel, by decide⟩,
    ⟨zTree_held, zTree_codes.1, by decide +kernel, by decide, rfl⟩,
    ⟨zeroTree_held, .root, by decide +kernel, by decide, rfl⟩⟩

/-- No tree; a held tree with an absent and a present symbol. -/
theorem witness_CodelenReportsCodeLength : State.reset.treeValid = false ∧ abTree.treeValid = true ∧ HeldTree abTree ∧
    freqAt abTree.freq 0x63 = 0 ∧ freqAt abTree.freq 0x61 ≠ 0 :=
  ⟨rfl, rfl, abTree_held, by decide +kernel, by decide +kernel⟩

/-- The last byte of the buffer: seven bits of a byte that does not fit, and of the last one that does. -/
def abTreeAt (n : Word) : State :=
  { abTree with cfg := { Config.default with obufSize := 1028 }, olen := n, onbits := 7 }

theorem witness_EncodeWritesTheCode :
    State.reset.treeValid = false ∧ HeldTree (abTreeAt 1027) ∧ HeldTree (abTreeAt 1028) ∧
      (∀ n, (abTreeAt n).treeValid = true ∧ (abTreeAt n).cfg.wf = true) ∧ CodeOf (abTreeAt 1028) 0 [true] ∧
      freqAt (abTreeAt 1027).freq 0x63 = 0 ∧ freqAt (abTreeAt 1027).freq 0x61 ≠ 0 ∧
      leafAt (abTreeAt 1027).leafIdx 0x61 = some 0 ∧
      (abTreeAt 1028).cfg.obufSize < (abTreeAt 1028).olen.toNat + ((abTreeAt 1028).onbits.toNat + [true].length) / 8 ∧
      (abTreeAt 1027).olen.toNat + ((abTreeAt 1027).onbits.toNat + [true].length) / 8 ≤ (abTreeAt 1027).cfg.obufSize :=
  ⟨rfl, heldTree_congr abTree_held rfl rfl rfl rfl rfl rfl, heldTree_congr abTree_held rfl rfl rfl rfl rfl rfl,
    fun _ => ⟨rfl, rfl⟩,
    .right (l := 1) .root (by decide +kernel), by decide +kernel, by decide +kernel, by decide +kernel, by decide,
    by decide⟩

/-- Input `0x80`: the code of the dummy, then that of `z`; then the end. -/
def zInput (p : Word) : State := { zTree with ibuf := [(0, 0x80)], ilen := 1, ipos := p }

/-- No tree; a leaf's code, the dummy's code, and the input ending at an internal node. -/
theorem witness_DecodeReadsOneCode :
    State.reset.treeValid = false ∧
      (CodeOf (zInput 7) 0 [false] ∧ (zInput 7).ipos.toNat + 1 ≤ 8 * (zInput 7).ilen.toNat ∧
        inputBits (zInput 7) 7 1 = [false] ∧ (nodeAt (zInput 7).nodes 0).body = .leaf 0x7A) ∧
      (CodeOf (zInput 0) 1 [true] ∧ (zInput 0).ipos.toNat + 1 ≤ 8 * (zInput 0).ilen.toNat ∧
        inputBits (zInput 0) 0 1 = [true] ∧ (nodeAt (zInput 0).nodes 1).body = .dummy) ∧
      (CodeOf (zInput 8) 2 [] ∧ (zInput 8).ipos.toNat ≤ 8 * (zInput 8).ilen.toNat ∧ inputBits (zInput 8) 8 0 = [] ∧
        (nodeAt (zInput 8).nodes 2).body = .internal 0 1 ∧ (zInput 8).ipos.toNat + 0 = 8 * (zInput 8).ilen.toNat) :=
  ⟨rfl, ⟨.left (r := 1) .root (by decide +kernel), by decide, by decide +kernel, by decide +kernel⟩,
    ⟨.right (l := 0) .root (by decide +kernel), by decide, by decide +kernel, by decide +kernel⟩,
    ⟨.root, by decide, rfl, by decide +kernel, by decide⟩⟩

theorem zInput_ready {p : Word} (h : p.toNat ≤ 8) :
    (zInput p).treeValid = true ∧ StreamInv (zInput p) ∧ HeldTree (zInput p) :=
  have hc : Config.default.wf = true ∧ (1 : Word).toNat ≤ Config.default.ibufSize := by decide
  ⟨rfl, ⟨hc.1, hc.2, h, Nat.zero_le _, fun _ _ _ => BitVec.getLsbD_zero⟩,
    heldTree_congr zTree_held rfl rfl rfl rfl rfl rfl⟩

/-- The dummy, a leaf in the last bit, and the end of the input (the codes are those of `witness_DecodeReadsOneCode`). -/
theorem witness_DecodeEndsInOneOfItsWays :
    ((zInput 0).treeValid = true ∧ StreamInv (zInput 0) ∧ HeldTree (zInput 0)) ∧
      ((zInput 7).treeValid = true ∧ StreamInv (zInput 7) ∧ HeldTree (zInput 7)) ∧
      ((zInput 8).treeValid = true ∧ StreamInv (zInput 8) ∧ HeldTree (zInput 8)) :=
  ⟨zInput_ready (by decide), zInput_ready (by decide), zInput_ready (by decide)⟩

/-- `z` encoded and flushed from an empty writer, and the byte it gives as input beside the same table. -/
theorem witness_EncodeThenDecodeRoundTrip :
    ∃ s0 s t u0 u : State, s0.cfg.wf = true ∧ s0.olen = 0 ∧ s0.onbits = 0 ∧ exec .build s0 = .next s ∧
      s.errcode = .ok ∧ runAll ([0x7A].map .encode ++ [.flush]) s = some t ∧ u0.cfg = s0.cfg ∧ u0.freq = s0.freq ∧
      u0.ipos = 0 ∧ u0.ilen = t.olen ∧ (∀ k, k < t.olen.toNat → inByte u0 k = outByte t k) ∧
      exec .build u0 = .next u := by
  have hrun : (runAll ([0x7A].map .encode ++ [.flush]) (ended .ok (buildTree (zTable .oneBit)))).map
      (fun t => (t.olen, Memory.read? t.obuf 0)) = some (1, some 0) := by decide +kernel
  obtain ⟨t, ht, hval⟩ := Option.map_eq_some_iff.1 hrun
  obtain ⟨hol, hob⟩ := Prod.mk.inj hval
  refine ⟨zTable .oneBit, _, t, { zTable .oneBit with ibuf := [(0, 0)], ilen := 1 }, _, by decide, rfl, rfl,
    zTable_builds (by decide), rfl, ht, rfl, rfl, rfl, hol.symm, fun k hk => ?_,
    exec_build (Nat.le_of_eq (congrArg List.length (zTable_alphabet .oneBit)).symm)
      (fun hr => SingleMode.noConfusion hr.2)⟩
  have : k = 0 := by rw [hol] at hk; have h : k < 1 := hk; omega
  subst this
  show _ = (match Memory.read? t.obuf 0 with
    | some b => b
    | none => Config.unwrittenOut t.gen 0)
  rw [hob]
  rfl

/-- `ARG` just too large; the bit that does not fit and the last one that does. -/
theorem witness_PutbitAppendsOneBit :
    1 < (withArg 2).arg.toNat ∧ fullStreams.arg.toNat ≤ 1 ∧ fullStreams.cfg.wf = true ∧
      fullStreams.olen.toNat + (fullStreams.onbits.toNat + 1) / 8 ≤ fullStreams.cfg.obufSize ∧
      { fullStreams with olen := 4096 }.cfg.obufSize < { fullStreams with olen := 4096 }.olen.toNat + (7 + 1) / 8 := by
  decide

theorem witness_PutbyteAppendsOneByte :
    0xFF < (withArg 0x100).arg.toNat ∧ (withArg 0xFF).arg.toNat ≤ 0xFF ∧ fullStreams.onbits ≠ 0 ∧
      (withArg 0xFF).onbits = 0 ∧ (withArg 0xFF).cfg.wf = true ∧
      { withArg 0xFF with olen := 4096 }.cfg.obufSize < { withArg 0xFF with olen := 4096 }.olen.toNat + 1 ∧
      { withArg 0xFF with olen := 4095 }.olen.toNat + 1 ≤ { withArg 0xFF with olen := 4095 }.cfg.obufSize := by decide

theorem witness_PutintAppendsFourBytes :
    fullStreams.onbits ≠ 0 ∧ State.reset.onbits = 0 ∧ State.reset.cfg.wf = true ∧
      { State.reset with olen := 4093 }.cfg.obufSize < { State.reset with olen := 4093 }.olen.toNat + 4 ∧
      { State.reset with olen := 4092 }.olen.toNat + 4 ≤ { State.reset with olen := 4092 }.cfg.obufSize := by decide

theorem witness_FlushPadsPartialByte :
    State.reset.onbits = 0 ∧ fullStreams.onbits ≠ 0 ∧
      { fullStreams with olen := 4096 }.cfg.obufSize ≤ { fullStreams with olen := 4096 }.olen.toNat ∧
      fullStreams.olen.toNat < fullStreams.cfg.obufSize ∧ fullStreams.cfg.wf = true ∧ StreamInv fullStreams :=
  ⟨rfl, by decide, by decide, by decide, by decide, fullStreams_inv⟩

theorem witness_OclrKeepsPartialByte : 4095 < State.reset.cfg.obufSize := by decide

/-- The last bit of the input, and the end of the input. -/
theorem witness_GetbitReadsOneBit :
    (zInput 7).ipos.toNat < 8 * (zInput 7).ilen.toNat ∧ 8 * (zInput 8).ilen.toNat ≤ (zInput 8).ipos.toNat := by decide

theorem witness_GetbyteReadsOneByte :
    (zInput 7).ipos.toNat % 8 ≠ 0 ∧
      ((zInput 8).ipos.toNat % 8 = 0 ∧ (zInput 8).ilen.toNat < (zInput 8).ipos.toNat / 8 + 1) ∧
      ((zInput 0).ipos.toNat % 8 = 0 ∧ (zInput 0).ipos.toNat / 8 + 1 ≤ (zInput 0).ilen.toNat) := by decide

/-- Four bytes of input, read from byte 1 and from byte 0; and the bytes of a word. -/
theorem witness_GetintReadsOneInteger :
    (zInput 7).ipos.toNat % 8 ≠ 0 ∧
      ({ State.reset with ilen := 4, ipos := 8 }.ipos.toNat % 8 = 0 ∧
        { State.reset with ilen := 4, ipos := 8 }.ilen.toNat < { State.reset with ilen := 4, ipos := 8 }.ipos.toNat / 8 + 4) ∧
      ({ State.reset with ilen := 4 }.ipos.toNat % 8 = 0 ∧
        { State.reset with ilen := 4 }.ipos.toNat / 8 + 4 ≤ { State.reset with ilen := 4 }.ilen.toNat) ∧
      intToBytes .be (withArg 0x01020304).arg = [1, 2, 3, 4] := by decide +kernel

theorem witness_IrewindClearsIpos : State.reset.busy = false := rfl

/-- The byte before, and the bytes after, what `PUTBYTE` stores. -/
theorem witness_WriterStoresOnlyWhereItCompletes :
    oneByte.cfg.wf = true ∧ exec .putbyte oneByte = .next (ended .ok (emitByte 0xFF oneByte)) ∧
      0 < oneByte.olen.toNat ∧ oneByte.olen.toNat + storedBytes .putbyte oneByte ≤ 2 :=
  ⟨by decide, rfl, by decide, by decide⟩

/-- Another byte of input above `ILEN`. -/
theorem witness_ReaderIgnoresBytesAboveIlen :
    ∀ k, k < (zInput 0).ilen.toNat → inByte { zInput 0 with ibuf := [(0, 0x80), (1, 0xFF)], gen := 3 } k = inByte (zInput 0) k := by
  intro k hk
  have : k = 0 := by have h : k < 1 := hk; omega
  subst this; rfl

theorem witness_WrhdrWritesHeader :
    fullStreams.onbits ≠ 0 ∧ State.reset.onbits = 0 ∧ State.reset.cfg.wf = true ∧
      { State.reset with olen := 3069 }.cfg.obufSize < { State.reset with olen := 3069 }.olen.toNat + 1028 ∧
      { State.reset with olen := 3068 }.olen.toNat + 1028 ≤ { State.reset with olen := 3068 }.cfg.obufSize := by decide

theorem witness_RdhdrReadsHeader :
    (zInput 7).ipos.toNat % 8 ≠ 0 ∧
      ({ State.reset with ilen := 1027 }.ipos.toNat % 8 = 0 ∧
        { State.reset with ilen := 1027 }.ilen.toNat < { State.reset with ilen := 1027 }.ipos.toNat / 8 + 1028) ∧
      ({ State.reset with ilen := 1028 }.ipos.toNat % 8 = 0 ∧
        { State.reset with ilen := 1028 }.ipos.toNat / 8 + 1028 ≤ { State.reset with ilen := 1028 }.ilen.toNat) := by
  decide

/-- What `WRHDR` leaves, put whole into the input buffer of another state. -/
theorem witness_HeaderFidelity :
    ∃ s t u v : State, s.cfg.wf = true ∧ exec .wrhdr s = .next t ∧ t.errcode = .ok ∧
      u.cfg.intOrder = s.cfg.intOrder ∧ exec .rdhdr u = .next v ∧ v.errcode = .ok ∧
      ∀ k, k < 1028 → inByte u (u.ipos.toNat / 8 + k) = outByte t (s.olen.toNat + k) := by
  refine ⟨abTree, ended .ok (emitBytes (headerBytes abTree) abTree),
    { State.reset with ibuf := (emitBytes (headerBytes abTree) abTree).obuf, ilen := 1028 }, _, rfl,
    exec_wrhdr rfl (by decide), rfl, rfl,
    exec_rdhdr rfl (by decide), rfl, fun k hk => ?_⟩
  obtain ⟨b, hb⟩ := Option.isSome_iff_exists.1 (emitBytes_read?_isSome (headerBytes abTree) abTree (k := 0 + k)
    (by rw [length_headerBytes]; decide) (Nat.zero_le _)
    (by rw [length_headerBytes]; exact Nat.add_lt_add_left hk 0))
  generalize emitBytes (headerBytes abTree) abTree = t at hb ⊢
  exact inByte_eq_outByte (j := 0 / 8 + k) (by rw [Nat.zero_div]; exact hb) hb

theorem witness_StatusLayout : State.reset.busy = false := rfl

theorem witness_ConfigReportsParameters : State.reset.busy = false ∧ ∃ t, step State.reset = .next t := ⟨rfl, _, rfl⟩

/-- The first and the last reserved offset; `ILEN` and `IPOS` at the end of their ranges and beyond; the first and the
last word, and the last byte, of the reserved region (T9). -/
theorem witness_IdleRegisterAccess :
    State.reset.busy = false ∧ (0x00030 : Addr).toNat % 4 = 0 ∧ 0x030 ≤ (0x00030 : Addr).toNat ∧
      (0x0FFFC : Addr).toNat % 4 = 0 ∧ (0x0FFFC : Addr).toNat < 0x10000 ∧
      (4096 : Word).toNat ≤ State.reset.cfg.ibufSize ∧ ¬(4097 : Word).toNat ≤ State.reset.cfg.ibufSize ∧
      (32 : Word).toNat ≤ 8 * { State.reset with ilen := 4 }.ilen.toNat ∧
      ¬(33 : Word).toNat ≤ 8 * { State.reset with ilen := 4 }.ilen.toNat ∧
      ((0x00C : Addr).toNat % 4 = 0 ∧ (0x00C : Addr).toNat ≠ 0x000 ∧ (0x00C : Addr).toNat ≠ 0x004 ∧
        (0x00C : Addr).toNat ≠ 0x008 ∧ (0x00C : Addr).toNat ≠ 0x014 ∧ (0x00C : Addr).toNat ≠ 0x018) ∧
      (admitted .w32 0x30000 = true ∧ 0x30000 ≤ (0x30000 : Addr).toNat) ∧
      (admitted .w32 0x3FFFC = true ∧ 0x30000 ≤ (0x3FFFC : Addr).toNat) ∧
      (admitted .w8 0x3FFFF = true ∧ 0x30000 ≤ (0x3FFFF : Addr).toNat) := by decide

/-- An instance whose buffers end inside a word, with two completed bytes. -/
def shortBuffers : State :=
  { State.resetWith { Config.default with ibufSize := 1030, obufSize := 1030 } with olen := 2 }

/-- Words: the first, the last inside the buffer, the first beyond it and the last of the window; bytes: the last inside,
the first beyond and the last of the window; and the two sides of a word that straddles the end of the buffer. -/
theorem witness_InputWindowStoresBytes :
    State.reset.busy = false ∧ State.reset.cfg.wf = true ∧ (0 % 4 = 0 ∧ 0 < 0x10000) ∧
      (4092 % 4 = 0 ∧ 4092 + 4 ≤ State.reset.cfg.ibufSize) ∧ (4096 % 4 = 0 ∧ ¬4096 + 4 ≤ State.reset.cfg.ibufSize) ∧
      (0xFFFC % 4 = 0 ∧ 0xFFFC < 0x10000) ∧ 4095 < State.reset.cfg.ibufSize ∧ ¬4096 < State.reset.cfg.ibufSize ∧
      0xFFFF < 0x10000 ∧
      (shortBuffers.busy = false ∧ shortBuffers.cfg.wf = true ∧ 1028 % 4 = 0 ∧ 1028 + 1 < shortBuffers.cfg.ibufSize ∧
        ¬1028 + 2 < shortBuffers.cfg.ibufSize) := by decide

/-- The last completed byte; the first index beyond the buffer; the lanes of a word that straddles `OLEN` and of one that
straddles `OBUF_SIZE`; idle states that differ and share unspecified bytes; and two busy states that differ. -/
theorem witness_OutputWindowShowsCompletedBytes :
    State.reset.busy = false ∧ 0 < oneByte.olen.toNat ∧
      (State.reset.olen.toNat ≤ 4096 ∧ State.reset.cfg.obufSize ≤ 4096 ∧ 4096 < 0x10000) ∧
      (shortBuffers.busy = false ∧ 0 % 4 = 0 ∧ 0 + 1 < shortBuffers.olen.toNat ∧ shortBuffers.olen.toNat ≤ 0 + 2 ∧
        1028 % 4 = 0 ∧ 1028 + 1 < shortBuffers.cfg.obufSize ∧ shortBuffers.olen.toNat ≤ 1028 + 2 ∧
        shortBuffers.cfg.obufSize ≤ 1028 + 2) ∧
      (State.reset.draws = shortBuffers.draws ∧ State.reset.olen.toNat ≤ 2 ∧ 2 < State.reset.cfg.obufSize ∧
        shortBuffers.olen.toNat ≤ 2 ∧ 2 < shortBuffers.cfg.obufSize ∧ State.reset.olen ≠ shortBuffers.olen) ∧
      (fullStreams.busy = true ∧ oneByte.busy = true ∧ fullStreams.draws = oneByte.draws ∧ (0x00C : Addr) ≠ 0x008) := by
  decide

/-- A busy write; `LOST` cleared by the host and by reset; `LOST` set. -/
theorem witness_BusyWriteOnlySetsLost :
    (oneByte.busy = true ∧ admitted .w32 0x004 = true) ∧
      step { State.reset with lost := true, host := [.write .w32 0x008 0x10] } = .next State.reset ∧
      step { State.reset with lost := true, sched := [.assertReset] } =
        .next (assertReset { State.reset with lost := true, sched := [] }) ∧
      step { oneByte with host := [.write .w32 0x004 7], sched := [.host] } = .next { oneByte with lost := true } :=
  ⟨by decide, rfl, rfl, rfl⟩

theorem witness_UnadmittedAccessIsRefused :
    (0x0FFFF : Addr).toNat < 0x10000 ∧ (0x3FFFE : Addr).toNat % 4 ≠ 0 ∧ 0x10000 ≤ (0x10000 : Addr).toNat ∧
      (0x3FFFC : Addr).toNat % 4 = 0 := by decide

theorem witness_WaitPollsUntilEngineMoves :
    { oneByte with host := [.wait], sched := List.replicate 3 .host }.phase = .running ∧
      { oneByte with host := [.wait], sched := List.replicate 3 .host }.busy = true ∧
      { oneByte with host := [.wait], sched := List.replicate 3 .host }.pending = some 0x00000021 ∧
      { oneByte with host := [.wait], sched := List.replicate 3 .host }.host = .wait :: [] ∧
      { oneByte with host := [.wait], sched := List.replicate 3 .host }.sched = List.replicate 3 .host :=
  ⟨rfl, rfl, rfl, rfl, rfl⟩

end Sys2Proof.Tests
end

section
/-! Proofs about the state (10_state.md), first layer: what a command's body does to the reader, to the writer and to
the tables, said once per group of registers, and the induction over one step that every invariant's proof uses. -/

namespace Sys2Proof.Proofs

open Sys2Proof.Machine Sys2Proof.Safety Sys2Proof.Laws

/-! ## The registers no command's body writes -/

theorem effect_cfg {i : Instr} {s u : State} (h : Effect i s u) : u.cfg = s.cfg := by rw [effect_frame h]

theorem effect_ilen {i : Instr} {s u : State} (h : Effect i s u) : u.ilen = s.ilen := by rw [effect_frame h]

theorem effect_ibuf {i : Instr} {s u : State} (h : Effect i s u) : u.ibuf = s.ibuf := by rw [effect_frame h]

theorem effect_gen {i : Instr} {s u : State} (h : Effect i s u) : u.gen = s.gen := by rw [effect_frame h]

theorem effect_phase {i : Instr} {s u : State} (h : Effect i s u) : u.phase = s.phase := by rw [effect_frame h]

theorem effect_lost {i : Instr} {s u : State} (h : Effect i s u) : u.lost = s.lost := by rw [effect_frame h]

/-! ## The commands of the output stream -/

/-- The commands that write to the output stream when they succeed (R172, R203 to R207, R240). -/
def writesStream : Instr → Bool
  | .encode _ => true
  | .putbit => true
  | .putbyte => true
  | .putint => true
  | .flush => true
  | .wrhdr => true
  | _ => false

/-- `b` agrees with `a` outside the writer and `RESULT`. -/
def SameButWriterResult (a b : State) : Prop := SameButWriter { a with result := b.result } b

theorem emitBytes_sameButWriter (bs : List Byte) (s : State) : SameButWriter s (emitBytes bs s) := by
  unfold SameButWriter
  rw [emitBytes_frame bs s]

theorem SameButWriter.withResult {a b : State} (h : SameButWriter a b) : SameButWriterResult a b := by
  unfold SameButWriterResult
  rw [h]
  rfl

/-- A command of the output stream writes the writer, and `ENCODE` also `RESULT`; nothing else (R172, R203 to R207,
R240). -/
theorem effect_writesStream {i : Instr} {s u : State} (h : Effect i s u) (hi : writesStream i = true) :
    SameButWriterResult s u := by
  cases i <;> cases hi <;> simp only [Effect] at h
  case encode =>
    obtain ⟨-, _, path, -, -, -, rfl⟩ := h
    unfold SameButWriterResult
    rw [show SameButWriter s (emitBits path s) from emitBits_frame path s]
    rfl
  case putbit => obtain ⟨-, -, rfl⟩ := h; exact SameButWriter.withResult (emitBit_frame _ s)
  case putbyte => obtain ⟨-, -, -, rfl⟩ := h; rfl
  case putint | wrhdr => obtain ⟨-, -, rfl⟩ := h; exact SameButWriter.withResult (emitBytes_sameButWriter _ s)
  case flush => rcases h with ⟨-, rfl⟩ | ⟨-, -, rfl⟩ <;> rfl

/-! ## The reader (R209, R34) -/

/-- The walk of `DECODE` ends within the input it is given (R173). -/
theorem walkDown_le {s : State} {rem p q : Nat} {i j : Slot} (h : walkDown s rem p i = some (j, q)) :
    q ≤ p + rem := by
  induction rem generalizing p i with
  | zero =>
    cases hb : (nodeAt s.nodes i).body with
    | leaf sym => rw [walkDown_leaf hb] at h; cases h; omega
    | dummy => rw [walkDown_dummy hb] at h; cases h; omega
    | internal l r => rw [walkDown_end hb] at h; cases h
  | succ rem ih =>
    cases hb : (nodeAt s.nodes i).body with
    | leaf sym => rw [walkDown_leaf hb] at h; cases h; omega
    | dummy => rw [walkDown_dummy hb] at h; cases h; omega
    | internal l r =>
      rw [walkDown_edge hb] at h
      have := ih h
      omega

/-- A position within the input, stored in `IPOS`, is within the input. -/
theorem setIpos_ipos_le {p n : Nat} (h : p ≤ n) (s : State) : (setIpos p s).ipos.toNat ≤ n :=
  (Nat.mod_le p _).trans h

/-- No command moves `IPOS` beyond the input (R34, R209). -/
theorem effect_ipos_le {i : Instr} {s u : State} (h : Effect i s u) (hs : s.ipos.toNat ≤ 8 * s.ilen.toNat) :
    u.ipos.toNat ≤ 8 * s.ilen.toNat := by
  cases i
  case encode | putbit | putbyte | putint | flush | wrhdr =>
    rw [effect_writesStream h rfl]
    exact hs
  all_goals simp only [Effect] at h
  case getbit =>
    obtain ⟨hp, rfl⟩ := h
    exact setIpos_ipos_le (by omega) s
  case getbyte | getint =>
    obtain ⟨ha, hr, rfl⟩ := h
    simp only [readerAligned, bytesRemain, inIndex] at ha hr
    exact setIpos_ipos_le (by omega) s
  case rdhdr =>
    obtain ⟨ha, hr, rfl⟩ := h
    simp only [readerAligned, bytesRemain, inIndex] at ha hr
    exact setIpos_ipos_le (p := s.ipos.toNat + 8 * HDRBYTES) (by omega) s
  case decode =>
    obtain ⟨-, i, p, sym, hw, -, rfl⟩ := h
    have := walkDown_le hw
    exact setIpos_ipos_le (by omega) s
  case irewind => rw [h]; exact Nat.zero_le _
  case count | build => obtain ⟨-, -, rfl⟩ := h; exact hs
  case codelen => obtain ⟨-, _, _, -, -, rfl⟩ := h; exact hs
  all_goals rw [h]; exact hs

/-! ## The writer (R200 to R208) -/

/-- `b` has the parameters and the writer of `a`. -/
structure SameWriter (a b : State) : Prop where
  cfg : b.cfg = a.cfg
  obuf : b.obuf = a.obuf
  olen : b.olen = a.olen
  onbits : b.onbits = a.onbits
  oacc : b.oacc = a.oacc

/-- What a command's body does to the writer, with the number of bytes it completes: nothing, whole bytes, bits, the
padded partial byte, or the drain of `OCLR`. -/
inductive Stores (s : State) : Nat → State → Prop where
  | nothing {u : State} (h : SameWriter s u) : Stores s 0 u
  | bytes {u : State} (bs : List Byte) (hfit : bytesFit bs.length s) (h : SameWriter (emitBytes bs s) u) :
      Stores s bs.length u
  | bits {u : State} (bs : List Bool) (hfit : bitsFit bs.length s) (h : SameWriter (emitBits bs s) u) :
      Stores s ((s.onbits.toNat + bs.length) / 8) u
  | padded {u : State} (hfit : bytesFit 1 s) (h : SameWriter (clearPartial (emitByte s.oacc s)) u) : Stores s 1 u
  | drained {u : State} (h : SameWriter { s with olen := 0 } u) : Stores s 0 u

/-- The one lemma about the writer over all commands: each stores the bytes the prose counts (R172, R203 to R208,
R240). -/
theorem effect_stores {i : Instr} {s u : State} (h : Effect i s u) : Stores s (storedBytes i s) u := by
  cases i <;> simp only [Effect] at h
  case putbit =>
    obtain ⟨-, hfit, rfl⟩ := h
    exact .bits [_] hfit ⟨rfl, rfl, rfl, rfl, rfl⟩
  case putbyte =>
    obtain ⟨-, -, hfit, rfl⟩ := h
    exact .bytes [_] hfit ⟨rfl, rfl, rfl, rfl, rfl⟩
  case putint =>
    obtain ⟨-, hfit, rfl⟩ := h
    have hl := length_intToBytes s.cfg.intOrder s.arg
    have := Stores.bytes (intToBytes s.cfg.intOrder s.arg) (hl ▸ hfit) ⟨rfl, rfl, rfl, rfl, rfl⟩
    rwa [hl] at this
  case wrhdr =>
    obtain ⟨-, hfit, rfl⟩ := h
    have hl := length_headerBytes s
    have := Stores.bytes (headerBytes s) (hl ▸ hfit) ⟨rfl, rfl, rfl, rfl, rfl⟩
    rwa [hl] at this
  case encode =>
    obtain ⟨-, i, path, hi, hp, hfit, rfl⟩ := h
    simp only [storedBytes, hi, hp]
    exact .bits path hfit ⟨rfl, rfl, rfl, rfl, rfl⟩
  case flush =>
    rcases h with ⟨h0, rfl⟩ | ⟨h0, hfit, rfl⟩
    · simp only [storedBytes, if_pos h0]
      exact .nothing ⟨rfl, rfl, rfl, rfl, rfl⟩
    · simp only [storedBytes, if_neg h0]
      exact .padded hfit ⟨rfl, rfl, rfl, rfl, rfl⟩
  case oclr => rw [h]; exact .drained ⟨rfl, rfl, rfl, rfl, rfl⟩
  case count | getbyte | getint | rdhdr | build =>
    obtain ⟨-, -, rfl⟩ := h; exact .nothing ⟨rfl, rfl, rfl, rfl, rfl⟩
  case codelen => obtain ⟨-, _, _, -, -, rfl⟩ := h; exact .nothing ⟨rfl, rfl, rfl, rfl, rfl⟩
  case decode => obtain ⟨-, _, _, _, -, -, rfl⟩ := h; exact .nothing ⟨rfl, rfl, rfl, rfl, rfl⟩
  case getbit => obtain ⟨-, rfl⟩ := h; exact .nothing ⟨rfl, rfl, rfl, rfl, rfl⟩
  all_goals rw [h]; exact .nothing ⟨rfl, rfl, rfl, rfl, rfl⟩

/-- `OLEN` counts the bytes stored, or is drained (R35, R208). -/
theorem Stores.olen {s u : State} {n : Nat} (h : Stores s n u) (hsize : s.cfg.obufSize ≤ 65536) :
    u.olen.toNat = s.olen.toNat + n ∨ u.olen = 0 := by
  cases h with
  | nothing h => exact .inl (by rw [h.olen]; rfl)
  | bytes bs hfit h =>
    simp only [bytesFit] at hfit
    exact .inl (by rw [h.olen, emitBytes_olen bs s (by omega)])
  | bits bs hfit h =>
    simp only [bitsFit, bytesFit] at hfit
    exact .inl (by rw [h.olen, emitBits_olen bs s (by omega)])
  | padded hfit h =>
    simp only [bytesFit] at hfit
    exact .inl (by rw [h.olen, clearPartial_olen, emitByte_olen, BitVec.toNat_ofNat, Nat.mod_eq_of_lt (by omega)])
  | drained h => exact .inr h.olen

/-- The bytes stored fit (R44). -/
theorem Stores.fits {s u : State} {n : Nat} (h : Stores s n u) (holen : s.olen.toNat ≤ s.cfg.obufSize) :
    s.olen.toNat + n ≤ s.cfg.obufSize := by
  cases h with
  | nothing h => exact holen
  | bytes bs hfit h => exact hfit
  | bits bs hfit h => exact hfit
  | padded hfit h => exact hfit
  | drained h => exact holen

theorem partialClean_congr {s u : State} (h : SameWriter s u) (hs : PartialClean s) : PartialClean u := by
  unfold PartialClean
  rw [h.cfg, h.onbits, h.oacc]
  exact hs

/-- The unwritten positions of the partial byte stay 0 (R200, R47). -/
theorem Stores.partialClean {s u : State} {n : Nat} (h : Stores s n u) (hs : PartialClean s) : PartialClean u := by
  cases h with
  | nothing h => exact partialClean_congr h hs
  | bytes bs hfit h =>
    refine partialClean_congr h ?_
    rw [emitBytes_frame bs s]
    exact hs
  | bits bs hfit h => exact partialClean_congr h (emitBits_partialClean bs s hs)
  | padded hfit h => exact partialClean_congr h fun k _ _ => by simp
  | drained h => exact partialClean_congr h hs

theorem outputOk_congr {s u : State} (h : SameWriter s u) (hs : OutputOk s) : OutputOk u := by
  constructor
  · rw [h.obuf]; exact hs.canonical
  · rw [h.obuf, h.cfg]; exact hs.inRange
  · rw [h.obuf, h.olen]; exact hs.completed

/-- The output buffer stays canonical, in range and written below `OLEN` (R35, R44). -/
theorem Stores.outputOk {s u : State} {n : Nat} (h : Stores s n u) (hsize : s.cfg.obufSize ≤ 65536)
    (hs : OutputOk s) : OutputOk u := by
  cases h with
  | nothing h => exact outputOk_congr h hs
  | bytes bs hfit h => exact outputOk_congr h (emitBytes_outputOk bs hs hfit (by omega))
  | bits bs hfit h => exact outputOk_congr h (emitBits_outputOk bs hs hfit (by omega))
  | padded hfit h =>
    have := emitByte_outputOk s.oacc hs hfit (by omega)
    exact outputOk_congr h ⟨this.canonical, this.inRange, this.completed⟩
  | drained h => exact outputOk_congr h ⟨hs.canonical, hs.inRange, fun k hk => absurd hk (Nat.not_lt_zero k)⟩

/-- Outside the bytes stored the output buffer is as it was (R44). -/
theorem Stores.read?_outside {s u : State} {n : Nat} (h : Stores s n u) (hsize : s.cfg.obufSize ≤ 65536) {k : Nat}
    (hk : k < s.olen.toNat ∨ s.olen.toNat + n ≤ k) : Memory.read? u.obuf k = Memory.read? s.obuf k := by
  cases h with
  | nothing h => rw [h.obuf]
  | bytes bs hfit h =>
    simp only [bytesFit] at hfit
    rw [h.obuf, emitBytes_read?_outside bs s (by omega) hk]
  | bits bs hfit h =>
    simp only [bitsFit, bytesFit] at hfit
    rw [h.obuf, emitBits_read?_outside bs s (by omega) hk]
  | padded hfit h => rw [h.obuf, clearPartial_obuf, emitByte_read?_other _ (by omega)]
  | drained h => rw [h.obuf]

/-! ## One step -/

/-- What is to be shown of a property of states for every step to keep it: one field for each thing a step is made
of. -/
structure KeptByMoves (P : State → Prop) : Prop where
  /-- The host's own state changes (log 11). -/
  host : ∀ {s t}, SameBlock s t → P s → P t
  /-- A turn of the schedule is used up (log 3). -/
  sched : ∀ {s} ts, P s → P { s with sched := ts }
  /-- A command's body makes its writes. -/
  effect : ∀ {i s u}, Effect i s u → P s → P u
  /-- A command ends (R260). -/
  ended : ∀ {s} e, s.phase = .running → P s → P (ended e s)
  /-- The host writes (R29, R22, R63). -/
  write : ∀ {s} w a d, P s → P (writePort w a d s)
  /-- Reset is asserted, and released (R290, R291). -/
  assertReset : ∀ {s}, P s → P (assertReset s)
  releaseReset : ∀ {s}, P s → P (releaseReset s)
  /-- The initialisation period ends (R291). -/
  initialised : ∀ {s}, s.phase = .initialising → P s → P (endInitialisation s)

theorem KeptByMoves.execute {P : State → Prop} (hP : KeptByMoves P) {w : Word} {s t : State}
    (hr : s.phase = .running) (hs : P s) (h : execute w s = .next t) : P t := by
  rcases execute_cases h with ⟨e, -, rfl⟩ | ⟨i, u, -, -, hu, rfl⟩
  · exact hP.ended e hr hs
  · exact hP.ended .ok (effect_phase hu ▸ hr) (hP.effect hu hs)

theorem KeptByMoves.moves {P : State → Prop} (hP : KeptByMoves P) {s t : State} (hs : P s) (h : Moves s t) : P t := by
  cases h with
  | idle h => exact h ▸ hs
  | command w hp hb hw h => exact hP.execute hp hs h
  | initialised hp h => exact h ▸ hP.initialised hp hs
  | host op rest hp hh h =>
    have hrest : P { s with host := rest } := hP.host rfl hs
    rcases hostOp_cases h with ⟨w, a, d, -, -, rfl⟩ | h
    · exact hP.write w a d hrest
    · exact hP.host h hrest

/-- The induction over one step: a property every move keeps is kept by every step. -/
theorem KeptByMoves.step {P : State → Prop} (hP : KeptByMoves P) {s t : State} (hs : P s) (h : step s = .next t) :
    P t := by
  rcases step_cases h with ⟨-, h⟩ | ⟨-, ts, -, h⟩ | ⟨ts, -, rfl⟩ | ⟨ts, -, rfl⟩
  · exact hP.moves hs h
  · exact hP.moves (hP.sched ts hs) h
  · exact hP.assertReset (hP.sched ts hs)
  · exact hP.releaseReset (hP.sched ts hs)

/-- What a release of reset can do (R291). -/
theorem releaseReset_cases (s : State) :
    releaseReset s = s ∨ (s.phase = .inReset ∧ releaseReset s = { s with phase := .initialising, busy := true }) := by
  unfold releaseReset
  split
  · next hp => exact .inr ⟨hp, rfl⟩
  · exact .inl rfl
  · exact .inl rfl

/-! ## The stream invariant (R47) -/

theorem wf_iff (c : Config) : c.wf = true ↔
    1028 ≤ c.ibufSize ∧ c.ibufSize ≤ 65536 ∧ 1028 ≤ c.obufSize ∧ c.obufSize ≤ 65536 := by
  simp [Config.wf, and_assoc]

theorem obufSize_le {c : Config} (h : c.wf = true) : c.obufSize ≤ 65536 := ((wf_iff c).1 h).2.2.2

theorem effect_streamInv {i : Instr} {s u : State} (h : Effect i s u) (hs : StreamInv s) : StreamInv u := by
  have hst := effect_stores h
  have hsize := obufSize_le hs.cfg
  refine ⟨?_, ?_, ?_, ?_, hst.partialClean hs.oacc⟩
  · rw [effect_cfg h]; exact hs.cfg
  · rw [effect_ilen h, effect_cfg h]; exact hs.ilen
  · rw [effect_ilen h]; exact effect_ipos_le h hs.ipos
  · rw [effect_cfg h]
    rcases hst.olen hsize with ho | ho
    · rw [ho]; exact hst.fits hs.olen
    · rw [ho]; exact Nat.zero_le _

/-- The stream invariant holds of any state with nothing in its streams, for parameters in their ranges. -/
theorem streamInv_of_empty {s : State} (hc : s.cfg.wf = true) (hi : s.ilen = 0) (hp : s.ipos = 0) (ho : s.olen = 0)
    (ha : s.oacc = 0) : StreamInv s := by
  refine ⟨hc, ?_, ?_, ?_, ?_⟩ <;> simp [hi, hp, ho, ha]

theorem writePort_streamInv {s : State} (w : Width) (a : Addr) (d : Word) (h : StreamInv s) :
    StreamInv (writePort w a d s) := by
  obtain ⟨hc, hi, hp, ho, ha⟩ := h
  rcases writePort_cases w a d s with ⟨-, e⟩ | ⟨-, e | e | e | ⟨-, -, e⟩ | ⟨hd, e⟩ | ⟨hd, e⟩ | ⟨k, e⟩⟩ <;> rw [e]
  · exact ⟨hc, hi, hp, ho, ha⟩
  · exact ⟨hc, hi, hp, ho, ha⟩
  · exact ⟨hc, hi, hp, ho, ha⟩
  · exact ⟨hc, hi, hp, ho, ha⟩
  · exact ⟨hc, hi, hp, ho, ha⟩
  · exact ⟨hc, hd, Nat.zero_le _, ho, ha⟩
  · exact ⟨hc, hi, hd, ho, ha⟩
  · rw [writeInputWindow_frame]; exact ⟨hc, hi, hp, ho, ha⟩

theorem streamInv_kept : KeptByMoves StreamInv where
  host h hs := by rw [h]; exact ⟨hs.cfg, hs.ilen, hs.ipos, hs.olen, hs.oacc⟩
  sched _ hs := ⟨hs.cfg, hs.ilen, hs.ipos, hs.olen, hs.oacc⟩
  effect := effect_streamInv
  ended _ _ hs := ⟨hs.cfg, hs.ilen, hs.ipos, hs.olen, hs.oacc⟩
  write w a d hs := writePort_streamInv w a d hs
  assertReset hs := streamInv_of_empty hs.cfg rfl rfl rfl rfl
  releaseReset {s} hs := by
    rcases releaseReset_cases s with e | ⟨-, e⟩ <;> rw [e]
    · exact hs
    · exact ⟨hs.cfg, hs.ilen, hs.ipos, hs.olen, hs.oacc⟩
  initialised _ hs := ⟨hs.cfg, hs.ilen, hs.ipos, hs.olen, hs.oacc⟩

/-- Settles O13: every move keeps R47; the commands by what they do to the reader and the writer. -/
theorem stepKeepsStreamInvariant : Obligations.StepKeepsStreamInvariant :=
  fun _ _ hs h => streamInv_kept.step hs h

/-! ## The buffers (R35, R43, R44) -/

theorem bufferInv_iff (s : State) : BufferInv s ↔ InputOk s ∧ OutputOk s :=
  ⟨fun h => ⟨⟨h.inCanonical, h.inRange⟩, ⟨h.outCanonical, h.outRange, h.completed⟩⟩,
    fun ⟨hi, ho⟩ => ⟨hi.canonical, ho.canonical, hi.inRange, ho.inRange, ho.completed⟩⟩

theorem effect_bufferInv {i : Instr} {s u : State} (h : Effect i s u) (hc : s.cfg.wf = true) (hs : BufferInv s) :
    BufferInv u := by
  obtain ⟨hin, hout⟩ := (bufferInv_iff s).1 hs
  refine (bufferInv_iff u).2 ⟨⟨?_, ?_⟩, (effect_stores h).outputOk (obufSize_le hc) hout⟩
  · rw [effect_ibuf h]; exact hin.canonical
  · rw [effect_ibuf h, effect_cfg h]; exact hin.inRange

/-- The buffers stay as the invariant asks in any state with the same buffers, sizes and `OLEN`. -/
theorem bufferInv_congr {s t : State} (h : BufferInv s) (hi : t.ibuf = s.ibuf) (ho : t.obuf = s.obuf)
    (hc : t.cfg = s.cfg) (hl : t.olen = s.olen) : BufferInv t := by
  constructor <;> simp only [hi, ho, hc, hl]
  exacts [h.inCanonical, h.outCanonical, h.inRange, h.outRange, h.completed]

theorem bufferInv_of_empty {s : State} (hi : s.ibuf = []) (ho : s.obuf = []) (hl : s.olen = 0) : BufferInv s := by
  constructor <;> simp [hi, ho, hl]

theorem writePort_bufferInv {s : State} (w : Width) (a : Addr) (d : Word) (h : BufferInv s) :
    BufferInv (writePort w a d s) := by
  rcases writePort_cases w a d s with ⟨-, e⟩ | ⟨-, e | e | e | ⟨-, -, e⟩ | ⟨-, e⟩ | ⟨-, e⟩ | ⟨k, e⟩⟩ <;> rw [e]
  on_goal 8 =>
    obtain ⟨hin, hout⟩ := (bufferInv_iff s).1 h
    refine (bufferInv_iff _).2 ⟨writeInputWindow_ok w k d hin, ?_⟩
    rw [writeInputWindow_frame]
    exact ⟨hout.canonical, hout.inRange, hout.completed⟩
  all_goals exact bufferInv_congr h rfl rfl rfl rfl

theorem bufferInv_kept : KeptByMoves fun s => StreamInv s ∧ BufferInv s where
  host h hs := ⟨streamInv_kept.host h hs.1, by rw [h]; exact bufferInv_congr hs.2 rfl rfl rfl rfl⟩
  sched ts hs := ⟨streamInv_kept.sched ts hs.1, bufferInv_congr hs.2 rfl rfl rfl rfl⟩
  effect h hs := ⟨effect_streamInv h hs.1, effect_bufferInv h hs.1.cfg hs.2⟩
  ended e hr hs := ⟨streamInv_kept.ended e hr hs.1, bufferInv_congr hs.2 rfl rfl rfl rfl⟩
  write w a d hs := ⟨writePort_streamInv w a d hs.1, writePort_bufferInv w a d hs.2⟩
  assertReset hs := ⟨streamInv_kept.assertReset hs.1, bufferInv_of_empty rfl rfl rfl⟩
  releaseReset {s} hs := by
    refine ⟨streamInv_kept.releaseReset hs.1, ?_⟩
    rcases releaseReset_cases s with e | ⟨-, e⟩ <;> rw [e] <;> exact bufferInv_congr hs.2 rfl rfl rfl rfl
  initialised hp hs := ⟨streamInv_kept.initialised hp hs.1, bufferInv_congr hs.2 rfl rfl rfl rfl⟩

/-- Settles O14: every move keeps the buffers, by what commands store and host writes of the input window do. -/
theorem stepKeepsBufferInvariant : Obligations.StepKeepsBufferInvariant :=
  fun _ _ hst hs h => (bufferInv_kept.step ⟨hst, hs⟩ h).2

end Sys2Proof.Proofs
end

section
/-! Proofs about the tree `BUILD` makes (42_tree_build.md R144 to R150, 10_state.md R48): the leaves it places, the
forest each merge keeps, and the held tree the last merge leaves. -/

namespace Sys2Proof.Proofs

open Sys2Proof.Machine Sys2Proof.Safety Sys2Proof.Laws

/-! ## Placing the leaves (R144) -/

/-- The slots outside those given to the leaves keep what they held. -/
theorem nodeAt_placeLeaves_outside (freq : FreqTable) (syms : List Byte) {k : Nat} (ar : Arena) {i : Slot}
    (hk : k + syms.length ≤ 511) (hi : i.val < k ∨ k + syms.length ≤ i.val) :
    nodeAt (placeLeaves freq syms k ar) i = nodeAt ar i := by
  induction syms generalizing k ar with
  | nil => rfl
  | cons sym syms ih =>
    simp only [List.length_cons] at hk hi
    have hne : i ≠ slotOf k := fun he => by rw [he, slotOf_val (by omega)] at hi; omega
    rw [placeLeaves, ih _ (by omega) (by omega), nodeAt_setNodeAt, if_neg hne]

/-- Leaf number `j` stands in slot `k + j`. -/
theorem nodeAt_placeLeaves_leaf (freq : FreqTable) {syms : List Byte} {k j : Nat} (ar : Arena) {sym : Byte}
    (hk : k + syms.length ≤ 511) (hj : syms[j]? = some sym) :
    nodeAt (placeLeaves freq syms k ar) (slotOf (k + j)) = leafNode freq sym := by
  induction syms generalizing k j ar with
  | nil => cases hj
  | cons a syms ih =>
    simp only [List.length_cons] at hk
    cases j with
    | zero =>
      cases hj
      rw [placeLeaves, nodeAt_placeLeaves_outside _ _ _ (by omega) (.inl (by rw [Nat.add_zero, slotOf_val] <;> omega)),
        nodeAt_setNodeAt, Nat.add_zero, if_pos rfl]
    | succ j =>
      rw [placeLeaves, ← Nat.add_assoc, Nat.add_right_comm]
      exact ih _ (by omega) hj

theorem leafAt_placeIndex_of_notMem {syms : List Byte} {sym : Byte} (h : sym ∉ syms) (k : Nat) (idx : LeafIndex) :
    leafAt (placeIndex syms k idx) sym = leafAt idx sym := by
  induction syms generalizing k idx with
  | nil => rfl
  | cons a syms ih =>
    obtain ⟨hne, hnotMem⟩ := not_or.1 (mt List.mem_cons.2 h)
    rw [placeIndex, ih hnotMem, leafAt_set, if_neg hne]

/-- `LEAFIDX` names the slot of leaf number `j`. -/
theorem leafAt_placeIndex_leaf {syms : List Byte} (hnd : syms.Nodup) {k j : Nat} (idx : LeafIndex) {sym : Byte}
    (hj : syms[j]? = some sym) : leafAt (placeIndex syms k idx) sym = some (slotOf (k + j)) := by
  induction syms generalizing k j idx with
  | nil => cases hj
  | cons a syms ih =>
    obtain ⟨ha, hnd⟩ := List.nodup_cons.1 hnd
    cases j with
    | zero =>
      cases hj
      rw [placeIndex, leafAt_placeIndex_of_notMem ha, leafAt_set, if_pos rfl, Nat.add_zero]
    | succ j =>
      rw [placeIndex, ← Nat.add_assoc, Nat.add_right_comm]
      exact ih hnd _ hj

/-! ## One merge (R146) -/

theorem arena_ext {ar ar' : Arena} (h : ∀ i, nodeAt ar i = nodeAt ar' i) : ar = ar' :=
  Vector.ext fun i hi => h ⟨i, hi⟩

/-- The arena after a merge, slot by slot. -/
theorem nodeAt_joinNodes (fs : FirstSlot) (ar : Arena) {a b m : Slot} (hab : a ≠ b) (ham : a ≠ m) (hbm : b ≠ m)
    (j : Slot) : nodeAt (joinNodes fs ar a b m) j =
      if j = m then
        { body := mergeBody fs a b, count := (nodeAt ar a).count + (nodeAt ar b).count, parent := none }
      else if j = a ∨ j = b then { nodeAt ar j with parent := some m }
      else nodeAt ar j := by
  simp only [joinNodes, nodeAt_setParent, nodeAt_setNodeAt]
  by_cases hm : j = m
  · subst hm; simp [ham.symm, hbm.symm]
  · by_cases ha : j = a
    · subst ha; simp [hab, ham]
    · by_cases hb : j = b
      · subst hb; simp [ha, hbm]
      · simp [hm, ha, hb]

/-- What a slot is, its parent aside. -/
def SameNode (ar ar' : Arena) (j : Slot) : Prop :=
  (nodeAt ar' j).body = (nodeAt ar j).body ∧ (nodeAt ar' j).count = (nodeAt ar j).count

theorem SameNode.trans {ar ar' ar'' : Arena} {j : Slot} (h : SameNode ar ar' j) (h' : SameNode ar' ar'' j) :
    SameNode ar ar'' j :=
  ⟨h'.1.trans h.1, h'.2.trans h.2⟩

theorem sameNode_joinNodes (fs : FirstSlot) (ar : Arena) {a b m j : Slot} (hab : a ≠ b) (ham : a ≠ m)
    (hbm : b ≠ m) (hj : j ≠ m) : SameNode ar (joinNodes fs ar a b m) j := by
  unfold SameNode
  rw [nodeAt_joinNodes fs ar hab ham hbm, if_neg hj]
  split <;> exact ⟨rfl, rfl⟩

theorem nodeAt_joinNodes_new (fs : FirstSlot) (ar : Arena) {a b m : Slot} (hab : a ≠ b) (ham : a ≠ m) (hbm : b ≠ m) :
    nodeAt (joinNodes fs ar a b m) m =
      { body := mergeBody fs a b, count := (nodeAt ar a).count + (nodeAt ar b).count, parent := none } := by
  rw [nodeAt_joinNodes fs ar hab ham hbm, if_pos rfl]

theorem parent_joinNodes_child (fs : FirstSlot) (ar : Arena) {a b m j : Slot} (hab : a ≠ b) (ham : a ≠ m)
    (hbm : b ≠ m) (hj : j = a ∨ j = b) : (nodeAt (joinNodes fs ar a b m) j).parent = some m := by
  have hjm : j ≠ m := by rcases hj with rfl | rfl <;> assumption
  rw [nodeAt_joinNodes fs ar hab ham hbm, if_neg hjm, if_pos hj]

theorem parent_joinNodes_other (fs : FirstSlot) (ar : Arena) {a b m j : Slot} (hab : a ≠ b) (ham : a ≠ m)
    (hbm : b ≠ m) (hjm : j ≠ m) (hj : ¬(j = a ∨ j = b)) :
    (nodeAt (joinNodes fs ar a b m) j).parent = (nodeAt ar j).parent := by
  rw [nodeAt_joinNodes fs ar hab ham hbm, if_neg hjm, if_neg hj]

/-- The children of a merge are its two nodes, in the order of `FIRST_SLOT`. -/
theorem mergeBody_cases (fs : FirstSlot) (a b : Slot) :
    ∃ l r, mergeBody fs a b = .internal l r ∧ ((l = a ∧ r = b) ∨ (l = b ∧ r = a)) := by
  cases fs
  · exact ⟨a, b, rfl, .inl ⟨rfl, rfl⟩⟩
  · exact ⟨b, a, rfl, .inr ⟨rfl, rfl⟩⟩

/-- A merge of two or more live nodes takes the first and the second of them (R143, R146). -/
theorem mergeOnce_eq (fs : FirstSlot) (m : Slot) (ar : Arena) {live : List Slot} (hnd : live.Nodup)
    (hlen : 2 ≤ live.length) : ∃ a b, pickMin ar live = some a ∧ pickMin ar (live.erase a) = some b ∧
      a ∈ live ∧ b ∈ live ∧ a ≠ b ∧
      mergeOnce fs m ar live = (joinNodes fs ar a b m, (live.erase a).erase b ++ [m]) := by
  obtain ⟨a, ha⟩ := pickMin_isSome ar (live := live) (by rintro rfl; simp at hlen)
  have hal := pickMin_mem ha
  have hlen' : (live.erase a).length = live.length - 1 := List.length_erase_of_mem hal
  obtain ⟨b, hb⟩ := pickMin_isSome ar (live := live.erase a) (by intro h; rw [h, List.length_nil] at hlen'; omega)
  obtain ⟨hba, hbl⟩ := hnd.mem_erase_iff.1 (pickMin_mem hb)
  exact ⟨a, b, ha, hb, hal, hbl, hba.symm, by simp only [mergeOnce, ha, hb]⟩

/-! ## The forest the merges build (R145, R146, R150) -/

/-- Internal slot `m` and its children `l` and `r` are joined as R48 asks: the children are older and distinct, name `m`
as parent, and `m` has the sum of their counts. -/
structure Joins (ar : Arena) (m l r : Slot) : Prop where
  left_lt : l < m
  right_lt : r < m
  ne : l ≠ r
  left_parent : (nodeAt ar l).parent = some m
  right_parent : (nodeAt ar r).parent = some m
  count : (nodeAt ar m).count = (nodeAt ar l).count + (nodeAt ar r).count

/-- What every merge keeps. The slots below `m` are in use, those below `c` childless and the others internal; `live`
lists the slots in use without a parent. -/
structure Forest (c m : Nat) (ar : Arena) (live : List Slot) : Prop where
  nodup : live.Nodup
  mem : ∀ j, j ∈ live ↔ j.val < m ∧ (nodeAt ar j).parent = none
  joined : ∀ i : Slot, c ≤ i.val → i.val < m → ∃ l r, (nodeAt ar i).body = .internal l r ∧ Joins ar i l r
  parent : ∀ i p : Slot, i.val < m → (nodeAt ar i).parent = some p →
    c ≤ p.val ∧ p.val < m ∧ ∃ l r, (nodeAt ar p).body = .internal l r ∧ (i = l ∨ i = r)

/-- The new slot of a merge is joined to its two nodes (R146). -/
theorem joins_new (fs : FirstSlot) (ar : Arena) {a b m : Slot} (hab : a ≠ b) (ham : a < m) (hbm : b < m) :
    ∃ l r, (nodeAt (joinNodes fs ar a b m) m).body = .internal l r ∧ Joins (joinNodes fs ar a b m) m l r ∧
      ∀ i, i = a ∨ i = b → i = l ∨ i = r := by
  have hnew := nodeAt_joinNodes_new fs ar hab (Fin.ne_of_lt ham) (Fin.ne_of_lt hbm)
  have hchild := fun j => parent_joinNodes_child fs ar (j := j) hab (Fin.ne_of_lt ham) (Fin.ne_of_lt hbm)
  have ha := (sameNode_joinNodes fs ar hab (Fin.ne_of_lt ham) (Fin.ne_of_lt hbm) (Fin.ne_of_lt ham)).2
  have hb := (sameNode_joinNodes fs ar hab (Fin.ne_of_lt ham) (Fin.ne_of_lt hbm) (Fin.ne_of_lt hbm)).2
  obtain ⟨l, r, hbody, ⟨rfl, rfl⟩ | ⟨rfl, rfl⟩⟩ := mergeBody_cases fs a b
  · exact ⟨l, r, by rw [hnew, hbody], ⟨ham, hbm, hab, hchild l (.inl rfl), hchild r (.inr rfl), by rw [hnew, ha, hb]⟩,
      fun _ h => h⟩
  · exact ⟨l, r, by rw [hnew, hbody], ⟨hbm, ham, hab.symm, hchild l (.inr rfl), hchild r (.inl rfl),
      by rw [hnew, ha, hb, Nat.add_comm]⟩, fun _ h => h.symm⟩

/-- A merge of slots without parents leaves the older internal slots joined. -/
theorem Joins.joinNodes {fs : FirstSlot} {ar : Arena} {a b m i l r : Slot} (h : Joins ar i l r) (him : i < m)
    (hab : a ≠ b) (ham : a ≠ m) (hbm : b ≠ m) (ha : (nodeAt ar a).parent = none) (hb : (nodeAt ar b).parent = none) :
    Joins (joinNodes fs ar a b m) i l r := by
  have hother : ∀ j, j < i → (nodeAt ar j).parent = some i →
      (nodeAt (Machine.joinNodes fs ar a b m) j).parent = some i := by
    intro j hj hp
    refine (parent_joinNodes_other fs ar hab ham hbm (Fin.ne_of_lt (hj.trans him)) ?_).trans hp
    rintro (rfl | rfl)
    · rw [ha] at hp; cases hp
    · rw [hb] at hp; cases hp
  have hcount : ∀ j, j < m → (nodeAt (Machine.joinNodes fs ar a b m) j).count = (nodeAt ar j).count := fun j hj =>
    (sameNode_joinNodes fs ar hab ham hbm (Fin.ne_of_lt hj)).2
  refine ⟨h.left_lt, h.right_lt, h.ne, hother l h.left_lt h.left_parent, hother r h.right_lt h.right_parent, ?_⟩
  rw [hcount i him, hcount l (h.left_lt.trans him), hcount r (h.right_lt.trans him)]
  exact h.count

/-- A merge of two live nodes into the next slot keeps the forest. -/
theorem Forest.join {c : Nat} {m : Slot} {ar : Arena} {live : List Slot} (h : Forest c m.val ar live)
    (hcm : c ≤ m.val) (fs : FirstSlot) {a b : Slot} (ha : a ∈ live) (hb : b ∈ live) (hab : a ≠ b) :
    Forest c (m.val + 1) (joinNodes fs ar a b m) ((live.erase a).erase b ++ [m]) := by
  obtain ⟨halt, hap⟩ := (h.mem a).1 ha
  obtain ⟨hblt, hbp⟩ := (h.mem b).1 hb
  have ham : a ≠ m := Fin.ne_of_lt halt
  have hbm : b ≠ m := Fin.ne_of_lt hblt
  have hnew := nodeAt_joinNodes_new fs ar hab ham hbm
  have hchild := fun j => parent_joinNodes_child fs ar (j := j) hab ham hbm
  have hother := fun j => parent_joinNodes_other fs ar (j := j) hab ham hbm
  have hbody := fun j hj => (sameNode_joinNodes fs ar (j := j) hab ham hbm hj).1
  have hlt : ∀ {j : Slot}, j.val < m.val + 1 → j ≠ m → j.val < m.val := fun hj hne =>
    Nat.lt_of_le_of_ne (Nat.le_of_lt_succ hj) (Fin.val_ne_of_ne hne)
  obtain ⟨l, r, hlr, hjoins, hsub⟩ := joins_new fs ar hab halt hblt
  refine ⟨?nodup, fun j => ?mem, fun i hi him => ?joined, fun i p hi hp => ?parent⟩
  case nodup =>
    refine List.nodup_append.2 ⟨(h.nodup.erase a).erase b, List.nodup_singleton m, fun j hj k hk hjk => ?_⟩
    rw [List.mem_singleton.1 hk] at hjk
    have hmem := List.mem_of_mem_erase (List.mem_of_mem_erase hj)
    exact Nat.lt_irrefl m.val (hjk ▸ ((h.mem j).1 hmem).1)
  case mem =>
    rw [List.mem_append, List.mem_singleton, (h.nodup.erase a).mem_erase_iff, h.nodup.mem_erase_iff, h.mem]
    by_cases hjm : j = m
    · subst hjm; simp [hnew]
    · by_cases hj : j = a ∨ j = b
      · rw [hchild j hj]; simp only [hjm, reduceCtorEq]; tauto
      · rw [hother j hjm hj]
        have : j.val < m.val + 1 ↔ j.val < m.val := ⟨fun hj => hlt hj hjm, Nat.lt_succ_of_lt⟩
        tauto
  case joined =>
    by_cases hm : i = m
    · subst hm; exact ⟨l, r, hlr, hjoins⟩
    · obtain ⟨l, r, hi', hj⟩ := h.joined i hi (hlt him hm)
      exact ⟨l, r, (hbody i hm).trans hi', hj.joinNodes (hlt him hm) hab ham hbm hap hbp⟩
  case parent =>
    by_cases him : i = m
    · rw [him, hnew] at hp; cases hp
    · by_cases hi' : i = a ∨ i = b
      · rw [hchild i hi'] at hp
        cases hp
        exact ⟨hcm, Nat.lt_succ_self _, l, r, hlr, hsub i hi'⟩
      · rw [hother i him hi'] at hp
        obtain ⟨hcp, hpm, l, r, hp', hlr⟩ := h.parent i p (hlt hi him) hp
        exact ⟨hcp, Nat.lt_succ_of_lt hpm, l, r, (hbody p (Fin.ne_of_lt hpm)).trans hp', hlr⟩

/-- The merge loop leaves one live node, and the slots made before it are what they were (R150). -/
theorem Forest.mergeLoop {c k m : Nat} {ar : Arena} {live : List Slot} (h : Forest c m ar live) (hcm : c ≤ m)
    (hlen : live.length = k + 1) (hm : m + k ≤ 511) (fs : FirstSlot) :
    (∃ root, Forest c (m + k) (mergeLoop fs k m ar live) [root]) ∧
      ∀ j : Slot, j.val < m → SameNode ar (mergeLoop fs k m ar live) j := by
  induction k generalizing m ar live with
  | zero =>
    obtain ⟨root, rfl⟩ := List.length_eq_one_iff.1 hlen
    exact ⟨⟨root, h⟩, fun j _ => ⟨rfl, rfl⟩⟩
  | succ k ih =>
    obtain ⟨a, b, -, -, ha, hb, hab, he⟩ := mergeOnce_eq fs (slotOf m) ar h.nodup (by omega)
    have hv : (slotOf m).val = m := slotOf_val (by omega)
    have ham : a ≠ slotOf m := Fin.ne_of_val_ne (hv.symm ▸ Nat.ne_of_lt ((h.mem a).1 ha).1)
    have hbm : b ≠ slotOf m := Fin.ne_of_val_ne (hv.symm ▸ Nat.ne_of_lt ((h.mem b).1 hb).1)
    have hj := Forest.join (m := slotOf m) (hv.symm ▸ h) (hv.symm ▸ hcm) fs ha hb hab
    rw [hv] at hj
    have hlen' : ((live.erase a).erase b ++ [slotOf m]).length = k + 1 := by
      rw [List.length_append, List.length_erase_of_mem (h.nodup.mem_erase_iff.2 ⟨hab.symm, hb⟩),
        List.length_erase_of_mem ha]
      simp
      omega
    obtain ⟨⟨root, hroot⟩, hsame⟩ := ih hj (by omega) hlen' (by omega)
    simp only [Machine.mergeLoop, he]
    refine ⟨⟨root, by rwa [Nat.add_assoc, Nat.add_comm 1 k] at hroot⟩, fun j hjm => ?_⟩
    have hjne : j ≠ slotOf m := Fin.ne_of_val_ne (hv.symm ▸ Nat.ne_of_lt hjm)
    exact (sameNode_joinNodes fs ar hab ham hbm hjne).trans (hsame j (by omega))

/-- The one live node left is the slot made last. -/
theorem Forest.root_val {c m : Nat} {ar : Arena} {root : Slot} (h : Forest c (m + 1) ar [root]) (hm : m < 511) :
    root.val = m := by
  have hv : (slotOf m).val = m := slotOf_val hm
  have htop : (nodeAt ar (slotOf m)).parent = none := by
    cases hp : (nodeAt ar (slotOf m)).parent with
    | none => rfl
    | some p =>
      obtain ⟨hcp, hpm, l, r, hbody, hlr⟩ := h.parent (slotOf m) p (by omega) hp
      obtain ⟨l', r', hbody', hj⟩ := h.joined p hcp hpm
      rw [hbody] at hbody'
      cases hbody'
      have hl := hj.left_lt
      have hr := hj.right_lt
      rcases hlr with rfl | rfl <;> rw [Fin.lt_def, hv] at * <;> omega
  have := List.mem_singleton.1 ((h.mem (slotOf m)).2 ⟨by omega, htop⟩)
  rw [← this, hv]

theorem slotOf_val_self (i : Slot) : slotOf i.val = i := Fin.ext (slotOf_val i.isLt)

/-- Slots without parents, each alone, are a forest. -/
theorem forest_of_parentless {n : Nat} {ar : Arena} (hn : n ≤ 511)
    (h : ∀ j : Slot, j.val < n → (nodeAt ar j).parent = none) : Forest n n ar ((List.range n).map slotOf) := by
  refine ⟨?_, fun j => ?_, fun i hi hi' => absurd hi (Nat.not_le.2 hi'), fun i p hi hp => ?_⟩
  · refine List.Nodup.map_on (fun i hi j hj hij => ?_) List.nodup_range
    have hi' := List.mem_range.1 hi
    have hj' := List.mem_range.1 hj
    have := congrArg Fin.val hij
    rwa [slotOf_val (by omega), slotOf_val (by omega)] at this
  · rw [List.mem_map]
    constructor
    · rintro ⟨k, hk, rfl⟩
      have hk' := List.mem_range.1 hk
      have hv : (slotOf k).val < n := by rwa [slotOf_val (by omega)]
      exact ⟨hv, h _ hv⟩
    · rintro ⟨hj, -⟩
      exact ⟨j.val, List.mem_range.2 hj, slotOf_val_self j⟩
  · rw [h i hi] at hp; cases hp

/-- A leaf just placed has no parent (R144). -/
theorem parent_placeLeaves (freq : FreqTable) (ar : Arena) {j : Slot} (hj : j.val < (alphabet freq).length) :
    (nodeAt (placeLeaves freq (alphabet freq) 0 ar) j).parent = none := by
  have hn := length_alphabet_le freq
  have hleaf := nodeAt_placeLeaves_leaf freq (k := 0) ar (by omega) (List.getElem?_eq_getElem hj)
  rw [Nat.zero_add, slotOf_val_self] at hleaf
  rw [hleaf]
  rfl

/-! ## The held tree (R48) -/

/-- What `BUILD` leaves: a forest with one root over the leaves of the alphabet, the slots from there up to `c` being
dummies of the one-symbol tree. -/
structure BuiltTree (s : State) (c : Nat) : Prop where
  forest : Forest c (s.root.val + 1) s.nodes [s.root]
  leaves : ∀ k sym, (alphabet s.freq)[k]? = some sym → (nodeAt s.nodes (slotOf k)).body = .leaf sym ∧
    (nodeAt s.nodes (slotOf k)).count = (freqAt s.freq sym).toNat ∧ leafAt s.leafIdx sym = some (slotOf k)
  noLeaf : ∀ sym, sym ∉ alphabet s.freq → leafAt s.leafIdx sym = none
  dummies : ∀ i : Slot, (alphabet s.freq).length ≤ i.val → i.val < c → (nodeAt s.nodes i).body = .dummy ∧
    (nodeAt s.nodes i).count = 0 ∧ s.cfg.singleMode = .oneBit ∧ s.nleaf = 1
  length_le : (alphabet s.freq).length ≤ c
  le_root : c ≤ s.root.val + 1
  size : s.nleaf.toNat = (alphabet s.freq).length ∧ 1 ≤ (alphabet s.freq).length ∧
    s.root = rootOf s.cfg (alphabet s.freq).length

/-- A held slot is a leaf of the alphabet, a dummy, or a joined internal node. -/
theorem BuiltTree.slot_cases {s : State} {c : Nat} (h : BuiltTree s c) {i : Slot} (hi : i ≤ s.root) :
    (∃ sym, (alphabet s.freq)[i.val]? = some sym ∧ (nodeAt s.nodes i).body = .leaf sym) ∨
      ((nodeAt s.nodes i).body = .dummy ∧ (nodeAt s.nodes i).count = 0 ∧ s.cfg.singleMode = .oneBit ∧ s.nleaf = 1) ∨
      (c ≤ i.val ∧ ∃ l r, (nodeAt s.nodes i).body = .internal l r ∧ Joins s.nodes i l r) := by
  by_cases hn : i.val < (alphabet s.freq).length
  · have hsym := List.getElem?_eq_getElem hn
    have hbody := (h.leaves _ _ hsym).1
    rw [slotOf_val_self] at hbody
    exact .inl ⟨_, hsym, hbody⟩
  · by_cases hc : i.val < c
    · exact .inr (.inl (h.dummies i (Nat.le_of_not_lt hn) hc))
    · exact .inr (.inr ⟨Nat.le_of_not_lt hc, h.forest.joined i (Nat.le_of_not_lt hc) (Nat.lt_succ_of_le hi)⟩)

theorem BuiltTree.heldTree {s : State} {c : Nat} (h : BuiltTree s c) : HeldTree s where
  leaf i sym hi hb := by
    rcases h.slot_cases hi with ⟨sym', hsym, hb'⟩ | ⟨hb', -⟩ | ⟨-, l, r, hb', -⟩ <;> rw [hb] at hb' <;> cases hb'
    obtain ⟨-, hcount, hidx⟩ := h.leaves _ _ hsym
    rw [slotOf_val_self] at hcount hidx
    refine ⟨hcount, (mem_alphabet _ _).1 (List.mem_of_getElem? hsym), hidx, ?_⟩
    rw [h.size.1]
    exact (List.getElem?_eq_some_iff.1 hsym).1
  hasLeaf sym hf := by
    obtain ⟨k, hk⟩ := List.getElem?_of_mem ((mem_alphabet s.freq sym).2 hf)
    obtain ⟨hbody, -, hidx⟩ := h.leaves k sym hk
    have hlt := (List.getElem?_eq_some_iff.1 hk).1
    have := length_alphabet_le s.freq
    have := h.length_le
    have := h.le_root
    refine ⟨slotOf k, hidx, ?_, hbody⟩
    rw [Fin.le_def, slotOf_val (by omega)]
    omega
  noLeaf sym hf := h.noLeaf sym fun hm => (mem_alphabet _ _).1 hm hf
  internal m l r hm hb := by
    rcases h.slot_cases hm with ⟨sym', -, hb'⟩ | ⟨hb', -⟩ | ⟨hcm, l', r', hb', hj⟩ <;> rw [hb] at hb' <;> cases hb'
    exact ⟨hj.left_lt, hj.right_lt, hj.ne, hj.left_parent, hj.right_parent, hj.count,
      h.size.1 ▸ h.length_le.trans hcm⟩
  parent i p hi hp := by
    obtain ⟨-, hpr, hbody⟩ := h.forest.parent i p (Nat.lt_succ_of_le hi) hp
    exact ⟨Nat.le_of_lt_succ hpr, hbody⟩
  top i hi := by
    have := h.forest.mem i
    rw [List.mem_singleton] at this
    exact ⟨fun hp => this.2 ⟨Nat.lt_succ_of_le hi, hp⟩, fun he => (this.1 he).2⟩
  dummy i hi hb := by
    rcases h.slot_cases hi with ⟨sym', -, hb'⟩ | ⟨-, hd⟩ | ⟨-, l, r, hb', -⟩
    · rw [hb] at hb'; cases hb'
    · exact hd
    · rw [hb] at hb'; cases hb'
  size := h.size

/-! ## The tree of `BUILD` (R147, R150) -/

/-- The arena with a dummy in slot 1, before it is joined (R147). -/
def withDummy (ar : Arena) : Arena := setNodeAt ar (slotOf 1) { body := .dummy, count := 0, parent := none }

/-- The `ONE_BIT` tree joins the leaf in slot 0 with a dummy in slot 1 (R147). -/
theorem singleTree_eq_joinNodes (ar : Arena) :
    singleTree ar = joinNodes .left (withDummy ar) (slotOf 0) (slotOf 1) (slotOf 2) := by
  apply arena_ext
  intro i
  rw [nodeAt_joinNodes _ _ (by decide) (by decide) (by decide)]
  simp only [singleTree, withDummy, nodeAt_setParent, nodeAt_setNodeAt]
  by_cases h2 : i = slotOf 2
  · subst h2; rfl
  · by_cases h1 : i = slotOf 1
    · subst h1; rfl
    · by_cases h0 : i = slotOf 0
      · subst h0; rfl
      · simp [h0, h1, h2]

theorem sameNode_withDummy (ar : Arena) {j : Slot} (hj : j ≠ slotOf 1) : SameNode ar (withDummy ar) j := by
  unfold SameNode withDummy
  rw [nodeAt_setNodeAt, if_neg hj]
  exact ⟨rfl, rfl⟩

theorem sameNode_singleTree (ar : Arena) {j : Slot} (hj : j ≠ slotOf 2) :
    SameNode (withDummy ar) (singleTree ar) j := by
  rw [singleTree_eq_joinNodes]
  exact sameNode_joinNodes .left _ (by decide) (by decide) (by decide) hj

/-- The `ONE_BIT` tree is one merge of two childless slots (R147). -/
theorem forest_singleTree {ar : Arena} (h : (nodeAt ar (slotOf 0)).parent = none) :
    Forest 2 3 (singleTree ar) [slotOf 2] := by
  have hpair : Forest 2 2 (withDummy ar) [slotOf 0, slotOf 1] := by
    refine forest_of_parentless (by decide) fun j hj => ?_
    unfold withDummy
    rw [nodeAt_setNodeAt]
    split
    · rfl
    · next hne =>
      have hv : j.val ≠ 1 := Fin.val_ne_of_ne hne
      obtain rfl : j = slotOf 0 := Fin.ext (by rw [slotOf_val (by decide)]; omega)
      exact h
  rw [singleTree_eq_joinNodes]
  exact hpair.join (m := slotOf 2) (Nat.le_refl 2) .left (a := slotOf 0) (b := slotOf 1) (by decide) (by decide)
    (by decide)

/-- Outside the `ONE_BIT` tree the leaves are merged, one leaf by no merge (R147, R150). -/
theorem joinLeaves_eq_mergeLoop {cfg : Config} {n : Nat} (h : ¬(n = 1 ∧ cfg.singleMode = .oneBit)) (ar : Arena) :
    joinLeaves cfg n ar = mergeLoop cfg.firstSlot (n - 1) n ar ((List.range n).map slotOf) ∧
      rootOf cfg n = slotOf (2 * n - 2) := by
  unfold joinLeaves rootOf
  by_cases hn : n = 1
  · subst hn
    cases hm : cfg.singleMode with
    | oneBit => exact absurd ⟨rfl, hm⟩ h
    | zeroBit => exact ⟨rfl, rfl⟩
    | reject => exact ⟨rfl, rfl⟩
  · rw [if_neg hn, if_neg hn]
    exact ⟨rfl, rfl⟩

theorem toNat_nleaf_buildTree (s : State) : (buildTree s).nleaf.toNat = (alphabet s.freq).length := by
  have := length_alphabet_le s.freq
  show (BitVec.ofNat 9 _).toNat = _
  rw [BitVec.toNat_ofNat, Nat.mod_eq_of_lt (by omega)]

/-- The leaves a `BUILD` places are in the arena it leaves, whatever is joined above them (R144). -/
theorem buildTree_leaves {s : State}
    (hsame : ∀ j : Slot, j.val < (alphabet s.freq).length →
      SameNode (placeLeaves s.freq (alphabet s.freq) 0 s.nodes) (buildTree s).nodes j)
    (k : Nat) (sym : Byte) (hk : (alphabet s.freq)[k]? = some sym) :
    (nodeAt (buildTree s).nodes (slotOf k)).body = .leaf sym ∧
      (nodeAt (buildTree s).nodes (slotOf k)).count = (freqAt s.freq sym).toNat ∧
      leafAt (buildTree s).leafIdx sym = some (slotOf k) := by
  have hn := length_alphabet_le s.freq
  have hlt := (List.getElem?_eq_some_iff.1 hk).1
  have hleaf := nodeAt_placeLeaves_leaf s.freq (k := 0) s.nodes (by omega) hk
  have hidx := leafAt_placeIndex_leaf (alphabet_nodup s.freq) (k := 0) (Vector.replicate NSYM none) hk
  rw [Nat.zero_add] at hleaf hidx
  obtain ⟨hbody, hcount⟩ := hsame (slotOf k) (by rw [slotOf_val (by omega)]; exact hlt)
  rw [hleaf] at hbody hcount
  exact ⟨hbody, hcount, hidx⟩

theorem buildTree_noLeaf {s : State} {sym : Byte} (h : sym ∉ alphabet s.freq) :
    leafAt (buildTree s).leafIdx sym = none :=
  (leafAt_placeIndex_of_notMem h 0 _).trans (leafAt_replicate none sym)

/-- Outside the `ONE_BIT` tree `BUILD` leaves the tree its merges make (R150). -/
theorem builtTree_merged {s : State} (h1 : 1 ≤ (alphabet s.freq).length)
    (h2 : ¬((alphabet s.freq).length = 1 ∧ s.cfg.singleMode = .oneBit)) :
    BuiltTree (buildTree s) (alphabet s.freq).length := by
  have hn := length_alphabet_le s.freq
  obtain ⟨hjoin, hroot⟩ := joinLeaves_eq_mergeLoop h2 (placeLeaves s.freq (alphabet s.freq) 0 s.nodes)
  have hlen : ((List.range (alphabet s.freq).length).map slotOf).length = (alphabet s.freq).length - 1 + 1 := by
    rw [List.length_map, List.length_range]; omega
  obtain ⟨⟨root, hforest⟩, hsame⟩ :=
    (forest_of_parentless (by omega) fun j => parent_placeLeaves s.freq s.nodes).mergeLoop (Nat.le_refl _) hlen
      (by omega) s.cfg.firstSlot
  rw [← hjoin] at hforest hsame
  rw [show (alphabet s.freq).length + ((alphabet s.freq).length - 1) = 2 * (alphabet s.freq).length - 2 + 1 by omega]
    at hforest
  have hval : (rootOf s.cfg (alphabet s.freq).length).val = 2 * (alphabet s.freq).length - 2 := by
    rw [hroot, slotOf_val (by omega)]
  have hr : root = rootOf s.cfg (alphabet s.freq).length :=
    Fin.ext ((hforest.root_val (by omega)).trans hval.symm)
  refine ⟨?_, buildTree_leaves hsame, fun sym => buildTree_noLeaf, fun i hi hi' => absurd hi (Nat.not_le.2 hi'),
    Nat.le_refl _, ?_, toNat_nleaf_buildTree s, h1, rfl⟩
  · show Forest _ ((rootOf s.cfg _).val + 1) _ [rootOf s.cfg _]
    rw [← hr, hforest.root_val (by omega)]
    exact hforest
  · show _ ≤ (rootOf s.cfg _).val + 1
    omega

/-- A one-symbol table gives the `ONE_BIT` tree (R147). -/
theorem builtTree_single {s : State} (h1 : (alphabet s.freq).length = 1) (h2 : s.cfg.singleMode = .oneBit) :
    BuiltTree (buildTree s) 2 := by
  have hjoin : (buildTree s).nodes = singleTree (placeLeaves s.freq (alphabet s.freq) 0 s.nodes) := by
    show joinLeaves _ _ _ = _
    simp only [joinLeaves, if_pos h1, h2]
  have hroot : (buildTree s).root = slotOf 2 := by
    show rootOf _ _ = _
    simp only [rootOf, if_pos h1, h2]
  have hfreq : (alphabet (buildTree s).freq).length = 1 := h1
  have hn : (slotOf 0).val < (alphabet s.freq).length := by rw [h1]; decide
  refine ⟨?_, buildTree_leaves (s := s) fun j hj => ?_, fun sym => buildTree_noLeaf, fun i hi hi' => ?_, by omega, ?_,
    toNat_nleaf_buildTree s, hfreq ▸ Nat.le_refl 1, rfl⟩
  · rw [hroot, hjoin]
    exact forest_singleTree (parent_placeLeaves s.freq s.nodes hn)
  · obtain rfl : j = slotOf 0 := Fin.ext (by rw [slotOf_val (by decide)]; omega)
    rw [hjoin]
    exact (sameNode_withDummy _ (by decide)).trans (sameNode_singleTree _ (by decide))
  · obtain rfl : i = slotOf 1 := Fin.ext (by rw [slotOf_val (by decide)]; omega)
    obtain ⟨hbody, hcount⟩ := sameNode_singleTree (placeLeaves s.freq (alphabet s.freq) 0 s.nodes)
      (j := slotOf 1) (by decide)
    unfold withDummy at hbody hcount
    rw [nodeAt_setNodeAt, if_pos rfl] at hbody hcount
    refine ⟨hjoin ▸ hbody, hjoin ▸ hcount, h2, ?_⟩
    show BitVec.ofNat 9 _ = 1
    rw [h1]
    rfl
  · rw [hroot]; decide

/-- `BUILD` leaves a held tree for every table with a symbol (R48, R150). -/
theorem heldTree_buildTree {s : State} (h1 : 1 ≤ (alphabet s.freq).length) : HeldTree (buildTree s) := by
  by_cases h2 : (alphabet s.freq).length = 1 ∧ s.cfg.singleMode = .oneBit
  · exact (builtTree_single h2.1 h2.2).heldTree
  · exact (builtTree_merged h1 h2).heldTree

end Sys2Proof.Proofs
end

section
/-! Proofs about the tree invariant (10_state.md R48) along a step, and that no run ends in a fault (43_encode_decode.md
R170). -/

namespace Sys2Proof.Proofs

open Sys2Proof.Machine Sys2Proof.Safety Sys2Proof.Laws

/-! ## The tables and the held tree over all commands -/

/-- `b` has the table, the arena with its root and leaves, `TREE_VALID` and the parameters of `a`. -/
structure SameTree (a b : State) : Prop where
  freq : b.freq = a.freq
  nodes : b.nodes = a.nodes
  root : b.root = a.root
  nleaf : b.nleaf = a.nleaf
  leafIdx : b.leafIdx = a.leafIdx
  treeValid : b.treeValid = a.treeValid
  cfg : b.cfg = a.cfg

theorem treeInv_congr {s t : State} (hs : TreeInv s) (h : SameTree s t) : TreeInv t := fun hv =>
  heldTree_congr (hs (h.treeValid ▸ hv)) h.freq h.nodes h.root h.nleaf h.leafIdx (congrArg _ h.cfg)

/-- A command that neither builds nor changes the table keeps the table and the tree (R28). -/
theorem effect_sameTree {i : Instr} {s u : State} (h : Effect i s u) (hb : i ≠ .build) (hc : changesTable i = false) :
    SameTree s u := by
  cases i
  case build => exact absurd rfl hb
  case clrf | setf | count | rdhdr => cases hc
  case encode | putbit | putbyte | putint | flush | wrhdr =>
    rw [effect_writesStream h rfl]
    exact ⟨rfl, rfl, rfl, rfl, rfl, rfl, rfl⟩
  all_goals simp only [Effect] at h
  case codelen => obtain ⟨-, _, _, -, -, rfl⟩ := h; exact ⟨rfl, rfl, rfl, rfl, rfl, rfl, rfl⟩
  case decode => obtain ⟨-, _, _, _, -, -, rfl⟩ := h; exact ⟨rfl, rfl, rfl, rfl, rfl, rfl, rfl⟩
  case getbit => obtain ⟨-, rfl⟩ := h; exact ⟨rfl, rfl, rfl, rfl, rfl, rfl, rfl⟩
  case getbyte | getint => obtain ⟨-, -, rfl⟩ := h; exact ⟨rfl, rfl, rfl, rfl, rfl, rfl, rfl⟩
  all_goals rw [h]; exact ⟨rfl, rfl, rfl, rfl, rfl, rfl, rfl⟩

/-- A command that changes the table clears `TREE_VALID` (R28). -/
theorem effect_changesTable {i : Instr} {s u : State} (h : Effect i s u) (hc : changesTable i = true) :
    u.treeValid = false := by
  cases i <;> cases hc <;> simp only [Effect] at h
  case clrf | setf => rw [h]
  case count | rdhdr => obtain ⟨-, -, rfl⟩ := h; rfl

theorem effect_build {s u : State} (h : Effect .build s u) : 1 ≤ (alphabet s.freq).length ∧ u = buildTree s :=
  ⟨h.1, h.2.2⟩

theorem effect_treeInv {i : Instr} {s u : State} (h : Effect i s u) (hs : TreeInv s) : TreeInv u := by
  by_cases hb : i = .build
  · subst hb
    obtain ⟨hn, rfl⟩ := effect_build h
    exact fun _ => heldTree_buildTree hn
  · cases hc : changesTable i with
    | true => exact fun hv => absurd (hv.symm.trans (effect_changesTable h hc)) (by decide)
    | false => exact treeInv_congr hs (effect_sameTree h hb hc)

theorem writePort_sameTree (w : Width) (a : Addr) (d : Word) (s : State) : SameTree s (writePort w a d s) := by
  rcases writePort_cases w a d s with ⟨-, e⟩ | ⟨-, e | e | e | ⟨-, -, e⟩ | ⟨-, e⟩ | ⟨-, e⟩ | ⟨k, e⟩⟩ <;> rw [e]
  on_goal 8 => rw [writeInputWindow_frame]
  all_goals exact ⟨rfl, rfl, rfl, rfl, rfl, rfl, rfl⟩

theorem treeInv_kept : KeptByMoves TreeInv where
  host h hs := by rw [h]; exact treeInv_congr hs ⟨rfl, rfl, rfl, rfl, rfl, rfl, rfl⟩
  sched _ hs := treeInv_congr hs ⟨rfl, rfl, rfl, rfl, rfl, rfl, rfl⟩
  effect := effect_treeInv
  ended _ _ hs := treeInv_congr hs ⟨rfl, rfl, rfl, rfl, rfl, rfl, rfl⟩
  write w a d hs := treeInv_congr hs (writePort_sameTree w a d _)
  assertReset _ hv := nomatch hv
  releaseReset {s} hs := by
    rcases releaseReset_cases s with e | ⟨-, e⟩ <;> rw [e]
    · exact hs
    · exact treeInv_congr hs ⟨rfl, rfl, rfl, rfl, rfl, rfl, rfl⟩
  initialised _ hs := treeInv_congr hs ⟨rfl, rfl, rfl, rfl, rfl, rfl, rfl⟩

/-- Settles O15: `BUILD` leaves a held tree, the table commands clear `TREE_VALID`, and every other move keeps the
tree. -/
theorem stepKeepsTreeInvariant : Obligations.StepKeepsTreeInvariant :=
  fun _ _ hs h => treeInv_kept.step hs h

/-! ## The handshake (R23, R26, R290, R291) -/

theorem writePort_busyInv {s : State} (w : Width) (a : Addr) (d : Word) (h : BusyInv s) :
    BusyInv (writePort w a d s) := by
  rcases writePort_cases w a d s with ⟨-, e⟩ | ⟨hb, e | e | e | ⟨-, -, e⟩ | ⟨-, e⟩ | ⟨-, e⟩ | ⟨k, e⟩⟩ <;> rw [e]
  on_goal 3 =>
    refine ⟨fun _ => by simp, fun hp => ?_⟩
    exact absurd (hb.symm.trans (h.2 hp).1) (by decide)
  on_goal 7 => rw [writeInputWindow_frame]
  all_goals exact h

theorem busyInv_kept : KeptByMoves BusyInv where
  host h hs := by rw [h]; exact hs
  sched _ hs := hs
  effect h hs := by rw [effect_frame h]; exact hs
  ended _ hr _ := ⟨fun _ => by simp [ended], fun hp => absurd hr hp⟩
  write w a d hs := writePort_busyInv w a d hs
  assertReset _ := ⟨fun hp => (nomatch hp), fun _ => ⟨rfl, rfl⟩⟩
  releaseReset {s} hs := by
    rcases releaseReset_cases s with e | ⟨hp, e⟩ <;> rw [e]
    · exact hs
    · exact ⟨fun hp => (nomatch hp), fun _ => ⟨rfl, (hs.2 (by simp [hp])).2⟩⟩
  initialised {s} hp hs := by
    obtain ⟨-, hnone⟩ := hs.2 (by simp [hp])
    exact ⟨fun _ => by simp [endInitialisation, hnone], fun hp => absurd rfl hp⟩

/-- Settles O16: an accepted `CMD` write sets both, the end of a command clears both, and reset leaves BUSY 1 and no
command. -/
theorem stepKeepsHandshake : Obligations.StepKeepsHandshake :=
  fun _ _ hs h => busyInv_kept.step hs h

/-! ## No fault (R170, log 8) -/

/-- On a held tree the walk up from a held slot reaches the root (R170). -/
theorem pathUp_isSome {s : State} (h : HeldTree s) {fuel : Nat} {i : Slot} (hi : i ≤ s.root)
    (hfuel : s.root.val < i.val + fuel) (path : List Bool) : ∃ c, pathUp s.nodes fuel i path = some c := by
  induction fuel generalizing i path with
  | zero => exact absurd hi (Nat.not_le.2 hfuel)
  | succ fuel ih =>
    cases hp : (nodeAt s.nodes i).parent with
    | none => exact ⟨path, pathUp_root hp fuel path⟩
    | some p =>
      obtain ⟨hpr, l, r, hbody, hlr⟩ := h.parent i p hi hp
      obtain ⟨hl, hr, -⟩ := h.internal p l r hpr hbody
      have hip : i.val < p.val := by rcases hlr with rfl | rfl <;> assumption
      rw [pathUp_edge hp hbody]
      exact ih hpr (by omega) _

theorem pathOf_isSome {s : State} (h : HeldTree s) {sym : Byte} {i : Slot} (hi : leafAt s.leafIdx sym = some i) :
    ∃ c, pathOf s i = some c := by
  have hf : freqAt s.freq sym ≠ 0 := fun hf => by rw [h.noLeaf sym hf] at hi; cases hi
  obtain ⟨j, hj, hroot, -⟩ := h.hasLeaf sym hf
  rw [hi] at hj
  cases hj
  exact pathUp_isSome h hroot (by have := s.root.isLt; omega) []

/-- The outcome is no fault. -/
def NoFault (o : Out) : Prop := ∀ f, o ≠ .fault f

theorem noFault_next (s : State) : NoFault (.next s) := nofun

theorem noFault_refused (r : Refusal) : NoFault (.refused r) := nofun

theorem noFault_assert {c : Prop} [Decidable c] {e : ErrCode} {s : State} {body : Out} (h : c → NoFault body) :
    NoFault (assertOrRaise c e s body) := by
  rcases assertOrRaise_cases (c := c) (e := e) (s := s) (body := body) rfl with ⟨-, ho⟩ | ⟨hc, ho⟩ <;> rw [ho]
  · exact noFault_next _
  · exact h hc

theorem noFault_withPath {s : State} (hs : TreeInv s) (sym : Byte) {body : List Bool → Out}
    (h : ∀ path, NoFault (body path)) : NoFault (withPath sym s body) := by
  refine noFault_assert fun hv => ?_
  split
  · exact noFault_next _
  · next i hi =>
    obtain ⟨c, hc⟩ := pathOf_isSome (hs hv) hi
    rw [hc]
    exact h c

/-- No command faults while the tree invariant holds: only the walk up can (log 8). -/
theorem exec_noFault {s : State} (hs : TreeInv s) (i : Instr) : NoFault (exec i s) := by
  cases i with
  | codelen sym => exact noFault_withPath hs sym fun _ => noFault_next _
  | encode sym => exact noFault_withPath hs sym fun _ => noFault_assert fun _ => noFault_next _
  | decode =>
    refine noFault_assert fun _ => ?_
    split
    · exact noFault_next _
    · split <;> exact noFault_next _
  | putbit =>
    show NoFault (execPutbit s)
    unfold execPutbit
    split
    · exact noFault_next _
    · exact noFault_assert fun _ => noFault_next _
  | putbyte =>
    show NoFault (execPutbyte s)
    unfold execPutbyte
    split
    · exact noFault_next _
    · exact noFault_assert fun _ => noFault_assert fun _ => noFault_next _
  | flush =>
    show NoFault (execFlush s)
    unfold execFlush
    split
    · exact noFault_next _
    · exact noFault_assert fun _ => noFault_next _
  | getbit => exact noFault_assert fun _ => noFault_next _
  | count | build | putint | getbyte | getint | wrhdr | rdhdr =>
    exact noFault_assert fun _ => noFault_assert fun _ => noFault_next _
  | nop | clrf | setf | getf | sett | oclr | irewind => exact noFault_next _

theorem execute_noFault {s : State} (hs : TreeInv s) (w : Word) : NoFault (execute w s) := by
  unfold execute
  split
  · exact exec_noFault hs _
  · exact noFault_next _

theorem engineStep_noFault {s : State} (hs : TreeInv s) : NoFault (engineStep s) := by
  unfold engineStep
  split
  · exact noFault_next _
  · exact noFault_next _
  · split
    · exact execute_noFault hs _
    · exact noFault_next _
    · exact noFault_next _

theorem hostRead_noFault (w : Width) (a : Addr) (s : State) : NoFault (hostRead w a s) := by
  unfold hostRead
  split
  · exact noFault_next _
  · exact noFault_refused _

theorem hostWrite_noFault (w : Width) (a : Addr) (d : Word) (s : State) : NoFault (hostWrite w a d s) := by
  unfold hostWrite
  split
  · exact noFault_next _
  · exact noFault_refused _

theorem hostOp_noFault (op : HostOp) (s : State) : NoFault (hostOp op s) := by
  cases op with
  | read w a => exact hostRead_noFault w a s
  | write w a d => exact hostWrite_noFault w a d s
  | readBytes k n =>
    cases n with
    | zero => exact noFault_next _
    | succ n => exact hostRead_noFault _ _ _
  | decodeLoop n => cases n <;> exact noFault_next _
  | wait | check | readout | decodeTotal => exact noFault_next _

theorem hostStep_noFault (s : State) : NoFault (hostStep s) := by
  unfold hostStep
  split
  · exact noFault_next _
  · split
    · exact noFault_refused _
    · exact hostOp_noFault _ _

theorem step_noFault {s : State} (hs : TreeInv s) : NoFault (step s) := by
  unfold step nextMove
  split
  · next turn ts _ =>
    have hs' := treeInv_kept.sched ts hs
    cases turn with
    | engine => exact engineStep_noFault hs'
    | host => exact hostStep_noFault _
    | assertReset => exact noFault_next _
    | releaseReset => exact noFault_next _
  · split
    · exact engineStep_noFault hs
    · exact hostStep_noFault s

/-- A run goes on from the state its first step gives. -/
theorem run_of_next {s t : State} (h : step s = .next t) (n : Nat) :
    Host.Core.run Sys2Proof.core (n + 1) s = Host.Core.run Sys2Proof.core n t := by
  simp only [Host.Core.run, Host.Check.core_step, h]

theorem run_of_refused {s : State} {r : Refusal} (h : step s = .refused r) (n : Nat) :
    Host.Core.run Sys2Proof.core (n + 1) s = .refused r := by
  simp only [Host.Core.run, Host.Check.core_step, h]

/-- From a state of the tree invariant no number of steps ends in a fault. -/
theorem safeRun_of_treeInv {s : State} (hs : TreeInv s) : SafeRun s := by
  intro n
  induction n generalizing s with
  | zero => exact noFault_next s
  | succ n ih =>
    cases ht : step s with
    | next t =>
      rw [run_of_next ht]
      exact ih (treeInv_kept.step hs ht)
    | fault f => exact absurd ht (step_noFault hs f)
    | refused r =>
      rw [run_of_refused ht]
      exact noFault_refused r

/-- Settles O17: only the walk up could fault, and on a held tree it reaches the root. -/
theorem noRunFaults : Obligations.NoRunFaults := fun _ hs => safeRun_of_treeInv hs.tree

end Sys2Proof.Proofs
end

section
/-! Proofs of what every command and every step leaves alone (10_state.md R24 to R33, R44, 44_bitstream.md R201), and of
`LOST` along a step (R29). -/

namespace Sys2Proof.Proofs

open Sys2Proof.Machine Sys2Proof.Safety Sys2Proof.Laws

/-! ## Commands -/

/-- Settles O7: no command's body writes these, and the execution step around it only ends the command. -/
theorem commandsLeaveHostSide : Obligations.CommandsLeaveHostSide := by
  intro i s t h
  rcases exec_cases h with ⟨e, -, rfl⟩ | ⟨u, hu, rfl⟩
  · exact ⟨rfl, rfl, rfl, rfl, rfl, rfl, rfl, rfl, rfl, rfl, rfl, rfl, rfl, rfl⟩
  · rw [effect_frame hu]
    exact ⟨rfl, rfl, rfl, rfl, rfl, rfl, rfl, rfl, rfl, rfl, rfl, rfl, rfl, rfl⟩

/-- A command outside the eight of R30 has no write to `RESULT` in its body. -/
theorem effect_result {i : Instr} {s u : State} (h : Effect i s u) (hi : writesResult i = false) :
    u.result = s.result := by
  cases i <;> cases hi <;> simp only [Effect] at h
  case putbit =>
    obtain ⟨-, -, rfl⟩ := h
    rw [show SameButWriter s (emitBit _ s) from emitBit_frame _ s]
  case putint | wrhdr => obtain ⟨-, -, rfl⟩ := h; rw [emitBytes_frame _ s]
  case putbyte => obtain ⟨-, -, -, rfl⟩ := h; rfl
  case flush => rcases h with ⟨-, rfl⟩ | ⟨-, -, rfl⟩ <;> rfl
  case count | rdhdr => obtain ⟨-, -, rfl⟩ := h; rfl
  all_goals rw [h]

/-- Settles O8: an error discards every write, and the other commands' bodies have none to RESULT. -/
theorem onlyEightCommandsWriteResult : Obligations.OnlyEightCommandsWriteResult := by
  intro i s t h hi
  rcases exec_cases h with ⟨e, -, rfl⟩ | ⟨u, hu, rfl⟩
  · rfl
  · exact (effect_result hu (hi.resolve_left fun hne => hne rfl) :)

/-- `TREE_VALID` after a command's body (R28). -/
theorem effect_treeValid {i : Instr} {s u : State} (h : Effect i s u) :
    u.treeValid = if i = .build then true else if changesTable i then false else s.treeValid := by
  by_cases hb : i = .build
  · subst hb
    rw [if_pos rfl, (effect_build h).2]
    rfl
  · rw [if_neg hb]
    cases hc : changesTable i with
    | true => exact effect_changesTable h hc
    | false => exact (effect_sameTree h hb hc).treeValid

/-- A command that needs a tree fails while none is held (R28). -/
theorem fails_noTree {i : Instr} {s : State} (hi : needsTree i = true) (hv : s.treeValid = false) :
    Fails i s .noTree := by
  have hnot : ¬s.treeValid = true := by simp [hv]
  cases i <;> cases hi <;> exact assertOrRaise_of_not hnot _ _ _

/-- Settles O9: TREE_VALID after each command, after reset, and its check by the three commands that need a tree. -/
theorem treeValidFollowsTable : Obligations.TreeValidFollowsTable := by
  refine ⟨fun i s t h => ?_, fun s => rfl, fun i s => fails_noTree⟩
  rcases exec_cases h with ⟨e, he, rfl⟩ | ⟨u, hu, rfl⟩
  · exact (if_pos he).symm
  · exact (effect_treeValid hu).trans (if_neg fun hne => hne rfl).symm

theorem outByte_congr {s t : State} {k : Nat} (ho : Memory.read? t.obuf k = Memory.read? s.obuf k)
    (hg : t.gen = s.gen) : outByte t k = outByte s k := by
  unfold outByte
  rw [ho, hg]

theorem inByte_congr {s t : State} (hi : t.ibuf = s.ibuf) (hg : t.gen = s.gen) (k : Nat) : inByte t k = inByte s k := by
  unfold inByte
  rw [hi, hg]

/-- Settles O48: what a command stores lies from OLEN on, as many bytes as the prose counts. -/
theorem writerStoresOnlyWhereItCompletes : Obligations.WriterStoresOnlyWhereItCompletes := by
  intro i s t hc h
  rcases exec_cases h with ⟨e, -, rfl⟩ | ⟨u, hu, rfl⟩
  · exact ⟨fun k _ => ⟨rfl, rfl⟩, fun k => rfl⟩
  · refine ⟨fun k hk => ?_, inByte_congr (t := ended .ok u) (effect_ibuf hu :) (effect_gen hu :)⟩
    simp only [ended, if_true] at hk
    have hread := (effect_stores hu).read?_outside (obufSize_le hc) hk
    exact ⟨hread, outByte_congr (t := ended .ok u) hread (effect_gen hu :)⟩

/-! ## The parameters (R31, R69, R294) -/

theorem writePort_cfg (w : Width) (a : Addr) (d : Word) (s : State) : (writePort w a d s).cfg = s.cfg :=
  (writePort_sameTree w a d s).cfg

theorem cfg_kept (c : Config) : KeptByMoves fun s => s.cfg = c where
  host h hs := by rw [h]; exact hs
  sched _ hs := hs
  effect h hs := (effect_cfg h).trans hs
  ended _ _ hs := hs
  write w a d hs := (writePort_cfg w a d _).trans hs
  assertReset hs := hs
  releaseReset {s} hs := by rcases releaseReset_cases s with e | ⟨-, e⟩ <;> rw [e] <;> exact hs
  initialised _ hs := hs

/-- `CONFIG` as a number (R31). -/
theorem toNat_configWord (c : Config) : (configWord c).toNat =
    (match c.intOrder with | .le => 0 | .be => 1) + (match c.bitOrder with | .msbFirst => 0 | .lsbFirst => 2) +
      (match c.firstSlot with | .left => 0 | .right => 4) +
      (match c.singleMode with | .oneBit => 0 | .zeroBit => 16 | .reject => 32) := by
  unfold configWord
  generalize c.intOrder = io, c.bitOrder = bo, c.firstSlot = fs, c.singleMode = sm
  cases io <;> cases bo <;> cases fs <;> cases sm <;> decide

/-- Settles O54: the word for each value of the four parameters, its idle read, and that every move keeps the
parameters. -/
theorem configReportsParameters : Obligations.ConfigReportsParameters :=
  ⟨toNat_configWord, fun _ hb => readPort_idle _ _ hb, fun s _ h => (cfg_kept s.cfg).step rfl h⟩

/-! ## `LOST` (R29) -/

/-- The host's `STATUS` write that clears `LOST`, made while the block is idle (R25, R29). -/
def ClearsLost (s : State) : Prop :=
  s.busy = false ∧ ∃ d rest, s.host = .write .w32 0x008 d :: rest ∧ d.getLsbD 4 = true

/-- What happens to `LOST`: it stays, it is set while the block is busy, or the host clears it. -/
def LostChange (s t : State) : Prop :=
  t.lost = s.lost ∨ (s.busy = true ∧ t.lost = true) ∨ (ClearsLost s ∧ t.lost = false)

/-- Only the 32-bit access of the register block is admitted at the address of `STATUS` (R62). -/
theorem admitted_statusAddr {w : Width} {a : Addr} (h : admitted w a = true) (ha : a.toNat = 0x008) :
    w = .w32 ∧ a = 0x008 := by
  refine ⟨?_, BitVec.eq_of_toNat_eq ha⟩
  cases w with
  | w8 => simp [admitted, ha] at h
  | w32 => rfl

theorem hostWrite_lostChange {s : State} {w : Width} {a : Addr} {d : Word} {rest : List HostOp}
    (hh : s.host = .write w a d :: rest) (ha : admitted w a = true) :
    LostChange s (writePort w a d { s with host := rest }) := by
  rcases writePort_cases w a d { s with host := rest } with
    ⟨hb, e⟩ | ⟨hb, e | e | e | ⟨hstatus, hd, e⟩ | ⟨-, e⟩ | ⟨-, e⟩ | ⟨k, e⟩⟩ <;> rw [e]
  · exact .inr (.inl ⟨hb, rfl⟩)
  · exact .inl rfl
  · exact .inl rfl
  · exact .inl rfl
  · obtain ⟨rfl, rfl⟩ := admitted_statusAddr ha hstatus
    exact .inr (.inr ⟨⟨hb, d, rest, hh, hd⟩, rfl⟩)
  · exact .inl rfl
  · exact .inl rfl
  · rw [writeInputWindow_frame]; exact .inl rfl

theorem moves_lostChange {s t : State} (h : Moves s t) : LostChange s t := by
  cases h with
  | idle h => exact .inl (by rw [h])
  | command w hp hb hw h =>
    rcases execute_cases h with ⟨e, -, rfl⟩ | ⟨i, u, -, -, hu, rfl⟩
    · exact .inl rfl
    · exact .inl (effect_lost hu :)
  | initialised hp h => exact .inl (by rw [h]; rfl)
  | host op rest hp hh h =>
    rcases hostOp_cases h with ⟨w, a, d, rfl, ha, rfl⟩ | h
    · exact hostWrite_lostChange hh ha
    · exact .inl (by rw [h])

theorem releaseReset_lost (s : State) : (releaseReset s).lost = s.lost := by
  rcases releaseReset_cases s with e | ⟨-, e⟩ <;> rw [e]

/-- What a step does to `LOST`: a change of its own, or reset clears it. -/
theorem step_lostChange {s t : State} (h : step s = .next t) :
    LostChange s t ∨ ((∃ ts, s.sched = .assertReset :: ts) ∧ t.lost = false) := by
  rcases step_cases h with ⟨-, h⟩ | ⟨_, ts, -, h⟩ | ⟨ts, hs, rfl⟩ | ⟨ts, -, rfl⟩
  · exact .inl (moves_lostChange h)
  · exact .inl (moves_lostChange h : LostChange { s with sched := ts } t)
  · exact .inr ⟨⟨ts, hs⟩, rfl⟩
  · exact .inl (.inl (releaseReset_lost { s with sched := ts }))

/-- Settles O58: a busy write only sets LOST, and a step changes LOST in no other way than those named. -/
theorem busyWriteOnlySetsLost : Obligations.BusyWriteOnlySetsLost := by
  refine ⟨fun s w a d hb ha => hostOp_write_busy d ha hb, fun s t h hs ht => ?_, fun s t h hs ht => ?_⟩
  · rcases step_lostChange h with (e | ⟨-, e⟩ | ⟨hc, -⟩) | ⟨hr, -⟩
    · rw [hs, ht] at e; cases e
    · rw [ht] at e; cases e
    · exact .inr hc
    · exact .inl hr
  · rcases step_lostChange h with (e | ⟨hb, -⟩ | ⟨-, e⟩) | ⟨-, e⟩
    · rw [hs, ht] at e; cases e
    · exact hb
    · rw [ht] at e; cases e
    · rw [ht] at e; cases e

end Sys2Proof.Proofs
end

section
/-! Proofs about reset (10_state.md R49) and the register block (R22 to R38): the reset values, the fields of `STATUS`
and `OBITS`, and idle accesses to registers and to the reserved region. -/

namespace Sys2Proof.Proofs

open Sys2Proof.Machine Sys2Proof.Safety Sys2Proof.Laws

/-! ## Reset (R49) -/

theorem statusWord_resetWith (cfg : Config) : statusWord (State.resetWith cfg) = 0 := by
  simp only [statusWord, errFlag, State.resetWith]
  decide

theorem obitsWord_resetWith (cfg : Config) : obitsWord (State.resetWith cfg) = 0 := by
  simp only [obitsWord, State.resetWith]
  decide

/-- Settles O10: each register is read off the reset state, and every entry of its table is 0. -/
theorem resetValues : Obligations.ResetValues :=
  ⟨fun cfg => ⟨rfl, rfl, rfl, rfl, statusWord_resetWith cfg, rfl, rfl, rfl, rfl, rfl, rfl, obitsWord_resetWith cfg,
    freqAt_replicate 0⟩, rfl⟩

/-- Settles O11: the streams and buffers are empty, no tree is held, and BUSY is 0 with no command pending. -/
theorem resetMeetsInvariants : Obligations.ResetMeetsInvariants :=
  ⟨by decide, fun _ hc => ⟨streamInv_of_empty hc rfl rfl rfl rfl, bufferInv_of_empty rfl rfl rfl,
    fun hv => (nomatch hv), ⟨fun _ => by simp [State.resetWith], fun hp => absurd rfl hp⟩⟩⟩

/-! ## Status (R25) -/

theorem errFlag_eq (s : State) : errFlag s = decide (s.errcode.code ≠ 0) := by
  rw [Bool.eq_iff_iff, decide_eq_true_iff]
  exact bne_iff_ne

/-- The bits of `STATUS` (R25). -/
theorem getLsbD_statusWord (s : State) (k : Nat) : (statusWord s).getLsbD k =
    if k = 0 then s.busy
    else if k = 1 then decide (s.errcode.code ≠ 0)
    else if k = 2 then s.treeValid
    else if k = 4 then s.lost
    else if 8 ≤ k ∧ k < 16 then s.errcode.code.getLsbD (k - 8)
    else false := by
  have hbit : ∀ (b : Bool) (j : Nat), (bit b).getLsbD j = (decide (j = 0) && b) := fun b j => by
    simp [bit, BitVec.getLsbD_ofBool]
  simp only [statusWord, BitVec.getLsbD_append, hbit, errFlag_eq]
  by_cases h8 : k < 8
  · interval_cases k <;> simp
  · obtain ⟨j, rfl⟩ := Nat.exists_eq_add_of_le' (Nat.le_of_not_lt h8)
    have hj : j + 8 < 16 ↔ j < 8 := by omega
    simp [hj]

theorem writeIdle_register {a : Addr} (ha : a.toNat < 0x10000) (w : Width) (d : Word) (s : State) :
    writeIdle w a d s = writeRegister a.toNat d s := by
  rw [writeIdle, regionOf, if_pos ha]

theorem readIdle_register {a : Addr} (ha : a.toNat < 0x10000) (w : Width) (s : State) :
    readIdle w a s = readRegister a.toNat s := by
  rw [readIdle, regionOf, if_pos ha]

/-- An idle 32-bit write to a register has the register's effect (R22). -/
theorem hostOp_write_register {a : Addr} {s : State} (d : Word) (hb : s.busy = false) (ha : a.toNat < 0x10000)
    (h4 : a.toNat % 4 = 0) : hostOp (.write .w32 a d) s = .next (writeRegister a.toNat d s) := by
  rw [hostOp_write_idle d (by simpa [admitted] using h4) hb, writeIdle_register ha]

/-- Settles O53: the bits of the word one by one, and the idle write. -/
theorem statusLayout : Obligations.StatusLayout :=
  ⟨getLsbD_statusWord, fun _ d hb => hostOp_write_register (a := 0x008) d hb (by decide) (by decide)⟩

/-! ## Registers (R22 to R38) -/

/-- `OBITS` as a number (R36). -/
theorem toNat_obitsWord (s : State) : (obitsWord s).toNat = s.onbits.toNat + 2 ^ 8 * s.oacc.toNat := by
  simp only [obitsWord, BitVec.toNat_append]
  rw [← Nat.shiftLeft_add_eq_or_of_lt s.onbits.isLt, ← Nat.shiftLeft_add_eq_or_of_lt]
  · simp [Nat.shiftLeft_eq]
    omega
  · simp

/-- A reserved register offset reads 0 (R38). -/
theorem readRegister_reserved {offset : Nat} (h : 0x030 ≤ offset) (s : State) : readRegister offset s = 0 := by
  unfold readRegister
  split
  case h_13 => rfl
  all_goals omega

/-- A write to a register the host cannot write is ignored (R22, R38). -/
theorem writeRegister_ignored {offset : Nat} (h0 : offset ≠ 0x000) (h4 : offset ≠ 0x004) (h8 : offset ≠ 0x008)
    (h14 : offset ≠ 0x014) (h18 : offset ≠ 0x018) (d : Word) (s : State) : writeRegister offset d s = s := by
  unfold writeRegister
  split
  case h_6 => rfl
  all_goals contradiction

/-- Idle accesses to the reserved region read 0 and change nothing (R61). -/
theorem reserved_access {w : Width} {a : Addr} {s : State} (d : Word) (hb : s.busy = false)
    (hadm : admitted w a = true) (ha : 0x30000 ≤ a.toNat) :
    readPort w a s = 0 ∧ hostOp (.read w a) s = .next (recordRead 0 s) ∧ hostOp (.write w a d) s = .next s := by
  have hread : readIdle w a s = 0 := by rw [readIdle, regionOf_reserved ha]
  refine ⟨(readPort_idle w a hb).trans hread, ?_, ?_⟩
  · rw [hostOp_read_idle hadm hb, hread]
  · rw [hostOp_write_idle d hadm hb, writeIdle, regionOf_reserved ha]

/-- Settles O55: each register by its offset, the offsets without a register, and the reserved region. -/
theorem idleRegisterAccess : Obligations.IdleRegisterAccess := by
  intro s d hb
  have hread : ∀ a : Addr, a.toNat < 0x10000 → readPort .w32 a s = readRegister a.toNat s := fun a ha =>
    (readPort_idle .w32 a hb).trans (readIdle_register ha .w32 s)
  have hwrite : ∀ a : Addr, a.toNat < 0x10000 → a.toNat % 4 = 0 →
      hostOp (.write .w32 a d) s = .next (writeRegister a.toNat d s) := fun a => hostOp_write_register d hb
  refine ⟨hread 0x000 (by decide), hread 0x004 (by decide), hread 0x00C (by decide), hread 0x010 (by decide),
    hread 0x014 (by decide), hread 0x018 (by decide), hread 0x01C (by decide), hread 0x020 (by decide),
    hread 0x028 (by decide), hread 0x02C (by decide), toNat_obitsWord s, fun a _ hlo hhi => ?_,
    hwrite 0x000 (by decide) (by decide), hwrite 0x004 (by decide) (by decide), hwrite 0x014 (by decide) (by decide),
    hwrite 0x018 (by decide) (by decide), fun a h4 hlt h0 h1 h2 h3 h5 => ?_, fun w a => reserved_access d hb⟩
  · rw [hread a hhi, readRegister_reserved hlo]
  · rw [hwrite a hlt h4, writeRegister_ignored h0 h1 h2 h3 h5]

end Sys2Proof.Proofs
end

section
/-! Proofs about the host port (20_memory.md): the accesses R62 admits, the two windows by bytes and by lanes (R61 to
R65, R301), and the polls of `WAIT` while a command is pending (R74, R75, R99). -/

namespace Sys2Proof.Proofs

open Sys2Proof.Machine Sys2Proof.Safety Sys2Proof.Laws

/-! ## Admitted accesses (R62) -/

theorem admitted_iff (w : Width) (a : Addr) :
    admitted w a = true ↔ (w = .w8 ∧ 0x10000 ≤ a.toNat) ∨ (w = .w32 ∧ a.toNat % 4 = 0) := by
  cases w <;> simp [admitted]

theorem not_admitted_iff (w : Width) (a : Addr) :
    ¬admitted w a = true ↔ (w = .w8 ∧ a.toNat < 0x10000) ∨ (w = .w32 ∧ a.toNat % 4 ≠ 0) := by
  cases w <;> simp [admitted]

/-- Settles O59: the accesses not admitted are refused, and the others are transactions of the port. -/
theorem unadmittedAccessIsRefused : Obligations.UnadmittedAccessIsRefused := by
  intro s w a d
  refine ⟨fun h => ?_, fun h => ?_⟩
  · have hnot := (not_admitted_iff w a).2 h
    exact ⟨if_neg hnot, if_neg hnot⟩
  · have hadm := (admitted_iff w a).2 h
    exact ⟨if_pos hadm, _, if_pos hadm⟩

/-! ## Lanes of a word (R65) -/

theorem ofNat_div_eq_laneOf (w : Word) (lane : Nat) : BitVec.ofNat 8 (w.toNat / 2 ^ (8 * lane)) = laneOf w lane :=
  BitVec.eq_of_toNat_eq (by rw [toNat_laneOf, BitVec.toNat_ofNat])

/-- A word is determined by its four lanes. -/
theorem word_ext_lanes {v w : Word} (h : ∀ lane, lane < 4 → laneOf v lane = laneOf w lane) : v = w := by
  have hn : ∀ lane, lane < 4 → v.toNat / 2 ^ (8 * lane) % 2 ^ 8 = w.toNat / 2 ^ (8 * lane) % 2 ^ 8 := fun lane hl => by
    rw [← toNat_laneOf, ← toNat_laneOf, h lane hl]
  have h0 := hn 0 (by decide)
  have h1 := hn 1 (by decide)
  have h2 := hn 2 (by decide)
  have h3 := hn 3 (by decide)
  exact BitVec.eq_of_toNat_eq (by omega)

/-! ## The windows while the block is idle (R61, R63, R64) -/

theorem admitted_window32 {n : Nat} (h4 : n % 4 = 0) : admitted .w32 (BitVec.ofNat 18 n) = true := by
  rw [admitted_iff, BitVec.toNat_ofNat]
  exact .inr ⟨rfl, by omega⟩

theorem admitted_window8 {n : Nat} (hlo : 0x10000 ≤ n) (hhi : n < 2 ^ 18) :
    admitted .w8 (BitVec.ofNat 18 n) = true := by
  rw [admitted_iff, BitVec.toNat_ofNat, Nat.mod_eq_of_lt hhi]
  exact .inl ⟨rfl, hlo⟩

section Idle

variable {s : State} {k : Nat} (hb : s.busy = false) (hk : k < 0x10000)
include hb hk

theorem readPort_inputWindow (w : Width) : readPort w (BitVec.ofNat 18 (0x10000 + k)) s =
    windowData w (fun k _ => inputWindowByte s k) k := by
  rw [readPort_idle w _ hb, readIdle, regionOf_inputWindow hk]

theorem readPort_outputWindow (w : Width) : readPort w (BitVec.ofNat 18 (0x20000 + k)) s =
    windowData w (outputWindowByte s) k := by
  rw [readPort_idle w _ hb, readIdle, regionOf_outputWindow hk]

theorem hostOp_write_inputWindow {w : Width} (d : Word) (ha : admitted w (BitVec.ofNat 18 (0x10000 + k)) = true) :
    hostOp (.write w (BitVec.ofNat 18 (0x10000 + k)) d) s = .next (writeInputWindow w k d s) := by
  rw [hostOp_write_idle d ha hb, writeIdle, regionOf_inputWindow hk]

theorem hostOp_write_outputWindow {w : Width} (d : Word) (ha : admitted w (BitVec.ofNat 18 (0x20000 + k)) = true) :
    hostOp (.write w (BitVec.ofNat 18 (0x20000 + k)) d) s = .next s := by
  rw [hostOp_write_idle d ha hb, writeIdle, regionOf_outputWindow hk]

/-- Lane `lane` of a word read from the input window. -/
theorem laneOf_readPort_inputWindow {lane : Nat} (hl : lane < 4) :
    laneOf (readPort .w32 (BitVec.ofNat 18 (0x10000 + k)) s) lane = inputWindowByte s (k + lane) := by
  rw [readPort_inputWindow hb hk, laneOf_windowData _ _ hl]

/-- Lane `lane` of a word read from the output window. -/
theorem laneOf_readPort_outputWindow {lane : Nat} (hl : lane < 4) :
    laneOf (readPort .w32 (BitVec.ofNat 18 (0x20000 + k)) s) lane = outputWindowByte s (k + lane) lane := by
  rw [readPort_outputWindow hb hk, laneOf_windowData _ _ hl]

end Idle

/-! ## The input window (R63, R105) -/

theorem writeInputByte_cfg (k : Nat) (v : Byte) (s : State) : (writeInputByte k v s).cfg = s.cfg := by
  rw [writeInputByte_frame]

theorem writeInputWindow_cfg (w : Width) (k : Nat) (d : Word) (s : State) :
    (writeInputWindow w k d s).cfg = s.cfg := by
  rw [writeInputWindow_frame]

theorem writeInputWindow_busy (w : Width) (k : Nat) (d : Word) (s : State) :
    (writeInputWindow w k d s).busy = s.busy := by
  rw [writeInputWindow_frame]

/-- A word written into the input window stores its four lanes at the indices the buffer has. -/
theorem inByte_writeInputWindow32 (k : Nat) (d : Word) (s : State) (j : Nat) :
    inByte (writeInputWindow .w32 k d s) j =
      if k ≤ j ∧ j < k + 4 ∧ j < s.cfg.ibufSize then laneOf d (j - k) else inByte s j := by
  simp only [writeInputWindow, inByte_writeInputByte, writeInputByte_cfg]
  by_cases hj : k ≤ j ∧ j < k + 4
  · obtain ⟨hlo, hhi⟩ := hj
    obtain ⟨lane, rfl⟩ := Nat.exists_eq_add_of_le hlo
    have hl : lane < 4 := by omega
    interval_cases lane <;> simp
  · rw [if_neg, if_neg, if_neg, if_neg, if_neg] <;> omega

/-- A word written inside the input buffer reads back. -/
theorem readPort_writeInputWindow32 {s : State} {k : Nat} (hb : s.busy = false) (hk : k < 0x10000) (d : Word)
    (hin : k + 4 ≤ s.cfg.ibufSize) :
    readPort .w32 (BitVec.ofNat 18 (0x10000 + k)) (writeInputWindow .w32 k d s) = d := by
  refine word_ext_lanes fun lane hl => ?_
  rw [laneOf_readPort_inputWindow ((writeInputWindow_busy _ _ _ _).trans hb) hk hl, inputWindowByte,
    writeInputWindow_cfg, if_pos (by omega), inByte_writeInputWindow32, if_pos (by omega), Nat.add_sub_cancel_left]

/-- A byte written inside the input buffer reads back, zero-extended. -/
theorem readPort_writeInputWindow8 {s : State} {k : Nat} (hb : s.busy = false) (hk : k < 0x10000) (d : Word)
    (hin : k < s.cfg.ibufSize) :
    readPort .w8 (BitVec.ofNat 18 (0x10000 + k)) (writeInputWindow .w8 k d s) = (laneOf d 0).setWidth 32 := by
  rw [readPort_inputWindow ((writeInputWindow_busy _ _ _ _).trans hb) hk, windowData, inputWindowByte,
    writeInputWindow_cfg, if_pos hin, writeInputWindow, inByte_writeInputByte, if_pos ⟨rfl, hin⟩]

theorem laneOf_zero (d : Word) : laneOf d 0 = BitVec.ofNat 8 d.toNat := by
  rw [← ofNat_div_eq_laneOf, Nat.mul_zero, Nat.pow_zero, Nat.div_one]

theorem setWidth_laneOf_zero (d : Word) : (laneOf d 0).setWidth 32 = BitVec.ofNat 32 (d.toNat % 2 ^ 8) := by
  rw [laneOf_zero]
  refine BitVec.eq_of_toNat_eq ?_
  rw [BitVec.toNat_setWidth, BitVec.toNat_ofNat, BitVec.toNat_ofNat]

/-- Settles O56: a write's bytes and its read back at each width, then a read's lanes and its byte. -/
theorem inputWindowStoresBytes : Obligations.InputWindowStoresBytes := by
  intro s hb _
  refine ⟨fun k d h4 hk => ?_, fun k d hk => ?_, fun k lane _ hk hl => ?_, fun k hk => ?_⟩
  · refine ⟨_, hostOp_write_inputWindow hb hk d (admitted_window32 (by omega)), writeInputWindow_frame _ _ _ _,
      fun j => ?_, readPort_writeInputWindow32 hb hk d⟩
    rw [inByte_writeInputWindow32, ofNat_div_eq_laneOf]
  · refine ⟨_, hostOp_write_inputWindow hb hk d (admitted_window8 (by omega) (by omega)),
      writeInputWindow_frame _ _ _ _, fun j => ?_, fun hin => ?_⟩
    · rw [writeInputWindow, inByte_writeInputByte, laneOf_zero]
    · rw [readPort_writeInputWindow8 hb hk d hin, setWidth_laneOf_zero]
  · rw [ofNat_div_eq_laneOf, laneOf_readPort_inputWindow hb hk hl, inputWindowByte]
  · rw [readPort_inputWindow hb hk, windowData, inputWindowByte]
    split <;> rfl

/-! ## The output window (R64) and unspecified reads (R301) -/

theorem outputWindowByte_completed {s : State} {k : Nat} (h : k < s.olen.toNat) (lane : Nat) :
    outputWindowByte s k lane = outByte s k := if_pos h

theorem outputWindowByte_beyond {s : State} {k : Nat} (ho : s.olen.toNat ≤ k) (hsize : s.cfg.obufSize ≤ k)
    (lane : Nat) : outputWindowByte s k lane = 0 := by
  rw [outputWindowByte, if_neg (by omega), if_neg (by omega)]

theorem outputWindowByte_unspecified {s : State} {k : Nat} (ho : s.olen.toNat ≤ k) (hsize : k < s.cfg.obufSize)
    (lane : Nat) : outputWindowByte s k lane = laneOf (Config.freeWord s.draws) lane := by
  rw [outputWindowByte, if_neg (by omega), if_pos hsize, unspecifiedWord]

/-- Two states with the same draw counter show the same unspecified byte. -/
theorem outputWindowByte_congr {s u : State} {k : Nat} (hd : s.draws = u.draws) (hso : s.olen.toNat ≤ k)
    (hss : k < s.cfg.obufSize) (huo : u.olen.toNat ≤ k) (hus : k < u.cfg.obufSize) (lane : Nat) :
    outputWindowByte s k lane = outputWindowByte u k lane := by
  rw [outputWindowByte_unspecified hso hss, outputWindowByte_unspecified huo hus, hd]

/-- A read of anything but `STATUS` while `BUSY = 1` is unspecified (R301). -/
theorem readPort_busy {s : State} {a : Addr} (hb : s.busy = true) (ha : a ≠ statusAddr) (w : Width) :
    readPort w a s = unspecifiedData w s := if_pos ⟨hb, ha⟩

theorem unspecifiedData_congr {s u : State} (hd : s.draws = u.draws) (w : Width) :
    unspecifiedData w s = unspecifiedData w u := by
  simp only [unspecifiedData, unspecifiedWord, hd]

/-- A `STATUS` read is valid whether or not the block is busy (R71). -/
theorem readPort_status (s : State) : readPort .w32 statusAddr s = statusWord s :=
  if_neg fun h => h.2 rfl

/-- Settles O57: a window byte's three ranges at both widths, the free value shown by the rest, and `STATUS`. -/
theorem outputWindowShowsCompletedBytes : Obligations.OutputWindowShowsCompletedBytes := by
  refine ⟨fun s k hb hk => ⟨fun ho => ?_, fun ho hs => ?_, fun d => ?_⟩,
    fun s k hb h4 hk => ⟨fun lane hl => ⟨fun ho => ?_, fun ho hs => ?_⟩, fun d => ?_⟩,
    fun s u k hsb hub hd hk hso hss huo hus => ?_, fun s u k lane hsb hub hd _ hk hl hso hss huo hus => ?_,
    fun w a s u hsb hub hd ha => ?_, readPort_status⟩
  · rw [readPort_outputWindow hb hk, windowData, outputWindowByte_completed ho]
  · rw [readPort_outputWindow hb hk, windowData, outputWindowByte_beyond ho hs]
    rfl
  · exact hostOp_write_outputWindow hb hk d (admitted_window8 (by omega) (by omega))
  · rw [ofNat_div_eq_laneOf, laneOf_readPort_outputWindow hb hk hl, outputWindowByte_completed ho]
  · rw [ofNat_div_eq_laneOf, laneOf_readPort_outputWindow hb hk hl, outputWindowByte_beyond ho hs]
  · exact hostOp_write_outputWindow hb hk d (admitted_window32 (by omega))
  · rw [readPort_outputWindow hsb hk, readPort_outputWindow hub hk, windowData, windowData,
      outputWindowByte_congr hd hso hss huo hus]
  · rw [ofNat_div_eq_laneOf, ofNat_div_eq_laneOf, laneOf_readPort_outputWindow hsb hk hl,
      laneOf_readPort_outputWindow hub hk hl, outputWindowByte_congr hd hso hss huo hus]
  · rw [readPort_busy hsb ha, readPort_busy hub ha, unspecifiedData_congr hd]

/-! ## Polls of `WAIT` (R74, R75, R99) -/

/-- A poll that finds `BUSY = 1` puts `WAIT` back and does nothing else (R99). -/
theorem hostOp_wait_busy {s : State} (hb : s.busy = true) : hostOp .wait s = .next (pushHost [.wait] s) := by
  have hbit : (statusWord s).getLsbD 0 = true := (getLsbD_statusWord s 0).trans hb
  rw [hostOp, readPort_status, if_pos hbit]

/-- The host's turn while it waits for a pending command uses the turn up. -/
theorem step_wait_busy {s : State} {rest : List HostOp} {ts : List Turn} (hp : s.phase = .running)
    (hb : s.busy = true) (hh : s.host = .wait :: rest) (hs : s.sched = .host :: ts) :
    step s = .next { s with sched := ts } := by
  have hreset : s.phase ≠ .inReset := by rw [hp]; decide
  simp only [step, nextMove, hs, takeTurn, hostStep, hh, if_neg hreset]
  exact hostOp_wait_busy (s := { s with host := rest, sched := ts }) hb

/-- With no turn left the engine executes the pending command (R75, R260). -/
theorem step_pending {s : State} {w : Word} (hp : s.phase = .running) (hb : s.busy = true)
    (hw : s.pending = some w) (hs : s.sched = []) : step s = execute w s := by
  simp only [step, nextMove, hs, engineReady, engineStep, hp, hb, hw, Option.isSome_some, Bool.and_self, if_true]

theorem run_one (s : State) : Host.Core.run Sys2Proof.core 1 s = step s := by
  simp only [Host.Core.run, Host.Check.core_step]
  cases step s <;> rfl

/-- Settles O60: each poll uses up one turn, and when none is left the engine moves. -/
theorem waitPollsUntilEngineMoves : Obligations.WaitPollsUntilEngineMoves := by
  intro n
  induction n with
  | zero =>
    intro s w rest hp hb hw _ hs
    have hsame : { s with sched := [] } = s := by rw [← List.replicate_zero, ← hs]
    rw [hsame, run_one, step_pending hp hb hw hs]
  | succ n ih =>
    intro s w rest hp hb hw hh hs
    rw [run_of_next (step_wait_busy hp hb hh hs)]
    exact ih { s with sched := List.replicate n .host } w rest hp hb hw hh rfl

end Sys2Proof.Proofs
end

section
/-! Proofs about command words (30_encoding.md): what the opcode map holds (R95), which words the decoder accepts (R90
to R92), decode and encode as inverses of each other (R97), and how an illegal word executes (R96). -/

namespace Sys2Proof.Proofs

open Sys2Proof.Machine Sys2Proof.Safety Sys2Proof.Laws

/-! ## The opcode map (R95) -/

/-- An entry of the opcode map makes commands of its own opcode and format, whose symbol is the symbol field in format S
and 0 in format N. -/
theorem opcodeMap_command {opc : Byte} {f : Format} {make : Byte → Instr} (h : opcodeMap opc = some (f, make))
    (sym : Byte) :
    (make sym).opcode = opc ∧ (make sym).format = f ∧ (make sym).symbol = if f = .s then sym else 0 := by
  unfold opcodeMap at h
  split at h <;> cases h
  all_goals next hopc => exact ⟨BitVec.eq_of_toNat_eq hopc.symm, rfl, rfl⟩

/-- The opcodes of a format. -/
def opcodesOf : Format → List Byte
  | .n => formatNOpcodes
  | .s => formatSOpcodes

theorem opcode_mem_opcodesOf (i : Instr) : i.opcode ∈ opcodesOf i.format := by
  cases i <;> exact List.mem_of_elem_eq_true rfl

/-- The lists of opcodes of the two formats are those of the opcode map. -/
theorem mem_opcodesOf_iff (f : Format) (opc : Byte) :
    opc ∈ opcodesOf f ↔ ∃ make, opcodeMap opc = some (f, make) := by
  constructor
  · intro h
    have hlists : ∀ opc ∈ opcodesOf f, (opcodeMap opc).map Prod.fst = some f := by cases f <;> decide
    obtain ⟨⟨_, make⟩, hmap, rfl⟩ := Option.map_eq_some_iff.1 (hlists opc h)
    exact ⟨make, hmap⟩
  · rintro ⟨make, hmap⟩
    obtain ⟨hopc, hf, -⟩ := opcodeMap_command hmap 0
    exact hopc ▸ hf ▸ opcode_mem_opcodesOf (make 0)

/-! ## The words the decoder accepts -/

/-- The decoder accepts the words with zero reserved bits, an opcode of the map and, in format N, symbol field 0, and
the map's entry makes the command. -/
theorem decode_eq_ok_iff (w : Word) (i : Instr) : decode w = .ok i ↔
    resField w = 0 ∧ ∃ f make, opcodeMap (opcField w) = some (f, make) ∧ (f = .n → symField w = 0) ∧
      make (symField w) = i := by
  unfold decode
  by_cases hres : resField w = 0
  · rw [if_neg (not_not_intro hres)]
    match hmap : opcodeMap (opcField w) with
    | none => simp
    | some (.n, make) =>
      by_cases hsym : symField w = 0
      · simp [hres, hsym]
      · simp only [ne_eq, hsym, not_false_eq_true, if_true, reduceCtorEq, false_iff]
        rintro ⟨-, _, _, hentry, hn, -⟩
        cases hentry
        exact hn rfl
    | some (.s, make) => simp [hres]
  · rw [if_pos hres]
    simp only [hres, false_and, reduceCtorEq]

/-- Encoding, then decoding, gives the command back (R97). -/
theorem decode_encode (i : Instr) : decode (encode i) = .ok i := by
  obtain ⟨make, hmap, hmake⟩ := opcodeMap_opcode i
  rw [decode_eq_ok_iff, opcField_encode, symField_encode]
  exact ⟨resField_encode i, i.format, make, hmap, symbol_formatN, hmake⟩

/-- Decoding, then encoding, gives the word back (R97). -/
theorem encode_of_decode {w : Word} {i : Instr} (h : decode w = .ok i) : encode i = w := by
  obtain ⟨hres, f, make, hmap, hn, rfl⟩ := (decode_eq_ok_iff w i).1 h
  obtain ⟨hopc, -, hsym⟩ := opcodeMap_command hmap (symField w)
  have hsame : (make (symField w)).symbol = symField w := by
    cases f with
    | n => exact hsym.trans (hn rfl).symm
    | s => exact hsym
  calc encode (make (symField w))
      = (0#16 ++ symField w ++ opcField w : BitVec (16 + 8 + 8)) := by rw [encode, hopc, hsame]
    _ = (resField w ++ symField w ++ opcField w : BitVec (16 + 8 + 8)) := by rw [hres]; rfl
    _ = w := (word_of_fields w).symm

/-- Every command is well formed, its symbol being a byte by type (R91). -/
theorem instr_wf (i : Instr) : i.wf = true := by
  cases i with
  | setf sym | getf sym | count sym | codelen sym | encode sym => exact decide_eq_true sym.isLt
  | _ => rfl

/-- Settles O1: the fields of the encoding lead the decoder to the command's own entry of the opcode map. -/
theorem decodeOfEncode : Obligations.DecodeOfEncode := fun i _ => decode_encode i

/-- Settles O2: an accepted word has the fields of its command's encoding, and a word is made of its fields. -/
theorem encodeOfDecode : Obligations.EncodeOfDecode := fun _ i h => ⟨encode_of_decode h, instr_wf i⟩

/-- Settles O3: each word is the encoding of its command. -/
theorem tableWordsDecode : Obligations.TableWordsDecode :=
  ⟨decode_encode .nop, decode_encode (.count 0x61), decode_encode (.count 0xFF), decode_encode .build,
    decode_encode (.encode 0x61), decode_encode .putint, decode_encode .irewind, decode_encode .rdhdr⟩

/-! ## Illegal words (R96) -/

/-- The legal words, by their fields. -/
theorem exists_decode_ok_iff (w : Word) : (∃ i, decode w = .ok i) ↔
    resField w = 0 ∧ (opcField w ∈ formatSOpcodes ∨ opcField w ∈ formatNOpcodes ∧ symField w = 0) := by
  have hN := mem_opcodesOf_iff .n (opcField w)
  have hS := mem_opcodesOf_iff .s (opcField w)
  simp only [opcodesOf] at hN hS
  rw [hN, hS]
  constructor
  · rintro ⟨i, h⟩
    obtain ⟨hres, f, make, hmap, hn, -⟩ := (decode_eq_ok_iff w i).1 h
    cases f with
    | n => exact ⟨hres, .inr ⟨⟨make, hmap⟩, hn rfl⟩⟩
    | s => exact ⟨hres, .inl ⟨make, hmap⟩⟩
  · rintro ⟨hres, ⟨make, hmap⟩ | ⟨⟨make, hmap⟩, hsym⟩⟩
    · exact ⟨_, (decode_eq_ok_iff w _).2 ⟨hres, .s, make, hmap, nofun, rfl⟩⟩
    · exact ⟨_, (decode_eq_ok_iff w _).2 ⟨hres, .n, make, hmap, fun _ => hsym, rfl⟩⟩

/-- A word is illegal when it decodes to no command. -/
theorem exists_decode_error_iff (w : Word) : (∃ r, decode w = .error r) ↔ ¬∃ i, decode w = .ok i := by
  cases decode w <;> simp

theorem formatS_notMem_formatN : ∀ opc ∈ formatSOpcodes, opc ∉ formatNOpcodes := by decide

theorem execute_illegal {w : Word} {r : Reject} (h : decode w = .error r) (s : State) :
    execute w s = .next (ended .illegalCmd s) := by
  rw [execute, h]
  exact raiseError_eq .illegalCmd s

/-- The engine's turn executes the pending command (R260). -/
theorem step_engineTurn {s : State} {w : Word} {ts : List Turn} (hp : s.phase = .running) (hb : s.busy = true)
    (hw : s.pending = some w) (hs : s.sched = .engine :: ts) : step s = execute w { s with sched := ts } := by
  simp only [step, nextMove, hs, takeTurn, engineStep, hp, hb, hw]

/-- Settles O4: the illegal words are the complement of the legal ones, and both ways the engine moves execute the
pending word. -/
theorem illegalWordRaisesIllegalCmd : Obligations.IllegalWordRaisesIllegalCmd := by
  intro w
  constructor
  · have hdisjoint := formatS_notMem_formatN (opcField w)
    rw [exists_decode_error_iff, exists_decode_ok_iff, List.mem_append]
    tauto
  · rintro ⟨r, hr⟩
    refine ⟨execute_illegal hr, fun s hp hb hw => ⟨fun hs => ?_, fun ts hs => ?_⟩⟩
    · rw [step_pending hp hb hw hs, execute_illegal hr]
    · rw [step_engineTurn hp hb hw hs, execute_illegal hr]

end Sys2Proof.Proofs
end

section
/-! Proofs about the frequency table commands (41_frequency.md): their words (30_encoding.md R90, R95), what each does
in every state (R120 to R125), and the counting pass (R126). -/

namespace Sys2Proof.Proofs

open Sys2Proof.Machine Sys2Proof.Safety Sys2Proof.Laws

/-! ## The word of a command (R90) -/

/-- A word decodes to a command exactly when it is the command's encoding (R97). -/
theorem decode_iff_encode (w : Word) (i : Instr) : decode w = .ok i ↔ w = encode i :=
  ⟨fun h => (encode_of_decode h).symm, fun h => h ▸ decode_encode i⟩

/-- The encoding as a number: the symbol stands above the opcode, and the reserved bits are 0 (R90). -/
theorem encode_eq_ofNat (i : Instr) : encode i = BitVec.ofNat 32 (i.opcode.toNat + 0x100 * i.symbol.toNat) := by
  apply BitVec.eq_of_toNat_eq
  have hopc := i.opcode.isLt
  have hsym := i.symbol.isLt
  rw [encode, BitVec.toNat_append, ← Nat.shiftLeft_add_eq_or_of_lt hopc, BitVec.toNat_append, BitVec.toNat_ofNat,
    BitVec.toNat_ofNat, Nat.zero_mod, Nat.zero_shiftLeft, Nat.zero_or, Nat.shiftLeft_eq]
  omega

/-- The one word of a command as a number (R90, R95). -/
theorem decode_iff_ofNat (w : Word) (i : Instr) :
    decode w = .ok i ↔ w = BitVec.ofNat 32 (i.opcode.toNat + 0x100 * i.symbol.toNat) := by
  rw [decode_iff_encode, encode_eq_ofNat]

/-! ## `NOP` (R120) -/

theorem alphabet_eq_nil {f : FreqTable} (h : ∀ sym, freqAt f sym = 0) : alphabet f = [] :=
  List.eq_nil_iff_forall_not_mem.2 fun sym hm => (mem_alphabet f sym).1 hm (h sym)

theorem nodeAt_replicate (n : Node) (i : Slot) : nodeAt (Vector.replicate NNODE n) i = n := by
  simp [nodeAt]

/-- A command that succeeds ran its body, whose writes are those of the state given. -/
theorem effect_of_succeeds {i : Instr} {s t : State} (h : Succeeds i s t) :
    ∃ u, Effect i s u ∧ ended .ok t = ended .ok u := by
  rcases exec_cases h with ⟨e, he, heq⟩ | hu
  · exact absurd (congrArg State.errcode heq).symm he
  · exact hu

/-- A state in which no command but `NOP` can succeed without another write: registers hold values that a successful
command would change, or that make it fail. -/
def telltale : State :=
  { State.reset with treeValid := true, arg := 2, result := 1, ipos := 1, olen := 1, onbits := 1 }

theorem telltale_succeeds {i : Instr} (h : Succeeds i telltale telltale) : i = .nop := by
  obtain ⟨u, hu, heq⟩ := effect_of_succeeds h
  cases i
  case nop => rfl
  case clrf | setf | count | rdhdr =>
    have hinvalid := effect_changesTable hu rfl
    exact absurd ((congrArg State.treeValid heq).trans hinvalid) (by decide)
  all_goals simp only [Effect] at hu
  case getf sym =>
    have hresult := congrArg State.result heq
    rw [hu] at hresult
    exact absurd (hresult.trans (freqAt_replicate 0 sym)) (by decide)
  case sett => rw [hu] at heq; exact absurd (congrArg State.total heq) (by decide)
  case build =>
    have hempty : alphabet telltale.freq = [] := alphabet_eq_nil (freqAt_replicate 0)
    exact absurd hu.1 (by rw [hempty]; decide)
  case codelen | encode =>
    obtain ⟨-, i, path, hi, -⟩ := hu
    exact absurd (hi.symm.trans (leafAt_replicate none _)) nofun
  case decode =>
    obtain ⟨-, i, p, sym, -, hleaf, -⟩ := hu
    have hdummy := congrArg Node.body (nodeAt_replicate Node.initial i)
    exact absurd (hdummy.symm.trans hleaf) nofun
  case putbit | putint | wrhdr | getbit | getbyte | getint => exact absurd hu.1 (by decide)
  case putbyte =>
    obtain ⟨-, haligned, -⟩ := hu
    exact absurd haligned (by decide)
  case flush =>
    rcases hu with ⟨h0, -⟩ | ⟨-, -, rfl⟩
    · exact absurd h0 (by decide)
    · exact absurd (congrArg State.onbits heq) (by decide)
  case oclr => rw [hu] at heq; exact absurd (congrArg State.olen heq) (by decide)
  case irewind => rw [hu] at heq; exact absurd (congrArg State.ipos heq) (by decide)

/-- Settles O18: `NOP` runs no body, and `telltale` tells every other command from it. -/
theorem nopClearsErrcode : Obligations.NopClearsErrcode :=
  ⟨fun w => decode_iff_ofNat w .nop, fun _ => rfl, fun _ h => telltale_succeeds (h telltale)⟩

/-! ## `CLRF`, `SETF`, `GETF` and `SETT` (R121 to R123, R125) -/

/-- What `CLRF` writes (R121). -/
def cleared (s : State) : State := { s with freq := Vector.replicate NSYM 0, total := 0, treeValid := false }

/-- `CLRF` in every state (R121). -/
theorem succeeds_clrf (s : State) : Succeeds .clrf s (cleared s) := rfl

theorem freqAt_cleared (s : State) (sym : Byte) : freqAt (cleared s).freq sym = 0 := freqAt_replicate 0 sym

/-- `BUILD` of the empty alphabet (R150). -/
theorem fails_build_empty {s : State} (h : ∀ sym, freqAt s.freq sym = 0) : Fails .build s .emptyAlphabet :=
  assertOrRaise_of_not (by rw [alphabet_eq_nil h]; decide) _ _ _

/-- Settles O19: the cleared table has no symbol left to build a tree of. -/
theorem clrfClearsTable : Obligations.ClrfClearsTable :=
  ⟨fun w => decode_iff_ofNat w .clrf, fun s =>
    ⟨cleared s, succeeds_clrf s, rfl, freqAt_cleared s, fails_build_empty (freqAt_cleared s)⟩⟩

/-- Settles O20: the entry written reads back as `ARG`, and the others as before. -/
theorem setfWritesOneEntry : Obligations.SetfWritesOneEntry := by
  refine ⟨fun w sym => decode_iff_ofNat w (.setf sym), fun s sym =>
    ⟨{ s with freq := setFreqAt s.freq sym s.arg, treeValid := false }, rfl, rfl, ?_, fun other hne => ?_⟩⟩
  · exact (freqAt_setFreqAt s.freq sym sym s.arg).trans (if_pos rfl)
  · exact (freqAt_setFreqAt s.freq sym other s.arg).trans (if_neg hne)

/-- Settles O21: the body reads the table and writes `RESULT`. -/
theorem getfReadsOneEntry : Obligations.GetfReadsOneEntry :=
  ⟨fun w sym => decode_iff_ofNat w (.getf sym), fun _ _ => rfl⟩

/-- Settles O23: the body writes `TOTAL` alone. -/
theorem settWritesTotal : Obligations.SettWritesTotal :=
  ⟨fun w => decode_iff_ofNat w .sett, fun _ => rfl⟩

/-! ## `COUNT` (R124) -/

/-- A counter is at the end of its range, or `COUNT` may add to it (R124). -/
theorem lt_max_iff (v : Word) : v.toNat < 0xFFFFFFFF ↔ v ≠ 0xFFFFFFFF := by
  bv_omega

/-- What `COUNT` writes when neither counter overflows (R124). -/
def counted (sym : Byte) (s : State) : State :=
  { s with freq := setFreqAt s.freq sym (freqAt s.freq sym + 1), total := s.total + 1, treeValid := false }

/-- `COUNT` below the end of both counters (R124). -/
theorem succeeds_count {s : State} {sym : Byte} (hf : freqAt s.freq sym ≠ 0xFFFFFFFF) (ht : s.total ≠ 0xFFFFFFFF) :
    Succeeds (.count sym) s (counted sym s) := by
  show assertOrRaise _ _ _ _ = _
  rw [assertOrRaise_of ((lt_max_iff _).2 hf), assertOrRaise_of ((lt_max_iff _).2 ht), complete_eq]
  simp only [BitVec.ofNat_add, BitVec.ofNat_toNat, BitVec.setWidth_eq]
  rfl

/-- `COUNT` with a counter at the end of its range (R11, R124). -/
theorem fails_count {s : State} {sym : Byte} (h : freqAt s.freq sym = 0xFFFFFFFF ∨ s.total = 0xFFFFFFFF) :
    Fails (.count sym) s .overflow := by
  show assertOrRaise _ _ _ _ = _
  by_cases hf : (freqAt s.freq sym).toNat < 0xFFFFFFFF
  · have ht : ¬s.total.toNat < 0xFFFFFFFF := fun ht => (lt_max_iff _).1 ht (h.resolve_left ((lt_max_iff _).1 hf))
    rw [assertOrRaise_of hf, assertOrRaise_of_not ht, raiseError_eq]
  · rw [assertOrRaise_of_not hf, raiseError_eq]

/-- Below the end of its range a counter does not wrap. -/
theorem toNat_add_one {v : Word} (h : v ≠ 0xFFFFFFFF) : (v + 1).toNat = v.toNat + 1 := by
  have := (lt_max_iff v).2 h
  bv_omega

theorem freqAt_counted (sym other : Byte) (s : State) :
    freqAt (counted sym s).freq other = if other = sym then freqAt s.freq sym + 1 else freqAt s.freq other :=
  freqAt_setFreqAt s.freq sym other _

/-- Settles O22: the two checks of `COUNT` are the two counters below the end of their range. -/
theorem countIncrementsOrOverflows : Obligations.CountIncrementsOrOverflows := by
  refine ⟨fun w sym => decode_iff_ofNat w (.count sym), fun s sym => ⟨fails_count, fun hf ht =>
    ⟨counted sym s, succeeds_count hf ht, rfl, ?_, toNat_add_one ht, fun other hne => ?_⟩⟩⟩
  · rw [freqAt_counted, if_pos rfl, toNat_add_one hf]
  · rw [freqAt_counted, if_neg hne]

/-! ## The counting pass (R126) -/

/-- The table and `TOTAL` of `s` are those of the sequence `text`: the occurrences of each symbol and its length. -/
structure Tallies (text : List Byte) (s : State) : Prop where
  freq : ∀ sym, (freqAt s.freq sym).toNat = text.count sym
  total : s.total.toNat = text.length

theorem tallies_nil_cleared (s : State) : Tallies [] (ended .ok (cleared s)) :=
  ⟨fun sym => congrArg BitVec.toNat (freqAt_cleared s sym), rfl⟩

/-- With fewer than `2^32 - 1` symbols counted, no counter is at the end of its range. -/
theorem Tallies.ne_max {text : List Byte} {s : State} (h : Tallies text s) (hlen : text.length + 1 < 2 ^ 32) :
    (∀ sym, freqAt s.freq sym ≠ 0xFFFFFFFF) ∧ s.total ≠ 0xFFFFFFFF := by
  refine ⟨fun sym => (lt_max_iff _).1 ?_, (lt_max_iff _).1 ?_⟩
  · have := List.count_le_length (a := sym) (l := text)
    rw [h.freq]
    omega
  · rw [h.total]
    omega

/-- One `COUNT` adds its symbol to the sequence counted. -/
theorem Tallies.count {text : List Byte} {s : State} (h : Tallies text s) (hlen : text.length + 1 < 2 ^ 32)
    (c : Byte) : Succeeds (.count c) s (counted c s) ∧ Tallies (text ++ [c]) (ended .ok (counted c s)) := by
  obtain ⟨hf, ht⟩ := h.ne_max hlen
  refine ⟨succeeds_count (hf c) ht, fun sym => ?_, ?_⟩
  · show (freqAt (counted c s).freq sym).toNat = _
    rw [freqAt_counted, List.count_append, List.count_singleton, ← h.freq]
    by_cases he : sym = c
    · subst he
      rw [if_pos rfl, toNat_add_one (hf sym), beq_self_eq_true, if_pos rfl]
    · simp [he, Ne.symm he]
  · show (s.total + 1).toNat = _
    rw [toNat_add_one ht, h.total, List.length_append, List.length_singleton]

theorem runAll_cons {i : Instr} {is : List Instr} {s t : State} (h : Succeeds i s t) :
    runAll (i :: is) s = runAll is (ended .ok t) := by
  rw [runAll, h]
  exact if_pos rfl

/-- A run of `COUNT`s adds its sequence to the one counted before. -/
theorem Tallies.runAll_count {seen text : List Byte} {s : State} (h : Tallies seen s)
    (hlen : seen.length + text.length < 2 ^ 32) :
    ∃ t, runAll (text.map .count) s = some t ∧ Tallies (seen ++ text) t := by
  induction text generalizing seen s with
  | nil => exact ⟨s, rfl, by rwa [List.append_nil]⟩
  | cons c text ih =>
    rw [List.length_cons] at hlen
    obtain ⟨hrun, htally⟩ := h.count (by omega) c
    obtain ⟨t, ht, htext⟩ := ih htally (by rw [List.length_append, List.length_singleton]; omega)
    exact ⟨t, (runAll_cons hrun).trans ht, by rwa [List.append_assoc] at htext⟩

/-- `CLRF` and a `COUNT` per byte, begun in any state. -/
theorem tallies_countingPass (s : State) {text : List Byte} (hlen : text.length < 2 ^ 32) :
    ∃ t, runAll (.clrf :: text.map .count) s = some t ∧ Tallies text t := by
  rw [runAll_cons (succeeds_clrf s)]
  exact (tallies_nil_cleared s).runAll_count (by rwa [List.length_nil, Nat.zero_add])

/-- The table and `TOTAL` depend on the numbers of occurrences alone, so the order of the sequence does not matter. -/
theorem Tallies.eq_of_perm {text other : List Byte} {t u : State} (ht : Tallies text t) (hu : Tallies other u)
    (hperm : other.Perm text) : u.freq = t.freq ∧ u.total = t.total :=
  ⟨freqTable_ext fun sym => BitVec.eq_of_toNat_eq ((hu.freq sym).trans ((hperm.count_eq sym).trans (ht.freq sym).symm)),
    BitVec.eq_of_toNat_eq (hu.total.trans (hperm.length_eq.trans ht.total.symm))⟩

/-- Settles O24, by induction on the sequence: every prefix of the run holds the table of the symbols counted so far. -/
theorem countingPass : Obligations.CountingPass := by
  intro s text hlen
  obtain ⟨t, ht, htally⟩ := tallies_countingPass s hlen
  refine ⟨t, ht, htally.freq, htally.total, fun other hperm => ?_⟩
  obtain ⟨u, hu, hother⟩ := tallies_countingPass s (hperm.length_eq ▸ hlen)
  exact ⟨u, hu, htally.eq_of_perm hother hperm⟩

end Sys2Proof.Proofs
end

section
/-! Proofs about `PickMin` and one merge (42_tree_build.md R142, R143, R146): the smallest key of a live set, and the two
least live nodes joined in one new node. -/

namespace Sys2Proof.Proofs

open Sys2Proof.Machine Sys2Proof.Safety Sys2Proof.Laws

/-! ## The smallest key (R142, R143) -/

/-- `PickMin` takes the member whose key is before every other's. -/
theorem pickMin_least {ar : Arena} {live : List Slot} {i : Slot} (h : pickMin ar live = some i) :
    ∀ j ∈ live, j ≠ i → KeyBefore ar i j := by
  simp only [keyBefore_iff_keyLt]
  induction live generalizing i with
  | nil => cases h
  | cons a rest ih =>
    intro j hj hne
    simp only [pickMin] at h
    split at h
    · next hnone =>
      cases h
      obtain ⟨k, hk⟩ := pickMin_isSome ar (List.ne_nil_of_mem ((List.mem_cons.1 hj).resolve_left hne))
      rw [hnone] at hk
      cases hk
    · next k hk =>
      split at h <;> cases h
      · next hik =>
        by_cases hjk : j = k
        · exact hjk ▸ hik
        · exact keyLt_trans hik (ih hk j ((List.mem_cons.1 hj).resolve_left hne) hjk)
      · next hik =>
        rcases List.mem_cons.1 hj with rfl | hmem
        · exact keyLt_of_not hne hik
        · exact ih hk j hmem hne

/-- `PickMin` reads nothing of the arena but the counts of the live slots. -/
theorem pickMin_congr {ar ar' : Arena} {live : List Slot}
    (h : ∀ i ∈ live, (nodeAt ar i).count = (nodeAt ar' i).count) : pickMin ar live = pickMin ar' live := by
  induction live with
  | nil => rfl
  | cons a rest ih =>
    simp only [pickMin, ih fun i hi => h i (List.mem_cons_of_mem _ hi)]
    cases hj : pickMin ar' rest with
    | none => rfl
    | some j =>
      have ha := h a List.mem_cons_self
      have hb := h j (List.mem_cons_of_mem _ (pickMin_mem hj))
      have hkey : keyLt ar a j = keyLt ar' a j := by simp only [keyLt, ha, hb]
      simp only [hkey]

/-- Settles O25: by induction on the live set, whose first member is compared with the least of the rest. -/
theorem pickMinTakesLeastKey : Obligations.PickMinTakesLeastKey := by
  refine ⟨fun ar live hne => ?_, fun ar ar' live h => pickMin_congr h⟩
  obtain ⟨i, hi⟩ := pickMin_isSome ar hne
  exact ⟨i, hi, pickMin_mem hi, pickMin_least hi⟩

/-! ## One merge (R146) -/

/-- Settles O26: the merge is `joinNodes` of the two nodes taken, read slot by slot. -/
theorem mergeStepJoinsTwoLeast : Obligations.MergeStepJoinsTwoLeast := by
  intro fs m ar live hnd hlen hm
  obtain ⟨a, b, ha, hb, hal, hbl, hab, he⟩ := mergeOnce_eq fs m ar hnd hlen
  have ham : a ≠ m := fun h => hm (h ▸ hal)
  have hbm : b ≠ m := fun h => hm (h ▸ hbl)
  simp only [he]
  have hslot := nodeAt_joinNodes fs ar hab ham hbm
  refine ⟨a, b, ha, hb, hab, rfl, nodeAt_joinNodes_new fs ar hab ham hbm, ?_, ?_, fun i him hia hib => ?_⟩
  · rw [hslot, if_neg ham, if_pos (.inl rfl)]
  · rw [hslot, if_neg hbm, if_pos (.inr rfl)]
  · rw [hslot, if_neg him, if_neg (not_or.2 ⟨hia, hib⟩)]

end Sys2Proof.Proofs
end

section
/-! Proofs about the codes of a tree (42_tree_build.md R149, R152 to R154): a code names one slot, the slots along it are
internal, and in a held tree each edge leads to an older slot. -/

namespace Sys2Proof.Proofs

open Sys2Proof.Machine Sys2Proof.Safety Sys2Proof.Laws

/-! ## Codes in any arena (R153, R154) -/

/-- A nonempty code ends with an edge from an internal slot to one of its children, 0 to the left and 1 to the right. -/
theorem codeOf_append_singleton {s : State} {i : Slot} {c : List Bool} {b : Bool} (h : CodeOf s i (c ++ [b])) :
    ∃ p l r, CodeOf s p c ∧ (nodeAt s.nodes p).body = .internal l r ∧ i = if b then r else l := by
  generalize hd : c ++ [b] = d at h
  cases h with
  | root => exact absurd hd (List.append_ne_nil_of_right_ne_nil _ (List.cons_ne_nil _ _))
  | @left p l r c' hp hbody =>
    obtain ⟨rfl, hb⟩ := List.append_inj' hd rfl
    cases hb
    exact ⟨p, i, r, hp, hbody, rfl⟩
  | @right p l r c' hp hbody =>
    obtain ⟨rfl, hb⟩ := List.append_inj' hd rfl
    cases hb
    exact ⟨p, l, i, hp, hbody, rfl⟩

theorem codeOf_nil {s : State} {i : Slot} (h : CodeOf s i []) : i = s.root := by
  generalize hd : ([] : List Bool) = d at h
  cases h with
  | root => rfl
  | left => exact absurd hd.symm (List.append_ne_nil_of_right_ne_nil _ (List.cons_ne_nil _ _))
  | right => exact absurd hd.symm (List.append_ne_nil_of_right_ne_nil _ (List.cons_ne_nil _ _))

/-- A code leads from the root to one slot. -/
theorem codeOf_slot_unique {s : State} {i j : Slot} {c : List Bool} (hi : CodeOf s i c) (hj : CodeOf s j c) : i = j := by
  induction c using List.reverseRecOn generalizing i j with
  | nil => exact (codeOf_nil hi).trans (codeOf_nil hj).symm
  | append_singleton c b ih =>
    obtain ⟨p, l, r, hp, hbody, rfl⟩ := codeOf_append_singleton hi
    obtain ⟨q, l', r', hq, hbody', rfl⟩ := codeOf_append_singleton hj
    rw [← ih hp hq, hbody] at hbody'
    cases hbody'
    rfl

/-- A proper prefix of a code is the code of an internal slot. -/
theorem codeOf_prefix {s : State} {j : Slot} {c d : List Bool} (h : CodeOf s j d) (hcd : c <+: d) :
    c = d ∨ ∃ p l r, CodeOf s p c ∧ (nodeAt s.nodes p).body = .internal l r := by
  induction d using List.reverseRecOn generalizing j with
  | nil => exact .inl (List.prefix_nil.1 hcd)
  | append_singleton d b ih =>
    obtain ⟨p, l, r, hp, hbody, -⟩ := codeOf_append_singleton h
    rcases List.prefix_concat_iff.1 hcd with heq | hcd
    · exact .inl heq
    · rcases ih hp hcd with rfl | hinner
      · exact .inr ⟨p, l, r, hp, hbody⟩
      · exact .inr hinner

/-- Settles O32: a prefix of a code is the code itself, which names one slot, or the code of an internal slot. -/
theorem prefixFreeCodes : Obligations.PrefixFreeCodes := by
  intro s i j c d hi hj hij hchildless hcd
  rcases codeOf_prefix hj hcd with rfl | ⟨p, l, r, hp, hbody⟩
  · exact hij (codeOf_slot_unique hi hj)
  · exact hchildless l r (codeOf_slot_unique hi hp ▸ hbody)

/-! ## Codes in a held tree (R48, R149) -/

/-- Each edge leads to an older slot, so a slot lies below the root by at least its depth. -/
theorem codeOf_depth_le {s : State} (h : HeldTree s) {i : Slot} {c : List Bool} (hc : CodeOf s i c) :
    i.val + c.length ≤ s.root.val := by
  induction c using List.reverseRecOn generalizing i with
  | nil => exact Nat.le_of_eq (congrArg Fin.val (codeOf_nil hc))
  | append_singleton c b ih =>
    obtain ⟨p, l, r, hp, hbody, rfl⟩ := codeOf_append_singleton hc
    have hdepth := ih hp
    obtain ⟨hl, hr, -⟩ := h.internal p l r (Fin.le_def.2 (by omega)) hbody
    have hlt : (if b then r else l) < p := by cases b; exacts [hl, hr]
    rw [Fin.lt_def] at hlt
    rw [List.length_append, List.length_singleton]
    omega

theorem codeOf_le_root {s : State} (h : HeldTree s) {i : Slot} {c : List Bool} (hc : CodeOf s i c) : i ≤ s.root :=
  Fin.le_def.2 (by have := codeOf_depth_le h hc; omega)

/-- An internal slot is above the leaves and above two distinct children. -/
theorem internal_val_ge {s : State} (h : HeldTree s) {m l r : Slot} (hm : m ≤ s.root)
    (hbody : (nodeAt s.nodes m).body = .internal l r) : s.nleaf.toNat ≤ m.val ∧ 2 ≤ m.val := by
  obtain ⟨hl, hr, hlr, -, -, -, hn⟩ := h.internal m l r hm hbody
  have := Fin.val_ne_of_ne hlr
  rw [Fin.lt_def] at hl hr
  exact ⟨hn, by omega⟩

/-- A nonempty code of a held tree passes internal slots only, of which the last is above the leaves. -/
theorem codeOf_length_le {s : State} (h : HeldTree s) {i : Slot} {c : List Bool} (hc : CodeOf s i c) (hne : c ≠ []) :
    s.nleaf.toNat + c.length ≤ s.root.val + 1 ∧ 2 + c.length ≤ s.root.val + 1 := by
  obtain ⟨c, b, rfl⟩ := (List.eq_nil_or_concat' c).resolve_left hne
  obtain ⟨p, l, r, hp, hbody, -⟩ := codeOf_append_singleton hc
  obtain ⟨hn, h2⟩ := internal_val_ge h (codeOf_le_root h hp) hbody
  have := codeOf_depth_le h hp
  rw [List.length_append, List.length_singleton]
  omega

/-- `ROOT` outside the `ONE_BIT` tree (R147, R150). -/
theorem rootOf_val {cfg : Config} {n : Nat} (hn : n ≤ 256) (h : ¬(n = 1 ∧ cfg.singleMode = .oneBit)) :
    (rootOf cfg n).val = 2 * n - 2 := by
  rw [(joinLeaves_eq_mergeLoop h (Vector.replicate NNODE Node.initial)).2, slotOf_val (by omega)]

theorem rootOf_oneBit {cfg : Config} (h : cfg.singleMode = .oneBit) : rootOf cfg 1 = slotOf 2 := by
  simp only [rootOf, h, if_true]

/-- Settles O33: the inner slots of a code lie between the leaves and the root, which stand `n - 2` apart. -/
theorem codeLengthBound : Obligations.CodeLengthBound := by
  intro s i sym c h hc hleaf
  obtain ⟨hsize, h1, hroot⟩ := h.size
  have hle := length_alphabet_le s.freq
  have hdepth := codeOf_depth_le h hc
  have hlen := codeOf_length_le h hc
  rw [← hsize] at h1 hle hroot
  by_cases hone : s.nleaf.toNat = 1 ∧ s.cfg.singleMode = .oneBit
  · obtain ⟨hn, hmode⟩ := hone
    rw [hn, rootOf_oneBit hmode] at hroot
    have hval : s.root.val = 2 := congrArg Fin.val hroot
    have hne : c ≠ [] := by
      rintro rfl
      obtain ⟨-, -, -, hlt⟩ := h.leaf i sym (codeOf_le_root h hc) hleaf
      rw [codeOf_nil hc] at hlt
      omega
    have hpos := List.length_pos_iff.2 hne
    obtain ⟨-, hlen⟩ := hlen hne
    exact ⟨fun h2 => by omega, by omega, fun _ _ => by omega, fun _ hzero => by rw [hmode] at hzero; cases hzero⟩
  · have hval : s.root.val = 2 * s.nleaf.toNat - 2 := hroot ▸ rootOf_val hle hone
    have hbound : c.length ≤ s.nleaf.toNat - 1 := by
      by_cases hne : c = []
      · rw [hne]; exact Nat.zero_le _
      · have := (hlen hne).1
        omega
    exact ⟨fun _ => hbound, by omega, fun hn hmode => absurd ⟨hn, hmode⟩ hone, fun hn _ => by omega⟩

/-- Held trees with the same root and the same kinds and children up to it have the same codes. -/
theorem codeOf_congr {s t : State} (h : HeldTree s) (hroot : t.root = s.root)
    (hbody : ∀ i, i ≤ s.root → (nodeAt t.nodes i).body = (nodeAt s.nodes i).body) {i : Slot} {c : List Bool}
    (hc : CodeOf s i c) : CodeOf t i c := by
  induction hc with
  | root => exact hroot ▸ .root
  | left hp hb ih => exact .left ih ((hbody _ (codeOf_le_root h hp)).trans hb)
  | right hp hb ih => exact .right ih ((hbody _ (codeOf_le_root h hp)).trans hb)

end Sys2Proof.Proofs
end

section
/-! Proofs about `BUILD` (42_tree_build.md R140 to R152): how it ends, where it places leaves, the order in which its
merges join the live slots, and what of the state it depends on. -/

namespace Sys2Proof.Proofs

open Sys2Proof.Machine Sys2Proof.Safety Sys2Proof.Laws

/-! ## How `BUILD` ends (R150) -/

theorem alphabet_pos {f : FreqTable} (h : ∃ sym, freqAt f sym ≠ 0) : 1 ≤ (alphabet f).length := by
  obtain ⟨sym, hsym⟩ := h
  exact List.length_pos_of_mem ((mem_alphabet f sym).2 hsym)

/-- `BUILD` of one symbol when `SINGLE_MODE` rejects it. -/
theorem fails_build_single {s : State} (h1 : (alphabet s.freq).length = 1) (h2 : s.cfg.singleMode = .reject) :
    Fails .build s .singleSymbol := by
  show assertOrRaise _ _ _ _ = _
  rw [assertOrRaise_of (Nat.le_of_eq h1.symm), assertOrRaise_of_not (not_not.2 ⟨h1, h2⟩), raiseError_eq]

/-- Every way `BUILD` can go (R150). -/
theorem build_outcomes (s : State) :
    ((∀ sym, freqAt s.freq sym = 0) ∧ Fails .build s .emptyAlphabet) ∨
      ((alphabet s.freq).length = 1 ∧ s.cfg.singleMode = .reject ∧ Fails .build s .singleSymbol) ∨
      (1 ≤ (alphabet s.freq).length ∧ ¬((alphabet s.freq).length = 1 ∧ s.cfg.singleMode = .reject) ∧
        Succeeds .build s (buildTree s)) := by
  by_cases h0 : ∀ sym, freqAt s.freq sym = 0
  · exact .inl ⟨h0, fails_build_empty h0⟩
  · have h1 := alphabet_pos (not_forall.1 h0)
    by_cases h2 : (alphabet s.freq).length = 1 ∧ s.cfg.singleMode = .reject
    · exact .inr (.inl ⟨h2.1, h2.2, fails_build_single h2.1 h2.2⟩)
    · exact .inr (.inr ⟨h1, h2, exec_build h1 h2⟩)

/-! ## The leaves (R144) -/

/-- What a `BUILD` with a symbol leaves is a built tree, of one symbol or merged. -/
theorem exists_builtTree {s : State} (h : 1 ≤ (alphabet s.freq).length) : ∃ c, BuiltTree (buildTree s) c := by
  by_cases hone : (alphabet s.freq).length = 1 ∧ s.cfg.singleMode = .oneBit
  · exact ⟨2, builtTree_single hone.1 hone.2⟩
  · exact ⟨_, builtTree_merged h hone⟩

/-- Settles O28: the leaves of the built tree are those of the alphabet, which is ascending. -/
theorem buildPlacesLeaves : Obligations.BuildPlacesLeaves := by
  intro s t h
  obtain ⟨_, ⟨h1, -, rfl⟩, ht⟩ := effect_of_succeeds h
  have hnodes : t.nodes = (buildTree s).nodes := (congrArg State.nodes ht :)
  have hidx : t.leafIdx = (buildTree s).leafIdx := (congrArg State.leafIdx ht :)
  obtain ⟨c, hb⟩ := exists_builtTree h1
  rw [hnodes, hidx]
  refine ⟨alphabet_pairwise _, mem_alphabet _, fun k sym hk => ?_, fun sym hsym => ?_⟩
  · have hlt := (List.getElem?_eq_some_iff.1 hk).1
    have hle := length_alphabet_le s.freq
    exact ⟨slotOf_val (by omega), hb.leaves k sym hk⟩
  · exact buildTree_noLeaf fun hm => (mem_alphabet _ _).1 hm hsym

/-! ## The tree of one symbol (R147) -/

/-- The `ONE_BIT` tree over the leaf in slot 0. -/
theorem nodeAt_singleTree (ar : Arena) (i : Slot) : nodeAt (singleTree ar) i =
    if i = 0 then { nodeAt ar 0 with parent := some 2 }
    else if i = 1 then { body := .dummy, count := 0, parent := some 2 }
    else if i = 2 then { body := .internal 0 1, count := (nodeAt ar 0).count, parent := none }
    else nodeAt ar i := by
  have h20 : slotOf 0 ≠ slotOf 2 := by decide
  have h10 : slotOf 0 ≠ slotOf 1 := by decide
  have h21 : slotOf 1 ≠ slotOf 2 := by decide
  show _ = if i = slotOf 0 then _ else if i = slotOf 1 then _ else if i = slotOf 2 then _ else _
  simp only [singleTree, nodeAt_setParent, nodeAt_setNodeAt, if_neg h20, if_neg h10]
  by_cases h1 : i = slotOf 1
  · subst h1; simp only [if_neg h21, if_true]; rfl
  · simp only [if_neg h1]; rfl

theorem placeLeaves_single (freq : FreqTable) (sym : Byte) (ar : Arena) :
    nodeAt (placeLeaves freq [sym] 0 ar) 0 = leafNode freq sym :=
  nodeAt_placeLeaves_leaf freq (k := 0) (j := 0) ar (by rw [List.length_singleton]; decide) rfl

/-- Settles O29: the placed leaf is the tree, or `singleTree` joins it with a dummy. -/
theorem singleSymbolTree : Obligations.SingleSymbolTree := by
  intro s sym hsym
  have hone : (alphabet s.freq).length = 1 := congrArg List.length hsym
  have hleaf := placeLeaves_single s.freq sym s.nodes
  have hidx : leafAt (buildTree s).leafIdx sym = some 0 :=
    leafAt_placeIndex_leaf (alphabet_nodup s.freq) (k := 0) (j := 0) _ (by rw [hsym]; rfl)
  have hbuild : s.cfg.singleMode ≠ .reject → Succeeds .build s (buildTree s) := fun hmode =>
    exec_build (Nat.le_of_eq hone.symm) fun h => hmode h.2
  refine ⟨fun hmode => ?_, fun hmode => ?_, fun hmode => fails_build_single hone hmode⟩
  · have hroot : (buildTree s).root = 2 := by
      show rootOf _ _ = _
      rw [hone, rootOf_oneBit hmode]
      rfl
    have hnode : ∀ i, nodeAt (buildTree s).nodes i = nodeAt (singleTree (placeLeaves s.freq [sym] 0 s.nodes)) i := by
      intro i
      show nodeAt (joinLeaves _ _ _) i = _
      simp only [hsym, joinLeaves, List.length_singleton, if_true, hmode]
    simp only [nodeAt_singleTree, hleaf] at hnode
    have h2 := hnode 2
    exact ⟨buildTree s, hbuild (by rw [hmode]; decide), hroot, hnode 0, hnode 1, h2, hidx,
      .left (r := 1) .root (by rw [hroot, h2]; rfl)⟩
  · have hroot : (buildTree s).root = 0 := by
      show rootOf _ _ = _
      simp only [rootOf, hone, if_true, hmode]
      rfl
    have hnode : nodeAt (buildTree s).nodes 0 = leafNode s.freq sym := by
      show nodeAt (joinLeaves _ _ _) 0 = _
      simp only [hsym, joinLeaves, List.length_singleton, if_true, hmode]
      exact hleaf
    exact ⟨buildTree s, hbuild (by rw [hmode]; decide), hroot, hnode, hidx, hroot ▸ .root⟩

/-! ## The merges (R145, R146, R150) -/

theorem mergeOnce_of_pickMin (fs : FirstSlot) (m : Slot) {ar : Arena} {live : List Slot} {a b : Slot}
    (ha : pickMin ar live = some a) (hb : pickMin ar (live.erase a) = some b) :
    mergeOnce fs m ar live = (joinNodes fs ar a b m, (live.erase a).erase b ++ [m]) := by
  simp only [mergeOnce, ha, hb]

/-- The first merge of a forest of two or more trees joins the two slots of least key in the next slot, and leaves a
forest of one tree less. -/
theorem Forest.mergeOnce {c k m : Nat} {ar : Arena} {live : List Slot} (h : Forest c m ar live) (hcm : c ≤ m)
    (hlen : live.length = k + 2) (hm : m < 511) (fs : FirstSlot) :
    ∃ a b, pickMin ar live = some a ∧ pickMin ar (live.erase a) = some b ∧ a ∈ live ∧ b ∈ live ∧ a ≠ b ∧
      Machine.mergeOnce fs (slotOf m) ar live =
        (joinNodes fs ar a b (slotOf m), (live.erase a).erase b ++ [slotOf m]) ∧
      Forest c (m + 1) (joinNodes fs ar a b (slotOf m)) ((live.erase a).erase b ++ [slotOf m]) ∧
      ((live.erase a).erase b ++ [slotOf m]).length = k + 1 := by
  obtain ⟨a, b, ha, hb, hal, hbl, hab, he⟩ := mergeOnce_eq fs (slotOf m) ar h.nodup (by omega)
  have hv : (slotOf m).val = m := slotOf_val hm
  have hjoin := Forest.join (m := slotOf m) (hv.symm ▸ h) (hv.symm ▸ hcm) fs hal hbl hab
  rw [hv] at hjoin
  refine ⟨a, b, ha, hb, hal, hbl, hab, he, hjoin, ?_⟩
  rw [List.length_append, List.length_erase_of_mem (h.nodup.mem_erase_iff.2 ⟨hab.symm, hbl⟩),
    List.length_erase_of_mem hal, List.length_singleton]
  omega

/-- A live slot is older than the next slot to be made. -/
theorem Forest.live_ne {c m : Nat} {ar : Arena} {live : List Slot} (h : Forest c m ar live) (hm : m < 511) {j : Slot}
    (hj : j ∈ live) : j ≠ slotOf m :=
  Fin.ne_of_val_ne ((slotOf_val hm).symm ▸ Nat.ne_of_lt ((h.mem j).1 hj).1)

/-- The merge loop writes no slot from `m + k` on. -/
theorem Forest.nodeAt_mergeLoop_outside {c k m : Nat} {ar : Arena} {live : List Slot} (h : Forest c m ar live)
    (hcm : c ≤ m) (hlen : live.length = k + 1) (hm : m + k ≤ 511) (fs : FirstSlot) {i : Slot} (hi : m + k ≤ i.val) :
    nodeAt (Machine.mergeLoop fs k m ar live) i = nodeAt ar i := by
  induction k generalizing m ar live with
  | zero => rfl
  | succ k ih =>
    obtain ⟨a, b, -, -, ha, hb, hab, he, hforest, hlen'⟩ := h.mergeOnce hcm hlen (by omega) fs
    have hia : i ≠ a := Fin.ne_of_val_ne (by have := ((h.mem a).1 ha).1; omega)
    have hib : i ≠ b := Fin.ne_of_val_ne (by have := ((h.mem b).1 hb).1; omega)
    have him : i ≠ slotOf m := Fin.ne_of_val_ne (by rw [slotOf_val (by omega)]; omega)
    simp only [Machine.mergeLoop, he]
    rw [ih hforest (by omega) hlen' (by omega) (by omega),
      nodeAt_joinNodes fs ar hab (h.live_ne (by omega) ha) (h.live_ne (by omega) hb), if_neg him,
      if_neg (not_or.2 ⟨hia, hib⟩)]

/-- The live slots of a forest whose first `c` slots are childless are those R146 calls live. -/
theorem Forest.liveAt_iff {c : Nat} {m : Slot} {ar : Arena} {live : List Slot} (h : Forest c m.val ar live)
    (hleaf : ∀ p l r, p.val < c → (nodeAt ar p).body ≠ .internal l r) (j : Slot) : LiveAt ar m j ↔ j ∈ live := by
  rw [h.mem, LiveAt, Fin.lt_def]
  refine and_congr_right fun hj => ⟨fun hnone => ?_, fun hpar p l r hp hbody => ?_⟩
  · cases hpar : (nodeAt ar j).parent with
    | none => rfl
    | some p =>
      obtain ⟨-, hp, l, r, hbody, hjlr⟩ := h.parent j p hj hpar
      obtain ⟨hl, hr⟩ := hnone p l r hp hbody
      exact absurd hjlr (not_or.2 ⟨hl, hr⟩)
  · have hcp : c ≤ p.val := Nat.le_of_not_lt fun hlt => hleaf p l r hlt hbody
    obtain ⟨l', r', hbody', hjoins⟩ := h.joined p hcp hp
    rw [hbody] at hbody'
    cases hbody'
    constructor <;> rintro rfl
    · rw [hjoins.left_parent] at hpar; cases hpar
    · rw [hjoins.right_parent] at hpar; cases hpar

/-- Internal slot `m` joins the two slots of least key of those live when it was made, in the order of `FIRST_SLOT`
(R146). -/
def JoinsLeast (fs : FirstSlot) (ar : Arena) (m : Slot) : Prop :=
  ∃ a b, (nodeAt ar m).body = mergeBody fs a b ∧ LiveAt ar m a ∧ LiveAt ar m b ∧ a ≠ b ∧
    (∀ j, LiveAt ar m j → j ≠ a → KeyBefore ar a j) ∧ (∀ j, LiveAt ar m j → j ≠ a → j ≠ b → KeyBefore ar b j)

/-- What a slot joins is seen in the slots up to it, their parents aside. -/
theorem JoinsLeast.congr {fs : FirstSlot} {ar ar' : Arena} {m : Slot} (h : JoinsLeast fs ar m)
    (hsame : ∀ j, j ≤ m → SameNode ar ar' j) : JoinsLeast fs ar' m := by
  obtain ⟨a, b, hbody, ha, hb, hab, hfirst, hsecond⟩ := h
  have hlive := fun j => liveAt_congr (m := m) (fun p hp => (hsame p hp.le).1) j
  have hkey : ∀ {i j}, LiveAt ar m i → LiveAt ar m j → KeyBefore ar i j → KeyBefore ar' i j := fun hi hj =>
    (keyBefore_congr (hsame _ hi.1.le).2 (hsame _ hj.1.le).2).2
  refine ⟨a, b, (hsame m le_rfl).1.trans hbody, (hlive a).2 ha, (hlive b).2 hb, hab, fun j hj hja => ?_,
    fun j hj hja hjb => ?_⟩
  · rw [hlive] at hj
    exact hkey ha hj (hfirst j hj hja)
  · rw [hlive] at hj
    exact hkey hb hj (hsecond j hj hja hjb)

/-- The slot a merge makes joins the two nodes `PickMin` takes. -/
theorem Forest.joinsLeast_joinNodes {c : Nat} {m : Slot} {ar : Arena} {live : List Slot} (h : Forest c m.val ar live)
    (hleaf : ∀ p l r, p.val < c → (nodeAt ar p).body ≠ .internal l r) (fs : FirstSlot) {a b : Slot}
    (ha : pickMin ar live = some a) (hb : pickMin ar (live.erase a) = some b) :
    JoinsLeast fs (joinNodes fs ar a b m) m := by
  obtain ⟨hba, hbl⟩ := h.nodup.mem_erase_iff.1 (pickMin_mem hb)
  have hne : ∀ {j}, j ∈ live → j ≠ m := fun hj => Fin.ne_of_lt ((h.mem _).1 hj).1
  have ham := hne (pickMin_mem ha)
  have hbm := hne hbl
  have hsame := fun j => sameNode_joinNodes fs ar (j := j) hba.symm ham hbm
  have hlive : ∀ j, LiveAt (joinNodes fs ar a b m) m j ↔ j ∈ live := fun j =>
    (liveAt_congr (fun p hp => (hsame p (Fin.ne_of_lt hp)).1) j).trans (h.liveAt_iff hleaf j)
  have hkey : ∀ {i j}, i ∈ live → j ∈ live → KeyBefore ar i j → KeyBefore (joinNodes fs ar a b m) i j :=
    fun hi hj => (keyBefore_congr (hsame _ (hne hi)).2 (hsame _ (hne hj)).2).2
  simp only [JoinsLeast, hlive]
  refine ⟨a, b, by rw [nodeAt_joinNodes_new fs ar hba.symm ham hbm], pickMin_mem ha, hbl, hba.symm, fun j hj hja => ?_,
    fun j hj hja hjb => ?_⟩
  · exact hkey (pickMin_mem ha) hj (pickMin_least ha j hj hja)
  · exact hkey hbl hj (pickMin_least hb j (h.nodup.mem_erase_iff.2 ⟨hja, hj⟩) hjb)

/-- Every slot the merge loop makes joins the two slots of least key. -/
theorem Forest.joinsLeast_mergeLoop {c k m : Nat} {ar : Arena} {live : List Slot} (h : Forest c m ar live)
    (hleaf : ∀ p l r, p.val < c → (nodeAt ar p).body ≠ .internal l r) (hcm : c ≤ m) (hlen : live.length = k + 1)
    (hm : m + k ≤ 511) (fs : FirstSlot) {i : Slot} (him : m ≤ i.val) (hik : i.val < m + k) :
    JoinsLeast fs (Machine.mergeLoop fs k m ar live) i := by
  induction k generalizing m ar live with
  | zero => omega
  | succ k ih =>
    obtain ⟨a, b, ha, hb, hal, hbl, hab, he, hforest, hlen'⟩ := h.mergeOnce hcm hlen (by omega) fs
    have hv : (slotOf m).val = m := slotOf_val (by omega)
    have hsame := fun j => sameNode_joinNodes fs ar (j := j) hab (h.live_ne (by omega) hal) (h.live_ne (by omega) hbl)
    have hleaf' : ∀ p l r, p.val < c → (nodeAt (joinNodes fs ar a b (slotOf m)) p).body ≠ .internal l r :=
      fun p l r hp => (hsame p (Fin.ne_of_val_ne (by omega))).1 ▸ hleaf p l r hp
    simp only [Machine.mergeLoop, he]
    by_cases hi : i.val = m
    · obtain rfl : i = slotOf m := Fin.ext (hi.trans hv.symm)
      have hjoins := Forest.joinsLeast_joinNodes (m := slotOf m) (hv.symm ▸ h) hleaf fs ha hb
      obtain ⟨-, hlater⟩ := hforest.mergeLoop (by omega) hlen' (by omega) fs
      exact hjoins.congr fun j hj => hlater j (by rw [Fin.le_def] at hj; omega)
    · exact ih hforest hleaf' (by omega) hlen' (by omega) (by omega) (by omega)

/-! ## The whole `BUILD` (R150) -/

/-- The leaves placed, each alone, are the forest the merges begin with (R144). -/
theorem forest_placeLeaves (freq : FreqTable) (ar : Arena) :
    Forest (alphabet freq).length (alphabet freq).length (placeLeaves freq (alphabet freq) 0 ar)
      ((List.range (alphabet freq).length).map slotOf) :=
  forest_of_parentless (by have := length_alphabet_le freq; omega) fun _ => parent_placeLeaves freq ar

/-- The slots below `n` hold leaves once they are placed (R144). -/
theorem exists_leaf_placeLeaves (freq : FreqTable) {j : Slot} (hj : j.val < (alphabet freq).length) :
    ∃ sym, ∀ ar, nodeAt (placeLeaves freq (alphabet freq) 0 ar) j = leafNode freq sym := by
  have hn := length_alphabet_le freq
  refine ⟨(alphabet freq)[j.val], fun ar => ?_⟩
  have hleaf := nodeAt_placeLeaves_leaf freq (k := 0) ar (by omega) (List.getElem?_eq_getElem hj)
  rwa [Nat.zero_add, slotOf_val_self] at hleaf

theorem length_range_map_slotOf {n : Nat} (h : 1 ≤ n) : ((List.range n).map slotOf).length = n - 1 + 1 := by
  rw [List.length_map, List.length_range]
  omega

/-- The slots above `ROOT` keep what they held (R150). -/
theorem nodeAt_buildTree_above {s : State} (h1 : 1 ≤ (alphabet s.freq).length) {i : Slot}
    (hi : (buildTree s).root < i) : nodeAt (buildTree s).nodes i = nodeAt s.nodes i := by
  have hn := length_alphabet_le s.freq
  have hplaced : (alphabet s.freq).length ≤ i.val →
      nodeAt (placeLeaves s.freq (alphabet s.freq) 0 s.nodes) i = nodeAt s.nodes i := fun hi =>
    nodeAt_placeLeaves_outside _ _ _ (by omega) (.inr (by omega))
  rw [Fin.lt_def] at hi
  change (rootOf s.cfg _).val < _ at hi
  show nodeAt (joinLeaves _ _ _) i = _
  by_cases hone : (alphabet s.freq).length = 1 ∧ s.cfg.singleMode = .oneBit
  · have hval : 2 < i.val := by rwa [hone.1, rootOf_oneBit hone.2] at hi
    rw [← hplaced (by omega), hone.1]
    simp only [joinLeaves, if_true, hone.2, nodeAt_singleTree]
    rw [if_neg, if_neg, if_neg] <;> rintro rfl <;> revert hval <;> decide
  · rw [rootOf_val hn hone] at hi
    rw [(joinLeaves_eq_mergeLoop hone _).1, (forest_placeLeaves s.freq s.nodes).nodeAt_mergeLoop_outside le_rfl
      (length_range_map_slotOf h1) (by omega) _ (by omega), hplaced (by omega)]

/-- With two or more symbols every slot from `n` to `ROOT` joins the two slots of least key (R146, R150). -/
theorem joinsLeast_buildTree {s : State} (h2 : 2 ≤ (alphabet s.freq).length) {m : Slot}
    (hm : (alphabet s.freq).length ≤ m.val) (hroot : m.val ≤ 2 * (alphabet s.freq).length - 2) :
    JoinsLeast s.cfg.firstSlot (buildTree s).nodes m := by
  have hn := length_alphabet_le s.freq
  have hleaf : ∀ (p l r : Slot), p.val < (alphabet s.freq).length →
      (nodeAt (placeLeaves s.freq (alphabet s.freq) 0 s.nodes) p).body ≠ .internal l r := by
    intro p l r hp hbody
    obtain ⟨sym, hsym⟩ := exists_leaf_placeLeaves s.freq hp
    rw [hsym] at hbody
    cases hbody
  show JoinsLeast _ (joinLeaves _ _ _) m
  rw [(joinLeaves_eq_mergeLoop (by omega) _).1]
  exact (forest_placeLeaves s.freq s.nodes).joinsLeast_mergeLoop hleaf le_rfl (length_range_map_slotOf (by omega))
    (by omega) _ hm (by omega)

/-- Settles O27: the built tree is held, and each merge of the loop joins the two live slots `PickMin` takes. -/
theorem buildMakesHeldTree : Obligations.BuildMakesHeldTree := by
  refine ⟨fun w => decode_iff_ofNat w .build, fun s => ⟨fails_build_empty, fails_build_single, fun hsym hmode => ?_⟩⟩
  have h1 := alphabet_pos hsym
  refine ⟨buildTree s, exec_build h1 (not_and_or.2 hmode), heldTree_buildTree h1, rfl,
    fun i => nodeAt_buildTree_above h1, fun h2 => ?_⟩
  have hroot : (buildTree s).root.val = 2 * (alphabet s.freq).length - 2 :=
    rootOf_val (length_alphabet_le s.freq) (by omega)
  exact ⟨hroot, fun m hm hle => joinsLeast_buildTree h2 hm (by rwa [Fin.le_def, hroot] at hle)⟩

/-! ## What `BUILD` depends on (R152) -/

/-- Two arenas hold the same nodes in the slots below `m`. -/
def AgreeBelow (m : Nat) (ar ar' : Arena) : Prop := ∀ i : Slot, i.val < m → nodeAt ar i = nodeAt ar' i

theorem agreeBelow_placeLeaves (freq : FreqTable) (ar ar' : Arena) :
    AgreeBelow (alphabet freq).length (placeLeaves freq (alphabet freq) 0 ar)
      (placeLeaves freq (alphabet freq) 0 ar') := by
  intro i hi
  obtain ⟨sym, hsym⟩ := exists_leaf_placeLeaves freq hi
  rw [hsym, hsym]

theorem AgreeBelow.joinNodes {ar ar' : Arena} {m a b : Slot} (h : AgreeBelow m.val ar ar') (fs : FirstSlot)
    (hab : a ≠ b) (ham : a < m) (hbm : b < m) :
    AgreeBelow (m.val + 1) (joinNodes fs ar a b m) (joinNodes fs ar' a b m) := by
  intro i hi
  rw [nodeAt_joinNodes fs ar hab ham.ne hbm.ne, nodeAt_joinNodes fs ar' hab ham.ne hbm.ne, h a ham, h b hbm]
  by_cases him : i = m
  · rw [if_pos him, if_pos him]
  · rw [h i (Nat.lt_of_le_of_ne (Nat.le_of_lt_succ hi) (Fin.val_ne_of_ne him))]

theorem AgreeBelow.singleTree {ar ar' : Arena} (h : AgreeBelow 1 ar ar') :
    AgreeBelow 3 (singleTree ar) (singleTree ar') := by
  have hpair : AgreeBelow 2 (withDummy ar) (withDummy ar') := by
    intro i hi
    unfold withDummy
    rw [nodeAt_setNodeAt, nodeAt_setNodeAt]
    by_cases h1 : i = slotOf 1
    · rw [if_pos h1, if_pos h1]
    · have hval : i.val ≠ 1 := Fin.val_ne_of_ne h1
      rw [if_neg h1, if_neg h1, h i (by omega)]
  rw [singleTree_eq_joinNodes, singleTree_eq_joinNodes]
  exact hpair.joinNodes (m := slotOf 2) .left (by decide) (by decide) (by decide)

/-- The merge loop takes the same nodes in the same order over arenas that agree on the live slots. -/
theorem AgreeBelow.mergeLoop {c k m : Nat} {ar ar' : Arena} {live : List Slot} (h : AgreeBelow m ar ar')
    (hforest : Forest c m ar live) (hcm : c ≤ m) (hlen : live.length = k + 1) (hm : m + k ≤ 511) (fs : FirstSlot) :
    AgreeBelow (m + k) (mergeLoop fs k m ar live) (mergeLoop fs k m ar' live) := by
  induction k generalizing m ar ar' live with
  | zero => exact h
  | succ k ih =>
    obtain ⟨a, b, ha, hb, hal, hbl, hab, he, hforest', hlen'⟩ := hforest.mergeOnce hcm hlen (by omega) fs
    have hv : (slotOf m).val = m := slotOf_val (by omega)
    have hlt : ∀ j ∈ live, j.val < m := fun j hj => ((hforest.mem j).1 hj).1
    have hcount : ∀ j ∈ live, (nodeAt ar j).count = (nodeAt ar' j).count := fun j hj =>
      congrArg Node.count (h j (hlt j hj))
    have ha' := (pickMin_congr hcount).symm.trans ha
    have hb' := (pickMin_congr fun j hj => hcount j (List.mem_of_mem_erase hj)).symm.trans hb
    have hjoin := AgreeBelow.joinNodes (m := slotOf m) (hv.symm ▸ h) fs hab (Fin.lt_def.2 (hv.symm ▸ hlt a hal))
      (Fin.lt_def.2 (hv.symm ▸ hlt b hbl))
    rw [hv] at hjoin
    simp only [Machine.mergeLoop, he, mergeOnce_of_pickMin fs (slotOf m) ha' hb']
    rw [← Nat.add_assoc, Nat.add_right_comm]
    exact ih hjoin hforest' (by omega) hlen' (by omega)

/-- `BUILD`s from the same table with the same `FIRST_SLOT` and `SINGLE_MODE` agree on `ROOT` and below it. -/
theorem buildTree_agree {s u : State} (h1 : 1 ≤ (alphabet s.freq).length) (hf : s.freq = u.freq)
    (hfs : s.cfg.firstSlot = u.cfg.firstSlot) (hmode : s.cfg.singleMode = u.cfg.singleMode) :
    (buildTree s).root = (buildTree u).root ∧
      AgreeBelow ((buildTree s).root.val + 1) (buildTree s).nodes (buildTree u).nodes := by
  have hn := length_alphabet_le s.freq
  have hroot : (buildTree s).root = (buildTree u).root := by
    show rootOf _ _ = rootOf _ _
    simp only [rootOf, hf, hmode]
  refine ⟨hroot, ?_⟩
  have hplaced := agreeBelow_placeLeaves s.freq s.nodes u.nodes
  show AgreeBelow ((rootOf _ _).val + 1) (joinLeaves _ _ _) (joinLeaves _ _ _)
  rw [← hf]
  by_cases hone : (alphabet s.freq).length = 1 ∧ s.cfg.singleMode = .oneBit
  · have hone' := hmode ▸ hone.2
    rw [hone.1] at hplaced ⊢
    rw [rootOf_oneBit hone.2]
    simp only [joinLeaves, if_true, hone.2, hone']
    exact hplaced.singleTree
  · have hone' : ¬((alphabet s.freq).length = 1 ∧ u.cfg.singleMode = .oneBit) := hmode ▸ hone
    rw [rootOf_val hn hone, (joinLeaves_eq_mergeLoop hone _).1, (joinLeaves_eq_mergeLoop hone' _).1, ← hfs]
    have := hplaced.mergeLoop (forest_placeLeaves s.freq s.nodes) le_rfl (length_range_map_slotOf h1) (by omega)
      s.cfg.firstSlot
    rwa [show (alphabet s.freq).length + ((alphabet s.freq).length - 1) = 2 * (alphabet s.freq).length - 2 + 1 by omega]
      at this

theorem heldTree_ended_buildTree {s : State} (h1 : 1 ≤ (alphabet s.freq).length) :
    HeldTree (ended .ok (buildTree s)) :=
  heldTree_congr (heldTree_buildTree h1) rfl rfl rfl rfl rfl rfl

/-- Settles O30: the same checks pass, and the merges of two builds run in step. -/
theorem buildIsDeterministic : Obligations.BuildIsDeterministic := by
  intro s u t v hf hfs hmode hs hu
  rcases build_outcomes s with ⟨h0, hend⟩ | ⟨h1, hrej, hend⟩ | ⟨h1, hrej, hend⟩
  · cases hs.symm.trans hend
    cases hu.symm.trans (fails_build_empty (hf ▸ h0))
    exact ⟨rfl, nofun⟩
  · cases hs.symm.trans hend
    cases hu.symm.trans (fails_build_single (hf ▸ h1) (hmode ▸ hrej))
    exact ⟨rfl, nofun⟩
  · cases hs.symm.trans hend
    cases hu.symm.trans (exec_build (hf ▸ h1) (hf ▸ hmode ▸ hrej))
    obtain ⟨hroot, hagree⟩ := buildTree_agree h1 hf hfs hmode
    have hnode : ∀ i, i ≤ (buildTree s).root → nodeAt (buildTree s).nodes i = nodeAt (buildTree u).nodes i :=
      fun i hi => hagree i (Nat.lt_succ_of_le hi)
    refine ⟨rfl, fun _ => ⟨hroot, ?_, ?_, hnode, fun i c => ⟨?_, ?_⟩⟩⟩
    · exact congrArg (fun f => BitVec.ofNat 9 (alphabet f).length) hf
    · exact congrArg (fun f => placeIndex (alphabet f) 0 (Vector.replicate NSYM none)) hf
    · exact codeOf_congr (t := ended .ok (buildTree u)) (heldTree_ended_buildTree h1) hroot.symm fun i hi =>
        congrArg Node.body (hnode i hi).symm
    · exact codeOf_congr (t := ended .ok (buildTree s)) (heldTree_ended_buildTree (hf ▸ h1)) hroot fun i hi =>
        congrArg Node.body (hnode i (hroot ▸ hi))

end Sys2Proof.Proofs
end

section
/-! Proofs about paths, `CODELEN` and `ENCODE` (43_encode_decode.md R170 to R172): in a held tree the walk up from a
slot gives the slot's one code, whose length the first command reports and whose bits the second appends to the
stream. -/

namespace Sys2Proof.Proofs

open Sys2Proof.Machine Sys2Proof.Safety Sys2Proof.Laws

/-! ## The path of a held slot (R170) -/

/-- A child of a held internal slot is older than it, names it as parent, and tells the bit of its edge. -/
theorem child_of_internal {s : State} (h : HeldTree s) {p l r : Slot} (hp : p ≤ s.root)
    (hbody : (nodeAt s.nodes p).body = .internal l r) (b : Bool) :
    (if b then r else l) < p ∧ (nodeAt s.nodes (if b then r else l)).parent = some p ∧
      decide (l ≠ if b then r else l) = b := by
  obtain ⟨hl, hr, hlr, hlp, hrp, -⟩ := h.internal p l r hp hbody
  cases b with
  | false => exact ⟨hl, hlp, by simp⟩
  | true => exact ⟨hr, hrp, by simp [hlr]⟩

/-- The walk up from a slot finds the bits of its code, the last edge first (R170). -/
theorem pathUp_of_codeOf {s : State} (h : HeldTree s) {i : Slot} {c : List Bool} (hc : CodeOf s i c) {fuel : Nat}
    (hfuel : s.root.val < i.val + fuel) (path : List Bool) : pathUp s.nodes fuel i path = some (c ++ path) := by
  have hi := codeOf_le_root h hc
  obtain ⟨fuel, rfl⟩ : ∃ k, fuel = k + 1 := Nat.exists_eq_succ_of_ne_zero (by rw [Fin.le_def] at hi; omega)
  induction c using List.reverseRecOn generalizing i fuel path with
  | nil => exact pathUp_root ((h.top i hi).2 (codeOf_nil hc)) fuel path
  | append_singleton c b ih =>
    obtain ⟨p, l, r, hp, hbody, rfl⟩ := codeOf_append_singleton hc
    have hpr := codeOf_le_root h hp
    obtain ⟨hlt, hparent, hbit⟩ := child_of_internal h hpr hbody b
    rw [Fin.lt_def] at hlt
    obtain ⟨fuel, rfl⟩ : ∃ k, fuel = k + 1 := Nat.exists_eq_succ_of_ne_zero (by rw [Fin.le_def] at hpr; omega)
    rw [pathUp_edge hparent hbody, hbit, List.append_assoc]
    exact ih hp (b :: path) hpr fuel (by omega)

/-- Every held slot has a code: that of its parent and one bit more. -/
theorem exists_codeOf {s : State} (h : HeldTree s) {i : Slot} (hi : i ≤ s.root) : ∃ c, CodeOf s i c := by
  cases hparent : (nodeAt s.nodes i).parent with
  | none => exact ⟨[], (h.top i hi).1 hparent ▸ .root⟩
  | some p =>
    obtain ⟨hpr, l, r, hbody, hlr⟩ := h.parent i p hi hparent
    obtain ⟨hl, hr, -⟩ := h.internal p l r hpr hbody
    have hip : i.val < p.val := by rcases hlr with rfl | rfl <;> assumption
    obtain ⟨c, hc⟩ := exists_codeOf h hpr
    rcases hlr with rfl | rfl
    · exact ⟨_, .left hc hbody⟩
    · exact ⟨_, .right hc hbody⟩
termination_by s.root.val - i.val
decreasing_by
  rw [Fin.le_def] at hpr
  omega

theorem pathOf_of_codeOf {s : State} (h : HeldTree s) {i : Slot} {c : List Bool} (hc : CodeOf s i c) :
    pathOf s i = some c := by
  have := s.root.isLt
  rw [pathOf, pathUp_of_codeOf h hc (by omega), List.append_nil]

/-- `PathOf` a held slot is its code, and only that (R153, R170). -/
theorem pathOf_eq_some_iff {s : State} (h : HeldTree s) {i : Slot} (hi : i ≤ s.root) (c : List Bool) :
    pathOf s i = some c ↔ CodeOf s i c := by
  refine ⟨fun hpath => ?_, pathOf_of_codeOf h⟩
  obtain ⟨d, hd⟩ := exists_codeOf h hi
  cases hpath.symm.trans (pathOf_of_codeOf h hd)
  exact hd

/-- A symbol's leaf is a held slot that holds the symbol. -/
theorem held_of_leafAt {s : State} (h : HeldTree s) {sym : Byte} {i : Slot} (hi : leafAt s.leafIdx sym = some i) :
    i ≤ s.root ∧ (nodeAt s.nodes i).body = .leaf sym := by
  have hf : freqAt s.freq sym ≠ 0 := fun hf => by rw [h.noLeaf sym hf] at hi; cases hi
  obtain ⟨j, hj, hheld⟩ := h.hasLeaf sym hf
  cases hi.symm.trans hj
  exact hheld

/-- Settles O31: a slot of a held tree has a code, and the walk up from the slot gives every code of it. -/
theorem pathIsTheCode : Obligations.PathIsTheCode := by
  refine fun s h => ⟨fun sym => ⟨fun hnone => ?_, h.noLeaf sym⟩, fun i hi => ?_⟩
  · by_contra hf
    obtain ⟨i, hi, -⟩ := h.hasLeaf sym hf
    cases hnone.symm.trans hi
  · obtain ⟨c, hc⟩ := exists_codeOf h hi
    have hpath := pathOf_of_codeOf h hc
    exact ⟨c, hpath, hc, fun d hd => Option.some_inj.1 ((pathOf_of_codeOf h hd).symm.trans hpath)⟩

/-! ## `CODELEN` (R171) -/

theorem withPath_unknown {s : State} {sym : Byte} (hv : s.treeValid = true) (hi : leafAt s.leafIdx sym = none)
    (body : List Bool → Out) : withPath sym s body = raiseError .unknownSymbol s := by
  simp only [withPath, assertOrRaise_of hv, hi]

theorem withPath_path {s : State} {sym : Byte} {i : Slot} {c : List Bool} (hv : s.treeValid = true)
    (hi : leafAt s.leafIdx sym = some i) (hc : pathOf s i = some c) (body : List Bool → Out) :
    withPath sym s body = body c := by
  simp only [withPath, assertOrRaise_of hv, hi, hc]

/-- A symbol of nonzero frequency has a leaf, and the leaf a code that the commands find. -/
theorem exists_leaf_code {s : State} (h : HeldTree s) {sym : Byte} (hf : freqAt s.freq sym ≠ 0) :
    ∃ i c, leafAt s.leafIdx sym = some i ∧ CodeOf s i c ∧ pathOf s i = some c := by
  obtain ⟨i, hi, hroot, -⟩ := h.hasLeaf sym hf
  obtain ⟨c, hc⟩ := exists_codeOf h hroot
  exact ⟨i, c, hi, hc, pathOf_of_codeOf h hc⟩

/-- Settles O34: the common front of the two commands finds no leaf, or the leaf's code. -/
theorem codelenReportsCodeLength : Obligations.CodelenReportsCodeLength := by
  refine ⟨fun w sym => decode_iff_ofNat w (.codelen sym), fun s sym => ⟨fails_noTree rfl, fun hv h =>
    ⟨fun hf => withPath_unknown hv (h.noLeaf sym hf) _, fun hf => ?_⟩⟩⟩
  obtain ⟨i, c, hi, hc, hpath⟩ := exists_leaf_code h hf
  exact ⟨i, c, hi, hc, withPath_path hv hi hpath _⟩

/-! ## `ENCODE` (R172) -/

/-- What `ENCODE` of a code writes (R172). -/
def encoded (c : List Bool) (s : State) : State := setResult (BitVec.ofNat 32 c.length) (emitBits c s)

theorem encoded_frame (c : List Bool) (s : State) :
    encoded c s = { s with result := BitVec.ofNat 32 c.length, obuf := (encoded c s).obuf, olen := (encoded c s).olen,
                           onbits := (encoded c s).onbits, oacc := (encoded c s).oacc } := by
  have hframe : SameButWriter s (emitBits c s) := emitBits_frame c s
  rw [encoded, hframe]
  rfl

/-- The bits of the code stand after the stream written so far (R172, R206). -/
theorem writerBits_encoded {c : List Bool} {s : State} (hc : s.cfg.wf = true) (hfit : bitsFit c.length s) :
    writerBits (encoded c s) = writerBits s ++ c := by
  have hsize := obufSize_le hc
  simp only [bitsFit, bytesFit] at hfit
  exact (emitBits_spec c s (by omega)).1

/-- Settles O35: the code found by the common front either does not fit, or its bits go to the writer. -/
theorem encodeWritesTheCode : Obligations.EncodeWritesTheCode := by
  refine ⟨fun w sym => decode_iff_ofNat w (.encode sym), fun s sym => ⟨fails_noTree rfl, fun hv h =>
    ⟨fun hf => withPath_unknown hv (h.noLeaf sym hf) _, fun hf hwf => ?_⟩⟩⟩
  obtain ⟨i, c, hi, hc, hpath⟩ := exists_leaf_code h hf
  have hexec : exec (.encode sym) s = assertOrRaise (bitsFit c.length s) .outFull s (complete (encoded c s)) :=
    withPath_path hv hi hpath _
  refine ⟨i, c, hi, hc, fun hfull => ?_, fun hfit =>
    ⟨encoded c s, ?_, encoded_frame c s, writerBits_encoded hwf hfit⟩⟩
  · exact hexec.trans (assertOrRaise_of_not (Nat.not_le.2 hfull) _ _ _)
  · exact hexec.trans (assertOrRaise_of hfit _ _ _)

end Sys2Proof.Proofs
end

section
/-! Proofs about `DECODE` (43_encode_decode.md R173, R174, R176): the walk down follows the input bits along a code, and
ends at a childless slot or where the input does. -/

namespace Sys2Proof.Proofs

open Sys2Proof.Machine Sys2Proof.Safety Sys2Proof.Laws

/-! ## The input as bits (R209) -/

theorem length_inputBits (s : State) (p n : Nat) : (inputBits s p n).length = n := by simp [inputBits]

theorem inputBits_add (s : State) (p m n : Nat) :
    inputBits s p (m + n) = inputBits s p m ++ inputBits s (p + m) n := by
  simp [inputBits, List.range_add, Nat.add_assoc]

theorem inputBits_one (s : State) (p : Nat) : inputBits s p 1 = [readBitAt s p] := rfl

/-- The input bits from number `p` on begin with `c`, within the input. -/
def InputSpells (s : State) (p : Nat) (c : List Bool) : Prop :=
  p + c.length ≤ 8 * s.ilen.toNat ∧ inputBits s p c.length = c

theorem inputSpells_append {s : State} {p : Nat} {c d : List Bool} :
    InputSpells s p (c ++ d) ↔ InputSpells s p c ∧ InputSpells s (p + c.length) d := by
  unfold InputSpells
  rw [List.length_append, inputBits_add, ← Nat.add_assoc]
  constructor
  · rintro ⟨hle, hbits⟩
    obtain ⟨hc, hd⟩ := List.append_inj hbits (length_inputBits s p _)
    exact ⟨⟨by omega, hc⟩, hle, hd⟩
  · rintro ⟨⟨-, hc⟩, hle, hd⟩
    exact ⟨hle, by rw [hc, hd]⟩

theorem inputSpells_nil {s : State} {p : Nat} (h : p ≤ 8 * s.ilen.toNat) : InputSpells s p [] := ⟨h, rfl⟩

/-- One more bit, while the input has one. -/
theorem inputSpells_bit {s : State} {p : Nat} (h : p < 8 * s.ilen.toNat) : InputSpells s p [readBitAt s p] :=
  ⟨h, inputBits_one s p⟩

theorem readBitAt_of_inputSpells {s : State} {p : Nat} {b : Bool} (h : InputSpells s p [b]) : readBitAt s p = b :=
  List.singleton_inj.1 h.2

/-! ## The walk along a code (R173) -/

/-- A walk down through the code in the input goes on from the slot of the code, the code's bits used. -/
theorem walkDown_of_codeOf {s : State} {i : Slot} {c : List Bool} {p : Nat} (hc : CodeOf s i c)
    (h : InputSpells s p c) (rem : Nat) :
    walkDown s (c.length + rem) p s.root = walkDown s rem (p + c.length) i := by
  induction c using List.reverseRecOn generalizing i rem with
  | nil => rw [codeOf_nil hc, List.length_nil, Nat.zero_add, Nat.add_zero]
  | append_singleton c b ih =>
    obtain ⟨q, l, r, hq, hbody, rfl⟩ := codeOf_append_singleton hc
    obtain ⟨hinit, hlast⟩ := inputSpells_append.1 h
    rw [List.length_append, List.length_singleton, Nat.add_assoc, Nat.add_comm 1 rem, ih hq hinit, walkDown_edge hbody,
      readBitAt_of_inputSpells hlast, Nat.add_assoc]

section Ends

variable {s : State} {i : Slot} {c : List Bool}

/-- The walk of `DECODE` when the input begins with a code. -/
theorem walkDown_decode (hc : CodeOf s i c) (h : InputSpells s s.ipos.toNat c) :
    walkDown s (8 * s.ilen.toNat - s.ipos.toNat) s.ipos.toNat s.root =
      walkDown s (8 * s.ilen.toNat - (s.ipos.toNat + c.length)) (s.ipos.toNat + c.length) i := by
  have hle := h.1
  rw [← walkDown_of_codeOf hc h]
  congr 1
  omega

/-- What `DECODE` of a code writes (R173). -/
def decoded (sym : Byte) (c : List Bool) (s : State) : State :=
  { s with result := sym.setWidth 32, ipos := BitVec.ofNat 32 (s.ipos.toNat + c.length) }

theorem succeeds_decode {sym : Byte} (hv : s.treeValid = true) (hc : CodeOf s i c)
    (h : InputSpells s s.ipos.toNat c) (hbody : (nodeAt s.nodes i).body = .leaf sym) :
    Succeeds .decode s (decoded sym c s) := by
  have hwalk := (walkDown_decode hc h).trans (walkDown_leaf hbody _ _)
  simp only [Succeeds, exec, execDecode, assertOrRaise_of hv, hwalk, hbody]
  rfl

theorem fails_decode_dummy (hv : s.treeValid = true) (hc : CodeOf s i c) (h : InputSpells s s.ipos.toNat c)
    (hbody : (nodeAt s.nodes i).body = .dummy) : Fails .decode s .invalidCode := by
  have hwalk := (walkDown_decode hc h).trans (walkDown_dummy hbody _ _)
  simp only [Fails, exec, execDecode, assertOrRaise_of hv, hwalk, hbody, raiseError_eq]

theorem fails_decode_truncated {l r : Slot} (hv : s.treeValid = true) (hc : CodeOf s i c)
    (h : InputSpells s s.ipos.toNat c) (hbody : (nodeAt s.nodes i).body = .internal l r)
    (hend : s.ipos.toNat + c.length = 8 * s.ilen.toNat) : Fails .decode s .truncated := by
  have hwalk := walkDown_decode hc h
  rw [hend, Nat.sub_self, walkDown_end hbody] at hwalk
  simp only [Fails, exec, execDecode, assertOrRaise_of hv, hwalk, raiseError_eq]

end Ends

/-- Settles O36: the walk follows the code, and ends as the kind of the code's slot says. -/
theorem decodeReadsOneCode : Obligations.DecodeReadsOneCode :=
  ⟨fun w => decode_iff_ofNat w .decode, fun _ => ⟨fails_noTree rfl, fun hv _ _ _ hc hle hbits =>
    ⟨fun _ => succeeds_decode hv hc ⟨hle, hbits⟩, fails_decode_dummy hv hc ⟨hle, hbits⟩,
      fun _ _ => fails_decode_truncated hv hc ⟨hle, hbits⟩⟩⟩⟩

/-! ## Where the walk ends (R174, R176) -/

theorem codeOf_child {s : State} {p l r : Slot} {c : List Bool} (hc : CodeOf s p c)
    (hbody : (nodeAt s.nodes p).body = .internal l r) (b : Bool) : CodeOf s (if b then r else l) (c ++ [b]) := by
  cases b with
  | false => exact .left hc hbody
  | true => exact .right hc hbody

/-- Code by code, the input leads to a childless slot, or ends at an internal one. -/
theorem exists_codeOf_inputEnd {s : State} {p : Nat} {j : Slot} {c : List Bool} (hc : CodeOf s j c)
    (h : InputSpells s p c) : ∃ i d, CodeOf s i d ∧ InputSpells s p d ∧
      ((∀ l r, (nodeAt s.nodes i).body ≠ .internal l r) ∨ p + d.length = 8 * s.ilen.toNat) := by
  by_cases hend : p + c.length = 8 * s.ilen.toNat
  · exact ⟨j, c, hc, h, .inr hend⟩
  · cases hbody : (nodeAt s.nodes j).body with
    | leaf sym => exact ⟨j, c, hc, h, .inl (by simp [hbody])⟩
    | dummy => exact ⟨j, c, hc, h, .inl (by simp [hbody])⟩
    | internal l r =>
      have hlt : p + c.length < 8 * s.ilen.toNat := Nat.lt_of_le_of_ne h.1 hend
      exact exists_codeOf_inputEnd (codeOf_child hc hbody _) (inputSpells_append.2 ⟨h, inputSpells_bit hlt⟩)
termination_by 8 * s.ilen.toNat - (p + c.length)
decreasing_by
  rw [List.length_append, List.length_singleton]
  omega

/-- Settles O37: the slot at which the walk from the root ends, by its kind. -/
theorem decodeEndsInOneOfItsWays : Obligations.DecodeEndsInOneOfItsWays := by
  intro s hv hst h
  obtain ⟨i, c, hc, hspells, hend⟩ := exists_codeOf_inputEnd .root (inputSpells_nil hst.ipos)
  refine ⟨i, c, hc, hspells.1, hspells.2, ?_⟩
  cases hbody : (nodeAt s.nodes i).body with
  | leaf sym => exact .inl ⟨sym, rfl, succeeds_decode hv hc hspells hbody⟩
  | internal l r =>
    have hend := hend.resolve_left fun hne => hne l r hbody
    exact .inr (.inl ⟨l, r, rfl, hend, fails_decode_truncated hv hc hspells hbody hend⟩)
  | dummy =>
    obtain ⟨-, hmode, hone⟩ := h.dummy i (codeOf_le_root h hc) hbody
    exact .inr (.inr ⟨rfl, hmode, hone, fails_decode_dummy hv hc hspells hbody⟩)

end Sys2Proof.Proofs
end

section
/-! Proof that decoding undoes encoding (43_encode_decode.md R175, 42_tree_build.md R152, R154, 44_bitstream.md R212):
the run of `ENCODE`s and the `FLUSH` write the codes of a sequence, and `DECODE`s read them back from the same bytes. -/

namespace Sys2Proof.Proofs

open Sys2Proof.Machine Sys2Proof.Safety Sys2Proof.Laws

/-! ## The codes of a sequence -/

/-- `bits` are the codes of the leaves of the symbols of a sequence, one after another. -/
inductive Encodes (s : State) : List Byte → List Bool → Prop where
  | nil : Encodes s [] []
  | cons {sym : Byte} {text : List Byte} {i : Slot} {c bits : List Bool} (hc : CodeOf s i c)
      (hleaf : (nodeAt s.nodes i).body = .leaf sym) (h : Encodes s text bits) : Encodes s (sym :: text) (c ++ bits)

/-- Held trees with the same root and the same kinds and children up to it encode alike. -/
theorem Encodes.congr {s t : State} {text : List Byte} {bits : List Bool} (h : Encodes s text bits) (hs : HeldTree s)
    (hroot : t.root = s.root) (hbody : ∀ i, i ≤ s.root → (nodeAt t.nodes i).body = (nodeAt s.nodes i).body) :
    Encodes t text bits := by
  induction h with
  | nil => exact .nil
  | cons hc hleaf h ih =>
    exact .cons (codeOf_congr hs hroot hbody hc) ((hbody _ (codeOf_le_root hs hc)).trans hleaf) ih

/-! ## The encoding run (R172, R207) -/

/-- A run that succeeds begins with a command that succeeds. -/
theorem runAll_cons_eq_some {i : Instr} {is : List Instr} {s t : State} (h : runAll (i :: is) s = some t) :
    ∃ u, Effect i s u ∧ runAll is (ended .ok u) = some t := by
  rw [runAll] at h
  split at h
  · next v hv =>
    split at h
    · next hok =>
      rcases exec_cases hv with ⟨e, he, rfl⟩ | ⟨u, hu, rfl⟩
      · exact absurd hok he
      · exact ⟨u, hu, h⟩
    · cases h
  · cases h
  · cases h

/-- `OLEN` stays within the output buffer along a run (R35, R47). -/
theorem runAll_olen_le {is : List Instr} {s t : State} (h : runAll is s = some t) (hc : s.cfg.wf = true)
    (ho : s.olen.toNat ≤ s.cfg.obufSize) : t.olen.toNat ≤ s.cfg.obufSize := by
  induction is generalizing s with
  | nil => cases h; exact ho
  | cons i is ih =>
    obtain ⟨u, hu, hrest⟩ := runAll_cons_eq_some h
    have hcfg : (ended .ok u).cfg = s.cfg := (effect_cfg hu :)
    have holen : u.olen.toNat ≤ s.cfg.obufSize := by
      rcases (effect_stores hu).olen (obufSize_le hc) with he | he
      · rw [he]; exact (effect_stores hu).fits ho
      · rw [he]; exact Nat.zero_le _
    rw [← hcfg] at hc holen ⊢
    exact ih hrest hc holen

/-- What `ENCODE` has written when it succeeds. -/
theorem effect_encode {sym : Byte} {s u : State} (h : Effect (.encode sym) s u) (hs : HeldTree s) :
    ∃ i c, CodeOf s i c ∧ (nodeAt s.nodes i).body = .leaf sym ∧ bitsFit c.length s ∧ u = encoded c s := by
  obtain ⟨-, i, c, hi, hpath, hfit, hu⟩ := h
  obtain ⟨hroot, hleaf⟩ := held_of_leafAt hs hi
  exact ⟨i, c, (pathOf_eq_some_iff hs hroot c).1 hpath, hleaf, hfit, hu⟩

/-- After `FLUSH` the completed bytes hold the whole stream, and then padding (R207). -/
theorem writerBits_prefix_flush {s u : State} (h : Effect .flush s u) (hc : s.cfg.wf = true) :
    writerBits s <+: (outBytes u).flatMap (byteBits s.cfg.bitOrder) := by
  have hsize := obufSize_le hc
  rcases h with ⟨hempty, rfl⟩ | ⟨-, hfit, rfl⟩
  · simp [writerBits, hempty]
  · simp only [bytesFit] at hfit
    have hbytes : outBytes (clearPartial (emitByte s.oacc s)) = outBytes s ++ [s.oacc] :=
      outBytes_emitByte s.oacc s (by omega)
    have hpartial : List.range s.onbits.toNat <+: List.range 8 :=
      ⟨_, by rw [← List.range_add, Nat.add_sub_of_le s.onbits.isLt.le]⟩
    rw [hbytes, List.flatMap_append, List.flatMap_singleton, writerBits, List.prefix_append_right_inj]
    exact hpartial.map _

/-- A run of `ENCODE`s and a `FLUSH` leaves the stream before it and the codes of its sequence in the completed
bytes. -/
theorem encodes_of_runAll {text : List Byte} {s t : State} (h : runAll (text.map .encode ++ [.flush]) s = some t)
    (hs : HeldTree s) (hc : s.cfg.wf = true) : ∃ bits, Encodes s text bits ∧
      writerBits s ++ bits <+: (outBytes t).flatMap (byteBits s.cfg.bitOrder) := by
  induction text generalizing s with
  | nil =>
    obtain ⟨u, hu, hrest⟩ := runAll_cons_eq_some h
    cases hrest
    exact ⟨[], .nil, by rw [List.append_nil]; exact (writerBits_prefix_flush hu hc :)⟩
  | cons sym text ih =>
    obtain ⟨u, hu, hrest⟩ := runAll_cons_eq_some h
    obtain ⟨i, c, hcode, hleaf, hfit, he⟩ := effect_encode hu hs
    have htree := effect_sameTree hu nofun rfl
    have hheld : HeldTree (ended .ok u) :=
      heldTree_congr hs htree.freq htree.nodes htree.root htree.nleaf htree.leafIdx (congrArg _ htree.cfg)
    obtain ⟨bits, hbits, hprefix⟩ := ih hrest hheld ((congrArg Config.wf htree.cfg).trans hc)
    have hstream : writerBits (ended .ok u) = writerBits s ++ c := he ▸ writerBits_encoded hc hfit
    have horder : (ended .ok u).cfg.bitOrder = s.cfg.bitOrder := congrArg _ htree.cfg
    rw [hstream, horder, List.append_assoc] at hprefix
    refine ⟨c ++ bits, .cons hcode hleaf (hbits.congr hheld htree.root.symm fun i _ => ?_), hprefix⟩
    exact congrArg (fun ar => (nodeAt ar i).body) htree.nodes.symm

theorem writerBits_empty {s : State} (ho : s.olen = 0) (hb : s.onbits = 0) : writerBits s = [] := by
  simp [writerBits, outBytes, ho, hb]

/-! ## The decoding run (R173, R209) -/

/-- Eight input bits are those of a byte (R209). -/
theorem inputBits_byte (s : State) (k : Nat) : inputBits s (8 * k) 8 = byteBits s.cfg.bitOrder (inByte s k) := by
  refine List.map_congr_left fun j hj => ?_
  have hj := List.mem_range.1 hj
  rw [readBitAt, show (8 * k + j) / 8 = k by omega, show (8 * k + j) % 8 = j by omega]

/-- The bits of the first input bytes (R209). -/
theorem inputBits_bytes (s : State) (n : Nat) :
    inputBits s 0 (8 * n) = ((List.range n).map (inByte s)).flatMap (byteBits s.cfg.bitOrder) := by
  induction n with
  | zero => rfl
  | succ n ih =>
    rw [Nat.mul_succ, inputBits_add, ih, Nat.zero_add, inputBits_byte, List.range_succ, List.map_append,
      List.flatMap_append, List.map_singleton, List.flatMap_singleton]

/-- Bits with which the whole input begins are spelt by it. -/
theorem inputSpells_of_prefix {s : State} {bits : List Bool} (h : bits <+: inputBits s 0 (8 * s.ilen.toNat)) :
    InputSpells s 0 bits := by
  have hle := h.length_le
  rw [length_inputBits] at hle
  refine ⟨by omega, ?_⟩
  obtain ⟨k, hk⟩ := Nat.exists_eq_add_of_le hle
  rw [hk, inputBits_add] at h
  exact ((List.prefix_of_prefix_length_le h (List.prefix_append _ _) (by rw [length_inputBits])).eq_of_length
    (length_inputBits s 0 _).symm).symm

theorem decodeAll_succ {s t : State} (h : Succeeds .decode s t) (n : Nat) :
    decodeAll (n + 1) s = (decodeAll n (ended .ok t)).map (t.result :: ·) := by
  rw [decodeAll, h]
  exact if_pos rfl

/-- `DECODE`s of an input that begins with the codes of a sequence return the sequence (R174). -/
theorem decodeAll_of_encodes {text : List Byte} {s : State} {bits : List Bool} (h : Encodes s text bits)
    (hs : HeldTree s) (hv : s.treeValid = true) (hlen : 8 * s.ilen.toNat < 2 ^ 32)
    (hin : InputSpells s s.ipos.toNat bits) :
    decodeAll text.length s = some (text.map (fun sym => sym.setWidth 32)) := by
  induction text generalizing s bits with
  | nil => rfl
  | cons sym text ih =>
    cases h with
    | @cons _ _ i c bits hc hleaf h =>
      obtain ⟨hcode, hrest⟩ := inputSpells_append.1 hin
      have hheld : HeldTree (ended .ok (decoded sym c s)) := heldTree_congr hs rfl rfl rfl rfl rfl rfl
      have hpos : (ended .ok (decoded sym c s)).ipos.toNat = s.ipos.toNat + c.length := by
        have := hcode.1
        exact Nat.mod_eq_of_lt (by omega)
      have hall := ih (h.congr (t := ended .ok (decoded sym c s)) hs rfl fun _ _ => rfl) hheld hv hlen (hpos ▸ hrest)
      rw [List.length_cons, decodeAll_succ (succeeds_decode hv hc hcode hleaf), hall]
      rfl

/-! ## The round trip (R175) -/

/-- Settles O38: the completed bytes begin with the codes of the sequence, and a `BUILD` from the same table gives the
same codes, so that the `DECODE`s find them one after another. -/
theorem encodeThenDecodeRoundTrip : Obligations.EncodeThenDecodeRoundTrip := by
  intro text s0 s t u0 u hwf holen honbits hbuild hok hrun hcfg hfreq hipos hilen hbytes hbuild'
  rcases exec_cases hbuild with ⟨e, he, rfl⟩ | ⟨_, ⟨h1, hrej, rfl⟩, rfl⟩
  · exact absurd hok he
  have h1' : 1 ≤ (alphabet u0.freq).length := hfreq ▸ h1
  cases hbuild'.symm.trans (exec_build h1' (hfreq ▸ hcfg ▸ hrej))
  obtain ⟨hroot, hagree⟩ := buildTree_agree h1 hfreq.symm (congrArg _ hcfg.symm) (congrArg _ hcfg.symm)
  have hheld := heldTree_ended_buildTree h1
  obtain ⟨bits, hbits, hprefix⟩ := encodes_of_runAll hrun hheld hwf
  have hsame : Encodes (ended .ok (buildTree u0)) text bits := hbits.congr hheld hroot.symm fun i hi =>
    congrArg Node.body (hagree i (Nat.lt_succ_of_le hi)).symm
  have hsize : u0.ilen.toNat ≤ s0.cfg.obufSize := by
    have hstart : s0.olen.toNat ≤ s0.cfg.obufSize := by rw [holen]; exact Nat.zero_le _
    exact hilen ▸ runAll_olen_le (s := ended .ok (buildTree s0)) hrun hwf hstart
  have hin : inputBits u0 0 (8 * u0.ilen.toNat) = (outBytes t).flatMap (byteBits s0.cfg.bitOrder) := by
    rw [inputBits_bytes, hcfg, hilen, outBytes]
    exact congrArg _ (List.map_congr_left fun k hk => hbytes k (List.mem_range.1 hk))
  have hspells : InputSpells u0 0 bits := by
    apply inputSpells_of_prefix
    rw [hin]
    rwa [writerBits_empty (s := ended .ok (buildTree s0)) holen honbits] at hprefix
  refine decodeAll_of_encodes hsame (heldTree_ended_buildTree h1') rfl ?_ ?_
  · have := obufSize_le hwf
    show 8 * u0.ilen.toNat < 2 ^ 32
    omega
  · rw [show (ended .ok (buildTree u0)).ipos = 0 from hipos]
    exact hspells

end Sys2Proof.Proofs
end

section
/-! Proofs about the bit writer's commands (44_bitstream.md R200 to R208): `PUTBIT`, `PUTBYTE`, `PUTINT`, `FLUSH` and
`OCLR`, each by its checks in order and by what it adds to the stream. -/

namespace Sys2Proof.Proofs

open Sys2Proof.Machine Sys2Proof.Safety Sys2Proof.Laws

/-- Adding in a register and storing a sum of numbers in it are the same (log 13). -/
theorem ofNat_toNat_add (v : Word) (n : Nat) : BitVec.ofNat 32 (v.toNat + n) = v + BitVec.ofNat 32 n := by
  rw [BitVec.ofNat_add, BitVec.ofNat_toNat, BitVec.setWidth_eq]

/-! ## `PUTBIT` (R203) -/

theorem exec_putbit {s : State} (ha : s.arg.toNat ≤ 1) : exec .putbit s =
    assertOrRaise (bitsFit 1 s) .outFull s (complete (emitBit (s.arg.getLsbD 0) s)) := by
  simp only [exec, execPutbit, bitOperand, if_pos ha]

theorem fails_putbit_badArg {s : State} (ha : 1 < s.arg.toNat) : Fails .putbit s .badArg := by
  simp only [Fails, exec, execPutbit, bitOperand, if_neg (Nat.not_le_of_lt ha), raiseError_eq]

/-- The bit operand is 1 exactly when `ARG` is. -/
theorem getLsbD_zero_arg {v : Word} (h : v.toNat ≤ 1) : v.getLsbD 0 = (v == 1) := by
  obtain rfl | rfl : v = 0 ∨ v = 1 := by
    rcases Nat.le_one_iff_eq_zero_or_eq_one.1 h with h | h
    · exact .inl (BitVec.eq_of_toNat_eq h)
    · exact .inr (BitVec.eq_of_toNat_eq h)
  all_goals rfl

/-- Settles O39: the operand is checked, then the room, and `EmitBit` adds one bit to the stream. -/
theorem putbitAppendsOneBit : Obligations.PutbitAppendsOneBit := by
  refine ⟨fun w => decode_iff_ofNat w .putbit, fun s => ⟨fails_putbit_badArg, fun ha hc => ⟨fun hfull => ?_,
    fun hfit => ⟨emitBit (s.arg.getLsbD 0) s, ?_, emitBit_frame _ s, ?_⟩⟩⟩⟩
  · exact (exec_putbit ha).trans (assertOrRaise_of_not (Nat.not_le_of_lt hfull) _ _ _)
  · exact (exec_putbit ha).trans (assertOrRaise_of hfit _ _ _)
  · have := obufSize_le hc
    rw [writerBits_emitBit _ s (by omega), getLsbD_zero_arg ha]

/-! ## Whole bytes (R202, R204, R205) -/

theorem emitBytes_olen_eq (bs : List Byte) (s : State) :
    (emitBytes bs s).olen = s.olen + BitVec.ofNat 32 bs.length := by
  induction bs generalizing s with
  | nil => exact (BitVec.add_zero s.olen).symm
  | cons b bs ih =>
    rw [emitBytes_cons, ih, emitByte_olen, ofNat_toNat_add, BitVec.add_assoc, ← BitVec.ofNat_add, List.length_cons,
      Nat.add_comm]

/-- What `EmitBytes` writes: bytes into the output buffer, and their number into `OLEN`. -/
theorem emitBytes_eq (bs : List Byte) (s : State) : emitBytes bs s =
    { s with obuf := (emitBytes bs s).obuf, olen := s.olen + BitVec.ofNat 32 bs.length } := by
  rw [← emitBytes_olen_eq, ← emitBytes_frame]

theorem exec_putbyte {s : State} (ha : s.arg.toNat ≤ 0xFF) : exec .putbyte s =
    assertOrRaise (writerAligned s) .unaligned s
      (assertOrRaise (bytesFit 1 s) .outFull s (complete (emitBytes [s.arg.extractLsb' 0 8] s))) := by
  simp only [exec, execPutbyte, byteOperand, if_pos ha]
  rfl

theorem fails_putbyte_badArg {s : State} (ha : 0xFF < s.arg.toNat) : Fails .putbyte s .badArg := by
  simp only [Fails, exec, execPutbyte, byteOperand, if_neg (Nat.not_le_of_lt ha), raiseError_eq]

/-- Settles O40: the three checks in order, and `EmitByte` adds one byte. -/
theorem putbyteAppendsOneByte : Obligations.PutbyteAppendsOneByte := by
  refine ⟨fun w => decode_iff_ofNat w .putbyte, fun s => ⟨fails_putbyte_badArg, fun ha hbits => ?_,
    fun ha hbits hfull => ?_, fun ha hbits hfit hc =>
      ⟨emitBytes [s.arg.extractLsb' 0 8] s, ?_, emitBytes_eq _ s, ?_⟩⟩⟩
  · exact (exec_putbyte ha).trans (assertOrRaise_of_not hbits _ _ _)
  · exact (exec_putbyte ha).trans ((assertOrRaise_of hbits _ _ _).trans
      (assertOrRaise_of_not (Nat.not_le_of_lt hfull) _ _ _))
  · exact (exec_putbyte ha).trans ((assertOrRaise_of hbits _ _ _).trans (assertOrRaise_of hfit _ _ _))
  · have := obufSize_le hc
    have hlane : s.arg.extractLsb' 0 8 = laneOf s.arg 0 := rfl
    rw [outBytes_emitBytes _ s (by rw [List.length_singleton]; omega), hlane, ← ofNat_div_eq_laneOf, Nat.mul_zero,
      Nat.pow_zero, Nat.div_one]

/-- The little-endian bytes of an integer are its lanes in order (R65, R66). -/
theorem intToBytes_le_lanes (v : Word) : intToBytes .le v = [laneOf v 0, laneOf v 1, laneOf v 2, laneOf v 3] := rfl

theorem intToBytes_le (v : Word) : intToBytes .le v =
    [BitVec.ofNat 8 v.toNat, BitVec.ofNat 8 (v.toNat / 2 ^ 8), BitVec.ofNat 8 (v.toNat / 2 ^ 16),
      BitVec.ofNat 8 (v.toNat / 2 ^ 24)] := by
  rw [intToBytes_le_lanes]
  simp only [← ofNat_div_eq_laneOf, Nat.mul_zero, Nat.pow_zero, Nat.div_one, Nat.reduceMul]

/-- The big-endian bytes of an integer are the little-endian ones in reverse (R66). -/
theorem intToBytes_be (v : Word) : intToBytes .be v = (intToBytes .le v).reverse := rfl

/-- Settles O41: the two checks in order, and `EmitBytes` adds the four bytes of `IntToBytes`. -/
theorem putintAppendsFourBytes : Obligations.PutintAppendsFourBytes := by
  refine ⟨fun w => decode_iff_ofNat w .putint, fun s => ⟨fun hbits => ?_, fun hbits hfull => ?_,
    fun hbits hfit hc => ⟨emitBytes (intToBytes s.cfg.intOrder s.arg) s, ?_, ?_, ?_⟩⟩⟩
  · exact assertOrRaise_of_not hbits _ _ _
  · exact (assertOrRaise_of hbits _ _ _).trans (assertOrRaise_of_not (Nat.not_le_of_lt hfull) _ _ _)
  · exact (assertOrRaise_of hbits _ _ _).trans (assertOrRaise_of hfit _ _ _)
  · exact (emitBytes_eq _ s).trans (by rw [length_intToBytes]; rfl)
  · have := obufSize_le hc
    rw [outBytes_emitBytes _ s (by rw [length_intToBytes]; omega)]
    cases s.cfg.intOrder with
    | le => rw [intToBytes_le]
    | be => rw [intToBytes_be, intToBytes_le]; rfl

/-! ## `FLUSH` (R207) -/

theorem exec_flush_aligned {s : State} (h : s.onbits = 0) : exec .flush s = complete s := if_pos h

theorem exec_flush_partial {s : State} (h : s.onbits ≠ 0) : exec .flush s =
    assertOrRaise (bytesFit 1 s) .outFull s (complete (clearPartial (emitByte s.oacc s))) := if_neg h

/-- The bits of the partial byte, its unwritten positions 0, are those written and zeros (R200). -/
theorem byteBits_oacc {s : State} (h : PartialClean s) : byteBits s.cfg.bitOrder s.oacc =
    (List.range s.onbits.toNat).map (fun k => s.oacc.getLsbD (bitPos s.cfg.bitOrder k)) ++
      List.replicate (8 - s.onbits.toNat) false := by
  have hrange : List.range 8 =
      List.range s.onbits.toNat ++ (List.range (8 - s.onbits.toNat)).map (s.onbits.toNat + ·) := by
    rw [← List.range_add, Nat.add_sub_of_le s.onbits.isLt.le]
  rw [byteBits, hrange, List.map_append, List.map_map]
  congr 1
  rw [List.eq_replicate_iff]
  refine ⟨by simp, fun b hb => ?_⟩
  obtain ⟨j, hj, rfl⟩ := List.mem_map.1 hb
  have := List.mem_range.1 hj
  exact h (s.onbits.toNat + j) (by omega) (by omega)

/-- Settles O42: an empty partial byte leaves nothing to do; otherwise the byte stored is the partial one, whose
unwritten positions are 0. -/
theorem flushPadsPartialByte : Obligations.FlushPadsPartialByte := by
  refine ⟨fun w => decode_iff_ofNat w .flush, fun s => ⟨exec_flush_aligned, fun hbits hfull => ?_,
    fun hbits hfit hc => ?_⟩⟩
  · exact (exec_flush_partial hbits).trans (assertOrRaise_of_not (Nat.not_le_of_lt (Nat.lt_succ_of_le hfull)) _ _ _)
  · have := obufSize_le hc
    have hbytes : outBytes (clearPartial (emitByte s.oacc s)) = outBytes s ++ [s.oacc] :=
      outBytes_emitByte s.oacc s (by omega)
    refine ⟨clearPartial (emitByte s.oacc s), ?_, ?_, hbytes, fun hs => ?_⟩
    · exact (exec_flush_partial hbits).trans (assertOrRaise_of hfit _ _ _)
    · rw [show s.olen + 1 = BitVec.ofNat 32 (s.olen.toNat + 1) from (ofNat_toNat_add s.olen 1).symm]
      rfl
    · calc writerBits (clearPartial (emitByte s.oacc s))
        _ = (outBytes s).flatMap (byteBits s.cfg.bitOrder) ++ byteBits s.cfg.bitOrder s.oacc := by
          simp [writerBits, hbytes]
        _ = writerBits s ++ List.replicate (8 - s.onbits.toNat) false := by
          rw [byteBits_oacc hs.oacc, ← List.append_assoc]
          rfl

/-! ## `OCLR` (R208) -/

/-- Settles O43: the body writes `OLEN` alone, and no index is below an `OLEN` of 0. -/
theorem oclrKeepsPartialByte : Obligations.OclrKeepsPartialByte :=
  ⟨fun w => decode_iff_ofNat w .oclr, fun _ =>
    ⟨rfl, fun k _ hk => (if_neg (Nat.not_lt_zero k)).trans (if_pos hk)⟩⟩

end Sys2Proof.Proofs
end

section
/-! Proofs about the bit reader's commands (44_bitstream.md R209 to R215): `GETBIT`, `GETBYTE`, `GETINT` and `IREWIND`,
each by its checks in order, the value read and the position after it. -/

namespace Sys2Proof.Proofs

open Sys2Proof.Machine Sys2Proof.Safety Sys2Proof.Laws

/-- `IPOS` moved on by a number of bits (R34, log 13). -/
theorem setIpos_add (n : Nat) (s : State) :
    setIpos (s.ipos.toNat + n) s = { s with ipos := s.ipos + BitVec.ofNat 32 n } := by
  rw [setIpos, ofNat_toNat_add]

/-! ## `GETBIT` (R210) -/

theorem setWidth_bit (b : Bool) : (bit b).setWidth 32 = if b then 1 else 0 := by cases b <;> rfl

/-- Settles O44: the one check, and the bit at the position of `BitPos`. -/
theorem getbitReadsOneBit : Obligations.GetbitReadsOneBit := by
  refine ⟨fun w => decode_iff_ofNat w .getbit, fun s => ⟨fun hend => ?_, fun hp => ?_⟩⟩
  · exact assertOrRaise_of_not (Nat.not_lt_of_le hend) _ _ _
  · refine (assertOrRaise_of hp _ _ _).trans ?_
    rw [setIpos_add, setWidth_bit]
    rfl

/-! ## `GETBYTE` (R213) -/

/-- Settles O45: the two checks in order, and the byte as stored. -/
theorem getbyteReadsOneByte : Obligations.GetbyteReadsOneByte := by
  refine ⟨fun w => decode_iff_ofNat w .getbyte, fun s => ⟨fun ha => ?_, fun ha hend => ?_, fun ha hr => ?_⟩⟩
  · exact assertOrRaise_of_not ha _ _ _
  · exact (assertOrRaise_of ha _ _ _).trans (assertOrRaise_of_not (Nat.not_le_of_lt hend) _ _ _)
  · refine (assertOrRaise_of ha _ _ _).trans ((assertOrRaise_of hr _ _ _).trans ?_)
    rw [setIpos_add]
    rfl

/-! ## `GETINT` (R214) -/

/-- Settles O46: the two checks in order, the integer of the four bytes, and that `BytesToInt` undoes `IntToBytes`. -/
theorem getintReadsOneInteger : Obligations.GetintReadsOneInteger := by
  refine ⟨fun w => decode_iff_ofNat w .getint, fun s => ⟨fun ha => ?_, fun ha hend => ?_,
    fun ha hr => ⟨readIntAt s (inIndex s), ?_, ?_⟩, bytesToInt_intToBytes _ _⟩⟩
  · exact assertOrRaise_of_not ha _ _ _
  · exact (assertOrRaise_of ha _ _ _).trans (assertOrRaise_of_not (Nat.not_le_of_lt hend) _ _ _)
  · refine (assertOrRaise_of ha _ _ _).trans ((assertOrRaise_of hr _ _ _).trans ?_)
    rw [setIpos_add]
    rfl
  · unfold readIntAt
    cases s.cfg.intOrder with
    | le =>
      refine (toNat_wordOfBytes _ _ _ _).trans ?_
      simp only [readByteAt, inIndex]
      omega
    | be => exact toNat_wordOfBytes _ _ _ _

/-! ## `IREWIND` (R215) -/

/-- A host write of 0 is never beyond the input (R34). -/
theorem writeIpos_zero (s : State) : writeIpos 0 s = { s with ipos := 0 } := if_pos (Nat.zero_le _)

/-- Settles O47: the body writes `IPOS` alone, and 0 is within any input, so the host's write is not ignored. -/
theorem irewindClearsIpos : Obligations.IrewindClearsIpos := by
  refine ⟨fun w => decode_iff_ofNat w .irewind, fun s => ⟨rfl, fun hb => ?_⟩⟩
  rw [hostOp_write_register (a := 0x018) 0 hb (by decide) (by decide)]
  exact congrArg _ (writeIpos_zero s)

end Sys2Proof.Proofs
end

section
/-! Proof that input bytes at or above `ILEN` never affect a command (44_bitstream.md R211): a body reads the input
buffer only below `ILEN`, and its writes are the same whatever the buffer's other bytes hold. -/

namespace Sys2Proof.Proofs

open Sys2Proof.Machine Sys2Proof.Safety Sys2Proof.Laws

/-! ## Another input buffer -/

/-- State `s` with another input buffer and other free contents for its unwritten bytes. -/
def withInput (m : Memory) (g : Nat) (s : State) : State := { s with ibuf := m, gen := g }

@[simp] theorem withInput_ilen (m : Memory) (g : Nat) (s : State) : (withInput m g s).ilen = s.ilen := rfl
@[simp] theorem withInput_ipos (m : Memory) (g : Nat) (s : State) : (withInput m g s).ipos = s.ipos := rfl
@[simp] theorem withInput_nodes (m : Memory) (g : Nat) (s : State) : (withInput m g s).nodes = s.nodes := rfl
@[simp] theorem withInput_root (m : Memory) (g : Nat) (s : State) : (withInput m g s).root = s.root := rfl
@[simp] theorem withInput_leafIdx (m : Memory) (g : Nat) (s : State) : (withInput m g s).leafIdx = s.leafIdx := rfl
@[simp] theorem pathOf_withInput (m : Memory) (g : Nat) (s : State) (i : Slot) :
    pathOf (withInput m g s) i = pathOf s i := rfl

/-- What a command does, its next state changed by `f`. -/
def mapNext (f : State → State) : Out → Out
  | .next t => .next (f t)
  | .fault e => .fault e
  | .refused r => .refused r

section Commutes

variable (m : Memory) (g : Nat)

/-- A check that does not look at the input buffer, before bodies that agree once it has passed. -/
theorem assertOrRaise_withInput {c : Prop} [Decidable c] {e : ErrCode} {s : State} {body body' : Out}
    (h : c → body' = mapNext (withInput m g) body) :
    assertOrRaise c e (withInput m g s) body' = mapNext (withInput m g) (assertOrRaise c e s body) := by
  by_cases hc : c
  · rw [assertOrRaise_of hc, assertOrRaise_of hc, h hc]
  · rw [assertOrRaise_of_not hc, assertOrRaise_of_not hc]
    rfl

theorem fails_withInput {i : Instr} {s : State} {e : ErrCode} (h : Fails i s e) (h' : Fails i (withInput m g s) e) :
    exec i (withInput m g s) = mapNext (withInput m g) (exec i s) := by
  rw [h, h']
  rfl

/-- The common front of `CODELEN` and `ENCODE` reads the tree alone. -/
theorem withPath_withInput {sym : Byte} {s : State} {body body' : List Bool → Out}
    (h : ∀ path, body' path = mapNext (withInput m g) (body path)) :
    withPath sym (withInput m g s) body' = mapNext (withInput m g) (withPath sym s body) := by
  refine assertOrRaise_withInput m g fun _ => ?_
  simp only [withInput_leafIdx, pathOf_withInput]
  cases leafAt s.leafIdx sym with
  | none => rfl
  | some i =>
    dsimp only
    cases pathOf s i with
    | none => rfl
    | some path => exact h path

theorem emitBytes_withInput (bs : List Byte) (s : State) :
    emitBytes bs (withInput m g s) = withInput m g (emitBytes bs s) := by
  induction bs generalizing s with
  | nil => rfl
  | cons b bs ih => exact ih (emitByte b s)

theorem emitBit_withInput (b : Bool) (s : State) : emitBit b (withInput m g s) = withInput m g (emitBit b s) := by
  by_cases h7 : s.onbits.toNat = 7
  · rw [emitBit_last h7, emitBit_last (s := withInput m g s) h7]
    rfl
  · rw [emitBit_mid h7, emitBit_mid (s := withInput m g s) h7]
    rfl

theorem emitBits_withInput (bs : List Bool) (s : State) :
    emitBits bs (withInput m g s) = withInput m g (emitBits bs s) := by
  induction bs generalizing s with
  | nil => rfl
  | cons b bs ih => rw [emitBits_cons, emitBit_withInput, ih, emitBits_cons]

end Commutes

/-! ## Reads below `ILEN` (R209) -/

section Reads

variable {m : Memory} {g : Nat} {s : State}
  (hin : ∀ k, k < s.ilen.toNat → inByte (withInput m g s) k = inByte s k)
include hin

theorem readBitAt_withInput {p : Nat} (hp : p < 8 * s.ilen.toNat) :
    readBitAt (withInput m g s) p = readBitAt s p :=
  congrArg (BitVec.getLsbD · (bitPos s.cfg.bitOrder (p % 8))) (hin (p / 8) (by omega))

theorem readIntAt_withInput {j : Nat} (hj : j + 4 ≤ s.ilen.toNat) :
    readIntAt (withInput m g s) j = readIntAt s j := by
  unfold readIntAt readByteAt
  rw [hin j (by omega), hin (j + 1) (by omega), hin (j + 2) (by omega), hin (j + 3) (by omega)]
  rfl

theorem headerFreq_withInput {j : Nat} (hj : j + 1028 ≤ s.ilen.toNat) :
    headerFreq (withInput m g s) j = headerFreq s j := by
  unfold headerFreq
  congr 1
  funext k
  have hk : k.val < 256 := k.isLt
  exact readIntAt_withInput hin (by omega)

/-- The walk of `DECODE` within the input (R173). -/
theorem walkDown_withInput {rem p : Nat} (hrem : rem ≤ 8 * s.ilen.toNat - p) (i : Slot) :
    walkDown (withInput m g s) rem p i = walkDown s rem p i := by
  induction rem generalizing p i with
  | zero => unfold walkDown; rfl
  | succ rem ih =>
    cases hb : (nodeAt s.nodes i).body with
    | leaf sym => rw [walkDown_leaf hb, walkDown_leaf (s := withInput m g s) hb]
    | dummy => rw [walkDown_dummy hb, walkDown_dummy (s := withInput m g s) hb]
    | internal l r =>
      rw [walkDown_edge hb, walkDown_edge (s := withInput m g s) hb, readBitAt_withInput hin (by omega),
        ih (by omega)]

/-- `DECODE` walks within the input, and what it then does depends on the node it ends in alone (R173). -/
theorem execDecode_withInput : execDecode (withInput m g s) = mapNext (withInput m g) (execDecode s) := by
  refine assertOrRaise_withInput m g fun _ => ?_
  have hwalk := walkDown_withInput hin (Nat.le_refl (8 * s.ilen.toNat - s.ipos.toNat)) s.root
  simp only [withInput_ilen, withInput_ipos, withInput_root, withInput_nodes, hwalk]
  cases walkDown s (8 * s.ilen.toNat - s.ipos.toNat) s.ipos.toNat s.root with
  | none => rfl
  | some ip =>
    dsimp only
    cases (nodeAt s.nodes ip.1).body <;> rfl

/-- A command does the same with another input buffer that agrees below `ILEN`. -/
theorem exec_withInput (i : Instr) : exec i (withInput m g s) = mapNext (withInput m g) (exec i s) := by
  cases i
  case count | build =>
    exact assertOrRaise_withInput m g fun _ => assertOrRaise_withInput m g fun _ => rfl
  case codelen => exact withPath_withInput m g fun _ => rfl
  case encode =>
    refine withPath_withInput m g fun path => assertOrRaise_withInput m g fun _ => ?_
    rw [emitBits_withInput]
    rfl
  case decode => exact execDecode_withInput hin
  case putbit =>
    by_cases ha : s.arg.toNat ≤ 1
    · rw [exec_putbit ha, exec_putbit (s := withInput m g s) ha]
      exact assertOrRaise_withInput m g fun _ => congrArg complete (emitBit_withInput m g _ s)
    · have hbig := Nat.lt_of_not_le ha
      exact fails_withInput m g (fails_putbit_badArg hbig) (fails_putbit_badArg hbig)
  case putbyte =>
    by_cases ha : s.arg.toNat ≤ 0xFF
    · rw [exec_putbyte ha, exec_putbyte (s := withInput m g s) ha]
      exact assertOrRaise_withInput m g fun _ => assertOrRaise_withInput m g fun _ => rfl
    · have hbig := Nat.lt_of_not_le ha
      exact fails_withInput m g (fails_putbyte_badArg hbig) (fails_putbyte_badArg hbig)
  case putint | wrhdr =>
    exact assertOrRaise_withInput m g fun _ => assertOrRaise_withInput m g fun _ =>
      congrArg complete (emitBytes_withInput m g _ s)
  case flush =>
    by_cases hbits : s.onbits = 0
    · rw [exec_flush_aligned hbits, exec_flush_aligned (s := withInput m g s) hbits]
      rfl
    · rw [exec_flush_partial hbits, exec_flush_partial (s := withInput m g s) hbits]
      exact assertOrRaise_withInput m g fun _ => rfl
  case getbit =>
    refine assertOrRaise_withInput m g fun hp => ?_
    rw [readBitAt_withInput hin hp]
    rfl
  case getbyte =>
    refine assertOrRaise_withInput m g fun _ => assertOrRaise_withInput m g fun hr => ?_
    rw [show readByteAt (withInput m g s) _ = _ from hin _ hr]
    rfl
  case getint =>
    refine assertOrRaise_withInput m g fun _ => assertOrRaise_withInput m g fun hr => ?_
    rw [readIntAt_withInput hin hr]
    rfl
  case rdhdr =>
    refine assertOrRaise_withInput m g fun _ => assertOrRaise_withInput m g fun hr => ?_
    have hint : inIndex (withInput m g s) + 4 ≤ s.ilen.toNat := (Nat.add_le_add_left (by decide) _).trans hr
    rw [readIntAt_withInput hin hint, headerFreq_withInput hin hr]
    rfl
  all_goals rfl

end Reads

/-- Settles O49: each body reads the input below `ILEN` alone, and writes neither the buffer nor what stands for its
unwritten bytes. -/
theorem readerIgnoresBytesAboveIlen : Obligations.ReaderIgnoresBytesAboveIlen := by
  intro i s m g hin
  refine (exec_withInput hin i).trans ?_
  cases exec i s <;> rfl

end Sys2Proof.Proofs
end

section
/-! Proofs about the header commands (45_header.md R240 to R244): `WRHDR` appends the header's integers to the stream,
`RDHDR` reads them back, and the one undoes the other. -/

namespace Sys2Proof.Proofs

open Sys2Proof.Machine Sys2Proof.Safety Sys2Proof.Laws

/-- A command that ends with code 0 has had its body's effect (R260). -/
theorem effect_of_errcode_ok {i : Instr} {s t : State} (h : exec i s = .next t) (hok : t.errcode = .ok) :
    ∃ u, Effect i s u ∧ t = ended .ok u := by
  rcases exec_cases h with ⟨e, he, rfl⟩ | hu
  · exact absurd hok he
  · exact hu

/-! ## `WRHDR` (R240) -/

/-- The header's bytes are added to the completed bytes, since a header that fits does not fill `OLEN`'s register. -/
theorem outBytes_wrhdr {s : State} (hc : s.cfg.wf = true) (hfit : bytesFit HDRBYTES s) :
    outBytes (emitBytes (headerBytes s) s) = outBytes s ++ headerBytes s := by
  have := obufSize_le hc
  exact outBytes_emitBytes _ s (by rw [length_headerBytes]; omega)

/-- The header with its symbols as numbers. -/
theorem headerBytes_eq_range (s : State) : headerBytes s = intToBytes s.cfg.intOrder s.total ++
    (List.range 256).flatMap (fun k => intToBytes s.cfg.intOrder (freqAt s.freq (BitVec.ofNat 8 k))) := by
  rw [headerBytes, allSymbols, List.flatMap_map]

/-- Settles O50: the two checks in order, and `EmitBytes` adds the header. -/
theorem wrhdrWritesHeader : Obligations.WrhdrWritesHeader := by
  refine ⟨fun w => decode_iff_ofNat w .wrhdr, fun s => ⟨fun hbits => ?_, fun hbits hfull => ?_,
    fun hbits hfit hc => ⟨emitBytes (headerBytes s) s, exec_wrhdr hbits hfit, ?_, ?_⟩⟩⟩
  · exact assertOrRaise_of_not hbits _ _ _
  · exact (assertOrRaise_of hbits _ _ _).trans (assertOrRaise_of_not (Nat.not_le_of_lt hfull) _ _ _)
  · exact (emitBytes_eq _ s).trans (by rw [length_headerBytes]; rfl)
  · rw [outBytes_wrhdr hc hfit, headerBytes_eq_range]

/-! ## `RDHDR` (R241) -/

theorem freqAt_headerFreq (s : State) (j : Nat) (sym : Byte) :
    freqAt (headerFreq s j) sym = readIntAt s (j + 4 + 4 * sym.toNat) := Vector.getElem_ofFn _

/-- Settles O51: the two checks in order, and each integer of the header is the one `BytesToInt` reads. -/
theorem rdhdrReadsHeader : Obligations.RdhdrReadsHeader := by
  refine ⟨fun w => decode_iff_ofNat w .rdhdr, fun s => ⟨fun ha => ?_, fun ha hend => ?_, fun ha hr =>
    ⟨_, exec_rdhdr ha hr, ?_, rfl, freqAt_headerFreq s (inIndex s)⟩⟩⟩
  · exact assertOrRaise_of_not ha _ _ _
  · exact (assertOrRaise_of ha _ _ _).trans (assertOrRaise_of_not (Nat.not_le_of_lt hend) _ _ _)
  · exact congrArg invalidateTree (setIpos_add (8 * HDRBYTES)
      { s with total := readIntAt s (inIndex s), freq := headerFreq s (inIndex s) })

/-! ## Bytes and integers that stand in the input (R209, R242) -/

/-- The bytes `bs` stand in the input from index `j` on. -/
def InputHolds (s : State) (j : Nat) (bs : List Byte) : Prop := ∀ k b, bs[k]? = some b → inByte s (j + k) = b

theorem InputHolds.append {s : State} {j : Nat} {bs cs : List Byte} (h : InputHolds s j (bs ++ cs)) :
    InputHolds s j bs ∧ InputHolds s (j + bs.length) cs := by
  refine ⟨fun k b hb => h k b ?_, fun k b hb => ?_⟩
  · rw [List.getElem?_append_left (List.getElem?_eq_some_iff.1 hb).1, hb]
  · rw [Nat.add_assoc]
    exact h _ b (by rw [List.getElem?_append_right (Nat.le_add_right _ _), Nat.add_sub_cancel_left, hb])

/-- The integer whose four bytes stand in the input is read there (R66). -/
theorem readIntAt_of_inputHolds {s : State} {j : Nat} {v : Word} (h : InputHolds s j (intToBytes s.cfg.intOrder v)) :
    readIntAt s j = v := by
  obtain ⟨b0, b1, b2, b3, hv⟩ : ∃ b0 b1 b2 b3, intToBytes s.cfg.intOrder v = [b0, b1, b2, b3] := by
    cases s.cfg.intOrder <;> exact ⟨_, _, _, _, rfl⟩
  rw [hv] at h
  simp only [readIntAt, readByteAt]
  rw [show inByte s j = b0 from h 0 b0 rfl, h 1 b1 rfl, h 2 b2 rfl, h 3 b3 rfl]
  exact bytesToInt_intToBytes _ _ _ _ _ _ hv

/-- Of integers whose bytes stand in the input one after another, each is read at its place. -/
theorem readIntAt_of_inputHolds_flatMap {s : State} {vs : List Word} {j i : Nat} {v : Word}
    (h : InputHolds s j (vs.flatMap (intToBytes s.cfg.intOrder))) (hv : vs[i]? = some v) :
    readIntAt s (j + 4 * i) = v := by
  induction vs generalizing j i with
  | nil => cases hv
  | cons w vs ih =>
    rw [List.flatMap_cons] at h
    obtain ⟨hhead, htail⟩ := h.append
    cases i with
    | zero => cases hv; exact readIntAt_of_inputHolds hhead
    | succ i =>
      rw [length_intToBytes] at htail
      rw [show j + 4 * (i + 1) = j + 4 + 4 * i by omega]
      exact ih htail hv

/-! ## The round trip (R244) -/

/-- The integers of the header, in order (R242). -/
def headerInts (s : State) : List Word := s.total :: allSymbols.map (freqAt s.freq)

theorem headerBytes_eq_flatMap (s : State) : headerBytes s = (headerInts s).flatMap (intToBytes s.cfg.intOrder) := by
  rw [headerBytes, headerInts, List.flatMap_cons, List.flatMap_map]

theorem getElem?_allSymbols (sym : Byte) : allSymbols[sym.toNat]? = some sym := by
  have hsym : sym.toNat < NSYM := sym.isLt
  rw [allSymbols, List.getElem?_map, List.getElem?_range hsym, Option.map_some, BitVec.ofNat_toNat, BitVec.setWidth_eq]

theorem getElem?_headerInts_succ (s : State) (sym : Byte) :
    (headerInts s)[sym.toNat + 1]? = some (freqAt s.freq sym) := by
  rw [headerInts, List.getElem?_cons_succ, List.getElem?_map, getElem?_allSymbols, Option.map_some]

/-- `RDHDR` where a header stands in the input recovers the header's `TOTAL` and table. -/
theorem rdhdr_of_inputHolds {s u : State} (ho : u.cfg.intOrder = s.cfg.intOrder)
    (h : InputHolds u (inIndex u) (headerBytes s)) :
    readIntAt u (inIndex u) = s.total ∧ headerFreq u (inIndex u) = s.freq := by
  rw [headerBytes_eq_flatMap, ← ho] at h
  refine ⟨readIntAt_of_inputHolds_flatMap (i := 0) h rfl, freqTable_ext fun sym => ?_⟩
  have hread := readIntAt_of_inputHolds_flatMap h (getElem?_headerInts_succ s sym)
  rwa [freqAt_headerFreq, Nat.add_assoc, show 4 + 4 * sym.toNat = 4 * (sym.toNat + 1) by omega]

/-- Bytes added to the completed bytes stand in the output buffer from the old `OLEN` on (R35). -/
theorem outByte_of_outBytes_append {s t : State} {bs : List Byte} (h : outBytes t = outBytes s ++ bs) {k : Nat}
    {b : Byte} (hb : bs[k]? = some b) : outByte t (s.olen.toNat + k) = b := by
  have hlen : (outBytes s).length = s.olen.toNat := by rw [outBytes, List.length_map, List.length_range]
  have hget : (outBytes t)[s.olen.toNat + k]? = some b := by
    rw [h, List.getElem?_append_right (by omega), hlen, Nat.add_sub_cancel_left, hb]
  obtain ⟨_, hbyte⟩ := List.getElem?_eq_some_iff.1 hget
  simpa only [outBytes, List.getElem_map, List.getElem_range] using hbyte

/-- Settles O52: the bytes of a `WRHDR` that succeeds are the header's, so they stand in the reader's input, and each
integer of the header is read where it was written. -/
theorem headerFidelity : Obligations.HeaderFidelity := by
  intro s t u v hc hw hwok ho hr hrok hbytes
  obtain ⟨_, ⟨-, hfit, rfl⟩, rfl⟩ := effect_of_errcode_ok hw hwok
  obtain ⟨_, ⟨-, -, rfl⟩, rfl⟩ := effect_of_errcode_ok hr hrok
  refine rdhdr_of_inputHolds ho fun k b hb => ?_
  have hk : k < (headerBytes s).length := (List.getElem?_eq_some_iff.1 hb).1
  rw [length_headerBytes] at hk
  exact (hbytes k hk).trans (outByte_of_outBytes_append (outBytes_wrhdr hc hfit) hb)

end Sys2Proof.Proofs
end

section
/-! Proofs about the execution step (60_exceptions.md R260, R262): a failing command discards its body's writes, and a
step of the engine is the pending command's own meaning. -/

namespace Sys2Proof.Proofs

open Sys2Proof.Machine Sys2Proof.Safety Sys2Proof.Laws

/-! ## Failing commands (R262) -/

/-- Settles O6: a command that ends with a nonzero code did not commit a body, so it raised that code. -/
theorem failedCommandChangesOnlyErrcode : Obligations.FailedCommandChangesOnlyErrcode := by
  intro i s t h hfail
  rcases exec_cases h with ⟨e, -, rfl⟩ | ⟨u, -, rfl⟩
  · rfl
  · exact absurd rfl hfail

/-! ## The execution step (R260) -/

theorem execute_legal {w : Word} {i : Instr} (h : decode w = .ok i) (s : State) : execute w s = exec i s := by
  rw [execute, h]

/-- A table word of at most 32 bits is read as the command word with its bits and zeros above them (R90, R94). -/
theorem decodeTableWord_eq_some_iff {nbits w : Nat} {i : Instr} :
    decodeTableWord nbits w = some i ↔ nbits ≤ 32 ∧ decode (BitVec.ofNat 32 (w % 2 ^ nbits)) = .ok i := by
  unfold decodeTableWord
  by_cases hn : nbits ≤ 32
  · rw [if_pos hn]
    cases decode (BitVec.ofNat 32 (w % 2 ^ nbits)) <;> simp [hn]
  · simp [hn]

/-- A placed word is executed by the very next step (log 2). -/
theorem step_withFetchWord (s : State) (nbits w : Nat) :
    step (s.withFetchWord nbits w) = execute (BitVec.ofNat 32 (w % 2 ^ nbits)) (s.withFetchWord nbits w) :=
  step_pending rfl rfl rfl rfl

/-- Settles O5: either way the engine moves it executes the pending word, and a legal word runs its command. -/
theorem stepRunsDecodedCommand : Obligations.StepRunsDecodedCommand := by
  refine ⟨fun s w i hp hb hw hi => ⟨fun hs => ?_, fun ts hs => ?_⟩, fun s w i hi => ?_⟩
  · rw [step_pending hp hb hw hs, execute_legal hi]
  · rw [step_engineTurn hp hb hw hs, execute_legal hi]
  · rw [step_withFetchWord, execute_legal (decodeTableWord_eq_some_iff.1 hi).2]

end Sys2Proof.Proofs
end

section
/-! Proofs about the reset sequence (70_reset_and_hazards.md R290, R291, R294): the platform's two moves of the reset
input, the end of the initialisation period, and the host's operation while reset is asserted. -/

namespace Sys2Proof.Proofs

open Sys2Proof.Machine Sys2Proof.Safety Sys2Proof.Laws

/-! ## The moves of the reset input (R290, R291) -/

/-- The first turn of the schedule is the next move (log 3). -/
theorem step_turn {s : State} {turn : Turn} {ts : List Turn} (hs : s.sched = turn :: ts) :
    step s = takeTurn turn { s with sched := ts } := by
  simp only [step, nextMove, hs]

theorem step_assertReset {s : State} {ts : List Turn} (hs : s.sched = .assertReset :: ts) :
    step s = .next (assertReset { s with sched := ts }) := step_turn hs

/-- A release of an asserted reset begins the initialisation period, `BUSY` reading 1 (R291). -/
theorem step_releaseReset {s : State} {ts : List Turn} (hs : s.sched = .releaseReset :: ts)
    (hp : s.phase = .inReset) :
    step s = .next { s with phase := .initialising, busy := true, sched := ts } := by
  rw [step_turn hs, takeTurn, releaseReset, hp]

/-- The engine's turn in the initialisation period ends it (R291). -/
theorem step_initialising {s : State} {ts : List Turn} (hs : s.sched = .engine :: ts)
    (hp : s.phase = .initialising) : step s = .next (endInitialisation { s with sched := ts }) := by
  rw [step_turn hs, takeTurn, engineStep, hp]

/-! ## The host while reset is asserted (R290) -/

/-- While reset is asserted the host's next operation is refused, whatever it is (R290, log 7). -/
theorem hostStep_inReset {s : State} (hp : s.phase = .inReset) (hh : s.host ≠ []) :
    hostStep s = .refused .accessDuringReset := by
  obtain ⟨op, rest, hops⟩ := List.exists_cons_of_ne_nil hh
  simp only [hostStep, hops, if_pos hp]

/-! ## The sequence (R290, R291, R294) -/

/-- Settles O12: asserting reset forces every field but the parameters and the host's records, and the release and the
end of the initialisation period change `phase` and `BUSY` alone. -/
theorem resetSequence : Obligations.ResetSequence := by
  refine fun s => ⟨fun hs => ?_, hostStep_inReset⟩
  rw [run_of_next (step_assertReset hs), run_of_next (step_releaseReset rfl rfl),
    run_of_next (step_initialising rfl rfl)]
  rfl

end Sys2Proof.Proofs
end
